-- ==== Sys2Proof/Word.lean ====
section
/-! DEFINITION. The machine word and the byte. Every BPD register is 32 bits wide (10_state R21) and
every memory access a rule specifies is one byte (20_memory R55). -/

namespace Sys2Proof

/-- A register value or a memory address: 32 bits (10_state R21, 00_scope R7 ADDR_W). -/
abbrev Word := BitVec 32

/-- One byte of memory. -/
abbrev Byte := BitVec 8

end Sys2Proof
end

