-- ==== Sys2Proof/Config.lean ====
section
/-! DEFINITION. The implementation parameters of 00_scope R7 and the free values. A platform is plain
data, so that State can hold it and a statement over all states is a statement over all platforms (log 2: DESIGN CHOICE).
The platform the machine is reset on, and the draws, are opaque: nothing can be proved of their values. -/

namespace Sys2Proof.Config

/-- The parameter F16_FMT: the bit layout of a dtype16 element (00_scope R7, 41_field_extract R111). -/
inductive F16Fmt
  | binary16
  | bfloat16
deriving DecidableEq, Repr, Inhabited

/-- The direction of an access through the memory port, as in `Admit(a, dir)` (00_scope R7). -/
inductive Dir
  | read
  | write
deriving DecidableEq, Repr, Inhabited

/-- `region(base, len)`: the byte addresses base, ..., base + len - 1 (42_transform_engine R121). -/
structure Region where
  base : Nat
  len  : Nat
deriving DecidableEq, Repr, Inhabited

/-- Addresses the memory port refuses in one direction: a piece of the platform predicate `Admit` (log 12: DESIGN CHOICE). -/
structure Refused where
  region : Region
  dir    : Dir
deriving DecidableEq, Repr, Inhabited

/-- The parameters of 00_scope R7 that are not fixed by the spec. -/
structure Platform where
  /-- F16_FMT (D4). -/
  f16Fmt : F16Fmt
  /-- VLEN, 0..255 (D18). -/
  vlen : BitVec 8
  /-- VMIN - 1: VMIN is an integer of at least 1 (D18). -/
  vminLessOne : Nat
  /-- cap_in, the capability input sampled at reset (D18, log 13: DEDUCED). -/
  capIn : Bool
  /-- BPD_BASE, the address of the 256-byte register window (D33). -/
  bpdBase : Word
  /-- The addresses and directions at which `Admit` is false (D20, log 12: DESIGN CHOICE). -/
  refused : List Refused
  /-- Memory whose reads have side effects (20_memory R57, log 20: DESIGN CHOICE). -/
  devices : List Region
  /-- MEM_COHERENT (20_memory R67, D22, log 14: DESIGN CHOICE). -/
  memCoherent : Bool
deriving DecidableEq, Repr, Inhabited

/-- The platform BPD sits on: OPEN in the spec, so no proof can see which it is (log 2: DESIGN CHOICE). -/
opaque platform : Platform

/-- The free values. Draw number n may be anything; the machine counts the draws it has used in State.draws (log 3: DESIGN CHOICE). -/
opaque draw : Nat → Nat

end Sys2Proof.Config
end

