-- ==== Sys2Proof/Syntax.lean ====
section
/-! DEFINITION. The 14 commands of BPD, one constructor per row of the opcode table (30_encoding R76). A
command carries no operand: its operands are registers (30_encoding R75). -/

namespace Sys2Proof

/-- The command set (30_encoding R76, R80). -/
inductive Instr
  /-- bpd.split16 (R102) -/
  | split16
  /-- bpd.split32 (R103) -/
  | split32
  /-- bpd.join16 (R104) -/
  | join16
  /-- bpd.join32 (R105) -/
  | join32
  /-- bpd.field.sign16 (R112) -/
  | fieldSign16
  /-- bpd.field.exp16 (R113) -/
  | fieldExp16
  /-- bpd.field.mant16 (R114) -/
  | fieldMant16
  /-- bpd.field.sign32 (R115) -/
  | fieldSign32
  /-- bpd.field.exp32 (R116) -/
  | fieldExp32
  /-- bpd.field.mant32 (R117) -/
  | fieldMant32
  /-- bpd.forward16 (R122) -/
  | forward16
  /-- bpd.forward32 (R123) -/
  | forward32
  /-- bpd.inverse16 (R124) -/
  | inverse16
  /-- bpd.inverse32 (R125) -/
  | inverse32
deriving DecidableEq, Repr

end Sys2Proof
end

