-- ==== Sys2Proof/WellFormed.lean ====
section
/-! DEFINITION. The fields of a command word (30_encoding R71) and the checks that make them a command
(R72 to R74). The commands themselves have no operands, so it is their fields that can be ill formed. -/

namespace Sys2Proof

/-- The four fields of a command word (30_encoding R71). -/
structure Fields where
  rsvd : BitVec 24
  fld  : BitVec 2
  dt   : BitVec 2
  op   : BitVec 4
deriving DecidableEq, Repr

/-- OP is one of SPLIT, JOIN, FIELD, FORWARD, INVERSE (30_encoding R73). -/
def Fields.opOk (f : Fields) : Bool :=
  f.op == 1#4 || f.op == 2#4 || f.op == 3#4 || f.op == 4#4 || f.op == 5#4

/-- The reserved bits are 0, and FLD is 0 unless OP is FIELD (30_encoding R71, R74). -/
def Fields.rsvdOk (f : Fields) : Bool :=
  f.rsvd == 0#24 && (f.op == 3#4 || f.fld == 0#2)

/-- DT names a dtype: 01 or 10 (30_encoding R72). -/
def Fields.dtOk (f : Fields) : Bool :=
  f.dt == 1#2 || f.dt == 2#2

/-- A FIELD command does not have FLD = 11 (30_encoding R74). -/
def Fields.fldOk (f : Fields) : Bool :=
  !(f.op == 3#4 && f.fld == 3#2)

/-- The fields form one of the 14 commands. -/
def Fields.wellFormed (f : Fields) : Bool :=
  f.opOk && f.rsvdOk && f.dtOk && f.fldOk

end Sys2Proof
end

