-- ==== Sys2Proof/Decode.lean ====
section
/-! DEFINITION. The decoder of 30_encoding R78, total on every 32-bit word and refusing by cause, and the
encoder of the table of R76. -/

namespace Sys2Proof

/-- The causes of InvalidInput (60_exceptions R141). The first four are raised by decode, the last three
by the operand checks of 42_transform_engine R120. -/
inductive Cause
  | badOp
  | rsvdBits
  | badDtype
  | badField
  | lenMismatch
  | range
  | overlap
deriving DecidableEq, Repr

/-- Cut a word into its fields (30_encoding R71). -/
def fieldsOf (w : Word) : Fields where
  rsvd := w.extractLsb' 8 24
  fld := w.extractLsb' 6 2
  dt := w.extractLsb' 4 2
  op := w.extractLsb' 0 4

/-- Put fields together into a word (30_encoding R71). -/
def wordOf (f : Fields) : Word :=
  f.rsvd ++ (f.fld ++ (f.dt ++ f.op))

/-- The command that well-formed fields name (30_encoding R76). -/
def commandOf (f : Fields) : Option Instr :=
  match f.op.toNat, f.dt.toNat, f.fld.toNat with
  | 1, 1, 0 => some .split16
  | 1, 2, 0 => some .split32
  | 2, 1, 0 => some .join16
  | 2, 2, 0 => some .join32
  | 3, 1, 0 => some .fieldSign16
  | 3, 1, 1 => some .fieldExp16
  | 3, 1, 2 => some .fieldMant16
  | 3, 2, 0 => some .fieldSign32
  | 3, 2, 1 => some .fieldExp32
  | 3, 2, 2 => some .fieldMant32
  | 4, 1, 0 => some .forward16
  | 4, 2, 0 => some .forward32
  | 5, 1, 0 => some .inverse16
  | 5, 2, 0 => some .inverse32
  | _, _, _ => none

/-- Decoding: the first check that fires gives the cause (30_encoding R78, 60_exceptions R142). After the
checks `commandOf` always finds a command; its `none` is not reached. -/
def decode (w : Word) : Except Cause Instr :=
  let f := fieldsOf w
  if f.opOk = false then .error .badOp
  else if f.rsvdOk = false then .error .rsvdBits
  else if f.dtOk = false then .error .badDtype
  else if f.fldOk = false then .error .badField
  else match commandOf f with
    | some i => .ok i
    | none => .error .badOp

/-- The fields of each command (30_encoding R76). -/
def encodeFields : Instr → Fields
  | .split16     => ⟨0, 0, 1, 1⟩
  | .split32     => ⟨0, 0, 2, 1⟩
  | .join16      => ⟨0, 0, 1, 2⟩
  | .join32      => ⟨0, 0, 2, 2⟩
  | .fieldSign16 => ⟨0, 0, 1, 3⟩
  | .fieldExp16  => ⟨0, 1, 1, 3⟩
  | .fieldMant16 => ⟨0, 2, 1, 3⟩
  | .fieldSign32 => ⟨0, 0, 2, 3⟩
  | .fieldExp32  => ⟨0, 1, 2, 3⟩
  | .fieldMant32 => ⟨0, 2, 2, 3⟩
  | .forward16   => ⟨0, 0, 1, 4⟩
  | .forward32   => ⟨0, 0, 2, 4⟩
  | .inverse16   => ⟨0, 0, 1, 5⟩
  | .inverse32   => ⟨0, 0, 2, 5⟩

/-- The word of a command: `(FLD << 6) | (DT << 4) | OP` (30_encoding R76). -/
def encode (i : Instr) : Word := wordOf (encodeFields i)

/-- What the decoder reads from an instruction whose bits are w, numbered from the least significant bit;
a command is one 32-bit word (30_encoding R70), and bits above nbits are 0. -/
def decodeTableWord (nbits w : Nat) : Option Instr :=
  match decode (BitVec.ofNat 32 (w % 2 ^ nbits)) with
  | .ok i => some i
  | .error _ => none

end Sys2Proof
end

