-- ==== Sys2Proof/Machine/Flags.lean ====
section
/-! DEFINITION. The words of the two status registers: every value STATUS is given (10_state R26,
60_exceptions R141, R143, R144, R146), its fields, and HWCFG (10_state R25). BPD has no arithmetic flags (R38). -/

namespace Sys2Proof.Machine

open Sys2Proof.Config

/-- The CAUSE code of an InvalidInput (60_exceptions R141). -/
def causeCode : Cause → Word
  | .badOp       => 0x01
  | .rsvdBits    => 0x02
  | .badDtype    => 0x03
  | .badField    => 0x04
  | .lenMismatch => 0x05
  | .range       => 0x06
  | .overlap     => 0x07

/-- The CAUSE code of a BusError: 1 for a refused read, 2 for a refused write (60_exceptions R141, R146). -/
def dirCode : Dir → Word
  | .read  => 0x01
  | .write => 0x02

/-- DONE = 1 and no error (40_element_codec R101, 42_transform_engine R129). -/
def statusDone : Word := 0x00000002

/-- BUSY = 1 (42_transform_engine R120). -/
def statusBusy : Word := 0x00000001

/-- ERR = 1 with a cause, DONE = 1 (60_exceptions R143). -/
def statusInvalidInput (c : Cause) : Word := 0x00000012 ||| (causeCode c <<< 8)

/-- ERR = 2 with a cause, DONE = 1 (60_exceptions R146). -/
def statusBusError (d : Dir) : Word := 0x00000022 ||| (dirCode d <<< 8)

/-- STATUS.BUSY, bit 0 (10_state R26). -/
def statusBusyBit (w : Word) : Bool := w.getLsbD 0

/-- STATUS.DONE, bit 1 (10_state R26). -/
def statusDoneBit (w : Word) : Bool := w.getLsbD 1

/-- STATUS.ERR, bits 7:4 (10_state R26). -/
def statusErr (w : Word) : BitVec 4 := w.extractLsb' 4 4

/-- STATUS.CAUSE, bits 15:8 (10_state R26). -/
def statusCause (w : Word) : BitVec 8 := w.extractLsb' 8 8

/-- HWCFG.F16FMT: 0 for BINARY16, 1 for BFLOAT16 (10_state R25). -/
def f16FmtBit : F16Fmt → BitVec 1
  | .binary16 => 0
  | .bfloat16 => 1

/-- HWCFG as the host reads it: `{16'b0, VLEN[7:0], 6'b0, F16FMT, CAP}` (10_state R25, R40). -/
def hwcfgWord (p : Platform) (cap : Bool) : Word :=
  0#16 ++ (p.vlen ++ (0#6 ++ (f16FmtBit p.f16Fmt ++ BitVec.ofBool cap)))

/-- `cap_in AND (VLEN > 0)`: what HWCFG.CAP takes at reset (70_reset_and_hazards R172). -/
def capAtReset (p : Platform) : Bool := p.capIn && decide (0 < p.vlen.toNat)

end Sys2Proof.Machine
end

