-- ==== Sys2Proof/Machine/State.lean ====
section
/-! DEFINITION. The state of BPD, of the memory its host owns, and of the host's own program, as plain data.
10_state R20 lists what is BPD's: the registers of R23 and the hidden state of R36. -/

namespace Sys2Proof.Machine

open Sys2Proof.Config

/-- The element types (00_scope R5). -/
inductive DType
  | dtype16
  | dtype32
deriving DecidableEq, Repr

/-- The direction of a buffer command: L.op (10_state R36). -/
inductive BufferOp
  | forward
  | inverse
deriving DecidableEq, Repr

/-- L.path (10_state R36, 42_transform_engine R127). -/
inductive Path
  | vectorized
  | scalar
deriving DecidableEq, Repr

/-- The two agents (00_scope R4). Other bus masters count as the host (60_exceptions R155; log 17: DEDUCED). -/
inductive Agent
  | host
  | engine
deriving DecidableEq, Repr

/-- The width of a host access to the register window; only `word` is defined (10_state R21). -/
inductive Width
  | byte
  | half
  | word
  | double
deriving DecidableEq, Repr

/-- What the host can do (30_encoding R79, 20_memory R68, 70_reset_and_hazards R170). A register access is at
BPD_BASE + offset (10_state R21; log 7: DESIGN CHOICE); a memory access is one byte (log 6: DEDUCED). -/
inductive HostOp
  /-- `rd REG` -/
  | regRead (offset : BitVec 8) (width : Width)
  /-- `wr REG, value` -/
  | regWrite (offset : BitVec 8) (width : Width) (value : Word)
  /-- `wait`: read STATUS until BUSY = 0 -/
  | wait
  /-- read one byte of the host's memory -/
  | memRead (addr : Word)
  /-- write one byte of the host's memory -/
  | memWrite (addr : Word) (value : Byte)
  /-- drive the reset input active (70_reset_and_hazards R170) -/
  | assertReset
  /-- release the reset input (70_reset_and_hazards R172, R174) -/
  | releaseReset
deriving DecidableEq, Repr

/-- What a host read returns. -/
inductive Reply
  | word (value : Word)
  | byte (value : Byte)
deriving DecidableEq, Repr

/-- The hidden state of a running buffer command (10_state R36), and what the races of 20_memory R63 need to know of it. -/
structure Running where
  /-- L.op -/
  op : BufferOp
  /-- L.dt -/
  dt : DType
  /-- L.count: the copy of COUNT -/
  count : Word
  /-- L.ebuf: the copy of EBUF -/
  ebuf : Word
  /-- L.pb[0..k-1]: the copies of PB0..PB(k-1) -/
  pb : List Word
  /-- L.done: the pairs already transferred, pair (i, p) as the number i * k + p, strictly rising (log 18: DESIGN CHOICE) -/
  done : List Nat
  /-- L.path; no step reads it (42_transform_engine R127; log 22: DEDUCED) -/
  path : Path
  /-- the MODEL's bookkeeping of 20_memory R63: memory as it was when the command was accepted (log 8: DEDUCED) -/
  before : List Host.Cell
  /-- the MODEL's bookkeeping of 20_memory R63: what the host wrote into the command's regions since, newest first (log 8: DEDUCED) -/
  hostWrites : List Host.Cell
deriving DecidableEq, Repr

/-- Why the machine stops with a fault. -/
inductive Fault
  /-- Raised by an engine transfer at an address of 2^32 or above, which does not exist (20_memory R50, R58). Safe:
  the checks of 42_transform_engine R120 keep every run away from it, so only states no run reaches stop here (log 15: DESIGN CHOICE). -/
  | addressOutsideSpace (address : Nat)
deriving DecidableEq, Repr

/-- Why the model gives a step no meaning. -/
inductive Refusal
  /-- Raised by an arm of exec without a meaning; no arm is left so. Safe. -/
  | notModelled (mnemonic : String)
  /-- Raised by a host access to the register window that is not 32 bits wide, a byte access to an address of the window
  among them (10_state R21, U15). Safe: the spec says a model refuses it. -/
  | registerAccessNotWord
  /-- Raised by a host register access at an offset that is not a multiple of 4 (10_state R21, U15). Safe, in the same way. -/
  | registerAccessMisaligned
  /-- Raised by a host register access while reset is asserted (70_reset_and_hazards R174, U16). Safe, in the same way. -/
  | accessDuringReset
  /-- Raised by a buffer command whose regions meet the register window (20_memory R51, U17). Safe, in the same way. -/
  | regionOverWindow
  /-- Raised by a buffer command whose regions cover memory with read side effects (20_memory R57, U18). Safe, in the same way. -/
  | regionWithSideEffects
deriving DecidableEq, Repr

/-- The machine: BPD's registers (10_state R23) and hidden state (R36), its reset input, the host's memory and program,
and the model's own fields (schedule, draws, platform). -/
structure State where
  cmd : Word
  status : Word
  /-- HWCFG.CAP, latched at reset; the rest of HWCFG is constant (10_state R25) -/
  cap : Bool
  errAddr : Word
  elem : Word
  planes : Word
  result : Word
  count : Word
  len : Word
  ebuf : Word
  pb0 : Word
  pb1 : Word
  pb2 : Word
  pb3 : Word
  /-- the hidden state of 10_state R36; none when no buffer command runs -/
  run : Option Running
  /-- the MODEL's own: the buffer commands that have ended and whose end no STATUS read has shown the host, newest first; until one does,
  their regions are still theirs (70_reset_and_hazards R176, 20_memory R68; log 25: DEDUCED). BPD itself keeps nothing of them (10_state R36) -/
  unseen : List Running
  /-- the reset input is asserted (70_reset_and_hazards R170; log 23: DEDUCED) -/
  inReset : Bool
  /-- the host's memory, strictly rising addresses, no entry equal to what an unlisted address reads as (log 1: DESIGN CHOICE) -/
  mem : List Host.Cell
  /-- what the host will still do, in the order it issues it (20_memory R61; log 4: DESIGN CHOICE) -/
  program : List HostOp
  /-- what the host's last read returned; none before any read (log 19: DESIGN CHOICE) -/
  reply : Option Reply
  /-- the MODEL's own: which agent moves in the next steps (42_transform_engine R126, R130; log 4: DESIGN CHOICE, log 5: DESIGN CHOICE) -/
  schedule : List Agent
  /-- the MODEL's own: how many free values have been drawn (log 3: DESIGN CHOICE) -/
  draws : Nat
  /-- the parameters of 00_scope R7; no step changes them (log 2: DESIGN CHOICE) -/
  platform : Platform
deriving DecidableEq, Repr

/-- The machine right after reset: every register at its value of 10_state R40, idle (70_reset_and_hazards R173), memory
with nothing listed, and nothing for the host to do. -/
def State.reset : State where
  cmd := 0
  status := 0
  cap := capAtReset Config.platform
  errAddr := 0
  elem := 0
  planes := 0
  result := 0
  count := 0
  len := 0
  ebuf := 0
  pb0 := 0
  pb1 := 0
  pb2 := 0
  pb3 := 0
  run := none
  unseen := []
  inReset := false
  mem := []
  program := []
  reply := none
  schedule := []
  draws := 0
  platform := Config.platform

/-! The updates the machine's operations are made of, one per field they write. -/

def State.setCmd (s : State) (v : Word) : State := { s with cmd := v }
def State.setStatus (s : State) (v : Word) : State := { s with status := v }
def State.setErrAddr (s : State) (v : Word) : State := { s with errAddr := v }
def State.setElem (s : State) (v : Word) : State := { s with elem := v }
def State.setPlanes (s : State) (v : Word) : State := { s with planes := v }
def State.setResult (s : State) (v : Word) : State := { s with result := v }
def State.setCount (s : State) (v : Word) : State := { s with count := v }
def State.setLen (s : State) (v : Word) : State := { s with len := v }
def State.setEbuf (s : State) (v : Word) : State := { s with ebuf := v }
def State.setPb0 (s : State) (v : Word) : State := { s with pb0 := v }
def State.setPb1 (s : State) (v : Word) : State := { s with pb1 := v }
def State.setPb2 (s : State) (v : Word) : State := { s with pb2 := v }
def State.setPb3 (s : State) (v : Word) : State := { s with pb3 := v }
def State.setRun (s : State) (r : Option Running) : State := { s with run := r }
def State.setUnseen (s : State) (l : List Running) : State := { s with unseen := l }
def State.setMem (s : State) (m : List Host.Cell) : State := { s with mem := m }
def State.setProgram (s : State) (p : List HostOp) : State := { s with program := p }
def State.setReply (s : State) (r : Reply) : State := { s with reply := some r }
def State.setSchedule (s : State) (l : List Agent) : State := { s with schedule := l }
def State.addDraws (s : State) (n : Nat) : State := { s with draws := s.draws + n }

end Sys2Proof.Machine
end

