-- ==== Sys2Proof/Machine/Ops.lean ====
section
/-! DEFINITION. The shared operations over memory and registers: one byte of memory, the free values, the
platform's answers, accepting a command word, the two error reports, the end of a command and reset. -/

namespace Sys2Proof.Machine

open Sys2Proof.Config

/-! Memory (20_memory R50): a list of (address, byte) pairs in one canonical form. -/

/-- What a byte of memory that nothing has written reads as (log 1: DESIGN CHOICE). -/
def memDefault : Byte := 0x00

/-- The number of byte addresses: ADDR_W = 32 (20_memory R50). -/
def spaceSize : Nat := 2 ^ 32

/-- `MemRead(a, 1)`. -/
def readByte : List Host.Cell → Nat → Byte
  | [], _ => memDefault
  | (b, v) :: m, a => if b = a then v else readByte m a

/-- Put an entry in its place in a rising list, over an entry of the same address. -/
def insertByte : List Host.Cell → Nat → Byte → List Host.Cell
  | [], a, v => [(a, v)]
  | (b, u) :: m, a, v =>
    if a < b then (a, v) :: (b, u) :: m
    else if a = b then (a, v) :: m
    else (b, u) :: insertByte m a v

/-- `MemWrite(a, 1, v)`, keeping the canonical form: writing what an unlisted address reads as removes the entry. -/
def writeByte (m : List Host.Cell) (a : Nat) (v : Byte) : List Host.Cell :=
  if v = memDefault then m.filter (fun c => decide (c.1 ≠ a)) else insertByte m a v

/-- The canonical form: addresses of the space, strictly rising, no entry equal to what an unlisted address reads as. -/
def Memory.wf (m : List Host.Cell) : Bool :=
  decide (m.Pairwise (fun c d => c.1 < d.1)) && m.all (fun c => decide (c.1 < spaceSize) && decide (c.2 ≠ memDefault))

/-! Free values (log 3: DESIGN CHOICE). -/

/-- The draw that comes `n` after those the machine has used. -/
def drawAt (s : State) (n : Nat) : Nat := Config.draw (s.draws + n)

/-- Choose one value of a list that begins with c, by a free value. -/
def choose (n : Nat) (c : Byte) (cs : List Byte) : Byte := (c :: cs).getD (n % (cs.length + 1)) c

/-! The platform (00_scope R7). -/

/-- The address just past a region (42_transform_engine R121). -/
def regionEnd (r : Region) : Nat := r.base + r.len

/-- An address belongs to a region (42_transform_engine R121). -/
def inRegion (r : Region) (a : Nat) : Bool := decide (r.base ≤ a) && decide (a < regionEnd r)

/-- Two regions share an address (42_transform_engine R121). -/
def intersects (r q : Region) : Bool :=
  decide (0 < r.len) && decide (0 < q.len) && decide (r.base < regionEnd q) && decide (q.base < regionEnd r)

/-- `Admit(a, dir)`: the memory port may make this access (00_scope R7, 20_memory R60). -/
def portAdmits (p : Platform) (a : Nat) (d : Dir) : Bool :=
  !p.refused.any (fun f => decide (f.dir = d) && inRegion f.region a)

/-- BPD's 256-byte register window in the host's address space (10_state R21, 20_memory R59). -/
def window (p : Platform) : Region := ⟨p.bpdBase.toNat, 256⟩

/-! STATUS and the outcome of a command. -/

/-- STATUS.BUSY (10_state R26). -/
def busy (s : State) : Bool := statusBusyBit s.status

/-- InvalidInput: STATUS takes the error and nothing else changes (60_exceptions R143). The caller has put the word in CMD. -/
def raiseInvalidInput (c : Cause) (s : State) : State := s.setStatus (statusInvalidInput c)

/-- A CMD write: ignored while BUSY = 1 (60_exceptions R150); otherwise CMD takes the word and the command
runs (10_state R24). -/
def acceptWord (w : Word) (run : State → Host.Outcome State Fault Refusal) (s : State) :
    Host.Outcome State Fault Refusal :=
  if busy s then .next s else run (s.setCmd w)

/-- An element command: its result register is written and STATUS says done, in the step of the CMD
write (40_element_codec R101). -/
def elementCommand (w : Word) (write : State → State) (s : State) : Host.Outcome State Fault Refusal :=
  acceptWord w (fun t => .next ((write t).setStatus statusDone)) s

/-- A CMD write of a word that decode rejects (30_encoding R77, 60_exceptions R143). -/
def rejectWord (w : Word) (c : Cause) (s : State) : Host.Outcome State Fault Refusal :=
  acceptWord w (fun t => .next (raiseInvalidInput c t)) s

/-! Reset. -/

/-- Every register at its reset value and no hidden state (10_state R40, 70_reset_and_hazards R170, R172). No command has run since,
so none is left whose end is still to be seen (R173, R174; log 25: DEDUCED). The host's memory, its program and the model's own fields are not BPD's and stay. -/
def resetRegisters (s : State) : State :=
  { s with
    cmd := 0, status := 0, cap := capAtReset s.platform, errAddr := 0, elem := 0, planes := 0, result := 0,
    count := 0, len := 0, ebuf := 0, pb0 := 0, pb1 := 0, pb2 := 0, pb3 := 0, run := none, unseen := [] }

end Sys2Proof.Machine
end

