-- ==== Sys2Proof/Machine/Operands.lean ====
section
/-! DEFINITION. Where operands come from and results go: the register map of 10_state R23, the constants of a
dtype, the regions of a buffer command, and the places of one byte transfer. -/

namespace Sys2Proof.Machine

open Sys2Proof.Config

/-! The register map (10_state R23). -/

/-- What a read of the register at an offset returns; a reserved offset reads 0 (10_state R22, R23). -/
def readRegister (s : State) (offset : BitVec 8) : Word :=
  match offset.toNat with
  | 0x00 => s.cmd
  | 0x04 => s.status
  | 0x08 => hwcfgWord s.platform s.cap
  | 0x0C => s.errAddr
  | 0x10 => s.elem
  | 0x14 => s.planes
  | 0x18 => s.result
  | 0x1C => s.count
  | 0x20 => s.len
  | 0x24 => s.ebuf
  | 0x28 => s.pb0
  | 0x2C => s.pb1
  | 0x30 => s.pb2
  | 0x34 => s.pb3
  | _    => 0

/-- What a write of a register other than CMD does: the data registers store the value, with no other effect
(10_state R35); a write to a read-only register or a reserved offset is ignored (R22). -/
def writeRegister (s : State) (offset : BitVec 8) (v : Word) : State :=
  match offset.toNat with
  | 0x10 => s.setElem v
  | 0x14 => s.setPlanes v
  | 0x1C => s.setCount v
  | 0x20 => s.setLen v
  | 0x24 => s.setEbuf v
  | 0x28 => s.setPb0 v
  | 0x2C => s.setPb1 v
  | 0x30 => s.setPb2 v
  | 0x34 => s.setPb3 v
  | _    => s

/-! Element types (00_scope R5). -/

/-- B, the bytes of an element. -/
def elemBytes : DType → Nat
  | .dtype16 => 2
  | .dtype32 => 4

/-- k, the planes of a buffer: one per byte of the element. -/
def planeCount (d : DType) : Nat := elemBytes d

/-! The regions of a command before it is accepted (42_transform_engine R120). -/

/-- PB0..PB(k-1): a dtype16 command ignores PB2 and PB3 (10_state R34). -/
def planeBases (d : DType) (s : State) : List Word :=
  match d with
  | .dtype16 => [s.pb0, s.pb1]
  | .dtype32 => [s.pb0, s.pb1, s.pb2, s.pb3]

/-- E, the element buffer: `region(EBUF, LEN)`. -/
def elemRegion (s : State) : Region := ⟨s.ebuf.toNat, s.len.toNat⟩

/-- P_0, ..., P_(k-1): `region(PBp, COUNT)`. -/
def planeRegions (d : DType) (s : State) : List Region :=
  (planeBases d s).map (fun b => ⟨b.toNat, s.count.toNat⟩)

/-- All the regions of a command. -/
def commandRegions (d : DType) (s : State) : List Region := elemRegion s :: planeRegions d s

/-- Some two of the regions intersect. -/
def anyIntersect : List Region → Bool
  | [] => false
  | r :: rs => rs.any (intersects r) || anyIntersect rs

/-! One byte transfer of a running command (42_transform_engine R122 to R126). -/

/-- The number of (element, plane) pairs of a running command: L.count * k. -/
def pairTotal (r : Running) : Nat := r.count.toNat * planeCount r.dt

/-- The element of pair number t. -/
def pairElem (r : Running) (t : Nat) : Nat := t / planeCount r.dt

/-- The plane of pair number t. -/
def pairPlane (r : Running) (t : Nat) : Nat := t % planeCount r.dt

/-- The number of pair (i, p) (log 18: DESIGN CHOICE). -/
def pairNumber (r : Running) (i p : Nat) : Nat := i * planeCount r.dt + p

/-- L.pb[p]. -/
def planeBase (r : Running) (p : Nat) : Nat := (r.pb.getD p 0).toNat

/-- `L.ebuf + B*i + p`: byte p of element i in the element buffer. -/
def elemByteAddr (r : Running) (i p : Nat) : Nat := r.ebuf.toNat + elemBytes r.dt * i + p

/-- `L.pb[p] + i`: the byte of element i in plane p. -/
def planeByteAddr (r : Running) (i p : Nat) : Nat := planeBase r p + i

/-- `src` of a pair: FORWARD reads the element buffer, INVERSE the planes (42_transform_engine R122 to R125). -/
def pairSrc (r : Running) (t : Nat) : Nat :=
  match r.op with
  | .forward => elemByteAddr r (pairElem r t) (pairPlane r t)
  | .inverse => planeByteAddr r (pairElem r t) (pairPlane r t)

/-- `dst` of a pair: FORWARD writes the planes, INVERSE the element buffer (42_transform_engine R122 to R125). -/
def pairDst (r : Running) (t : Nat) : Nat :=
  match r.op with
  | .forward => planeByteAddr r (pairElem r t) (pairPlane r t)
  | .inverse => elemByteAddr r (pairElem r t) (pairPlane r t)

/-! The regions of a running command, from its latched operands. -/

/-- E of a running command: LEN = L.count * B was checked at acceptance (42_transform_engine R120). -/
def latchedElem (r : Running) : Region := ⟨r.ebuf.toNat, r.count.toNat * elemBytes r.dt⟩

/-- P_p of a running command. -/
def latchedPlane (r : Running) (p : Nat) : Region := ⟨planeBase r p, r.count.toNat⟩

/-- P_0, ..., P_(k-1) of a running command. -/
def latchedPlanes (r : Running) : List Region := (List.range (planeCount r.dt)).map (latchedPlane r)

/-! The pairs that touch an address (20_memory R63). -/

/-- The pair whose byte of the element buffer is at an address, if it lies in E. -/
def elemPairs (r : Running) (a : Nat) : List Nat :=
  if inRegion (latchedElem r) a then
    [pairNumber r ((a - r.ebuf.toNat) / elemBytes r.dt) ((a - r.ebuf.toNat) % elemBytes r.dt)]
  else []

/-- The pairs whose byte of a plane is at an address, one for each plane region it lies in. -/
def planePairs (r : Running) (a : Nat) : List Nat :=
  ((List.range (planeCount r.dt)).filter (fun p => inRegion (latchedPlane r p) a)).map
    (fun p => pairNumber r (a - planeBase r p) p)

/-- The pairs that read an address. -/
def pairsReading (r : Running) (a : Nat) : List Nat :=
  match r.op with
  | .forward => elemPairs r a
  | .inverse => planePairs r a

/-- The pairs that write an address: at most one, since destinations are disjoint. -/
def pairsWriting (r : Running) (a : Nat) : List Nat :=
  match r.op with
  | .forward => planePairs r a
  | .inverse => elemPairs r a

end Sys2Proof.Machine
end

