-- ==== Sys2Proof/Machine/Codec.lean ====
section
/-! DEFINITION. The element codec: SPLIT and JOIN (40_element_codec). -/

namespace Sys2Proof.Machine

/-- Byte p of a word: bits `[8p+7:8p]` (40_element_codec R100). -/
def planeByte (w : Word) (p : Nat) : Byte := w.extractLsb' (8 * p) 8

/-- `{16'b0, x[15:8], x[7:0]}`: the two plane bytes of a dtype16 element (40_element_codec R102). -/
def splitWord16 (x : Word) : Word := 0#16 ++ (planeByte x 1 ++ planeByte x 0)

/-- `{x[31:24], x[23:16], x[15:8], x[7:0]}`: the four plane bytes of a dtype32 element (40_element_codec R103). -/
def splitWord32 (x : Word) : Word := planeByte x 3 ++ (planeByte x 2 ++ (planeByte x 1 ++ planeByte x 0))

/-- `zext_32({p1, p0})` (40_element_codec R104). -/
def joinWord16 (planes : Word) : Word := (planeByte planes 1 ++ planeByte planes 0).setWidth 32

/-- The four plane bytes rejoined (40_element_codec R105). -/
def joinWord32 (planes : Word) : Word :=
  planeByte planes 3 ++ (planeByte planes 2 ++ (planeByte planes 1 ++ planeByte planes 0))

/-- bpd.split16 (40_element_codec R102). -/
def execSplit16 (s : State) : Host.Outcome State Fault Refusal :=
  elementCommand (encode .split16) (fun t => t.setPlanes (splitWord16 t.elem)) s

/-- bpd.split32 (40_element_codec R103). -/
def execSplit32 (s : State) : Host.Outcome State Fault Refusal :=
  elementCommand (encode .split32) (fun t => t.setPlanes (splitWord32 t.elem)) s

/-- bpd.join16 (40_element_codec R104). -/
def execJoin16 (s : State) : Host.Outcome State Fault Refusal :=
  elementCommand (encode .join16) (fun t => t.setResult (joinWord16 t.planes)) s

/-- bpd.join32 (40_element_codec R105). -/
def execJoin32 (s : State) : Host.Outcome State Fault Refusal :=
  elementCommand (encode .join32) (fun t => t.setResult (joinWord32 t.planes)) s

end Sys2Proof.Machine
end

