-- ==== Sys2Proof/Machine/Field.lean ====
section
/-! DEFINITION. The field extractor: FIELD (41_field_extract). Each result is the raw field, zero-extended. -/

namespace Sys2Proof.Machine

open Sys2Proof.Config

/-- `x[15]` (41_field_extract R112). -/
def sign16 (x : Word) : Word := (x.extractLsb' 15 1).setWidth 32

/-- `x[14:10]` under BINARY16, `x[14:7]` under BFLOAT16 (41_field_extract R113). -/
def exponent16 (f : F16Fmt) (x : Word) : Word :=
  match f with
  | .binary16 => (x.extractLsb' 10 5).setWidth 32
  | .bfloat16 => (x.extractLsb' 7 8).setWidth 32

/-- `x[9:0]` under BINARY16, `x[6:0]` under BFLOAT16 (41_field_extract R114). -/
def mantissa16 (f : F16Fmt) (x : Word) : Word :=
  match f with
  | .binary16 => (x.extractLsb' 0 10).setWidth 32
  | .bfloat16 => (x.extractLsb' 0 7).setWidth 32

/-- `x[31]` (41_field_extract R115). -/
def sign32 (x : Word) : Word := (x.extractLsb' 31 1).setWidth 32

/-- `x[30:23]` (41_field_extract R116). -/
def exponent32 (x : Word) : Word := (x.extractLsb' 23 8).setWidth 32

/-- `x[22:0]` (41_field_extract R117). -/
def mantissa32 (x : Word) : Word := (x.extractLsb' 0 23).setWidth 32

/-- bpd.field.sign16 (41_field_extract R112). -/
def execFieldSign16 (s : State) : Host.Outcome State Fault Refusal :=
  elementCommand (encode .fieldSign16) (fun t => t.setResult (sign16 t.elem)) s

/-- bpd.field.exp16 (41_field_extract R113). -/
def execFieldExp16 (s : State) : Host.Outcome State Fault Refusal :=
  elementCommand (encode .fieldExp16) (fun t => t.setResult (exponent16 t.platform.f16Fmt t.elem)) s

/-- bpd.field.mant16 (41_field_extract R114). -/
def execFieldMant16 (s : State) : Host.Outcome State Fault Refusal :=
  elementCommand (encode .fieldMant16) (fun t => t.setResult (mantissa16 t.platform.f16Fmt t.elem)) s

/-- bpd.field.sign32 (41_field_extract R115). -/
def execFieldSign32 (s : State) : Host.Outcome State Fault Refusal :=
  elementCommand (encode .fieldSign32) (fun t => t.setResult (sign32 t.elem)) s

/-- bpd.field.exp32 (41_field_extract R116). -/
def execFieldExp32 (s : State) : Host.Outcome State Fault Refusal :=
  elementCommand (encode .fieldExp32) (fun t => t.setResult (exponent32 t.elem)) s

/-- bpd.field.mant32 (41_field_extract R117). -/
def execFieldMant32 (s : State) : Host.Outcome State Fault Refusal :=
  elementCommand (encode .fieldMant32) (fun t => t.setResult (mantissa32 t.elem)) s

end Sys2Proof.Machine
end

