-- ==== Sys2Proof/Machine/Transform.lean ====
section
/-! DEFINITION. The host step of a buffer command: the operand checks, the latching of the operands and
the command of COUNT = 0 (42_transform_engine R120, R128). The engine's own steps are in Engine.lean. -/

namespace Sys2Proof.Machine

open Sys2Proof.Config

/-- The regions intersect in the way the command forbids: FORWARD any two, INVERSE E and a plane (42_transform_engine R120). -/
def overlapForbidden (op : BufferOp) (d : DType) (s : State) : Bool :=
  match op with
  | .forward => anyIntersect (commandRegions d s)
  | .inverse => (planeRegions d s).any (intersects (elemRegion s))

/-- The operand checks, on exact integers; the first that fires gives the cause (42_transform_engine R120). -/
def operandCheck (op : BufferOp) (d : DType) (s : State) : Option Cause :=
  if s.count.toNat * elemBytes d ≠ s.len.toNat then some .lenMismatch
  else if (commandRegions d s).any (fun r => decide (spaceSize < regionEnd r)) then some .range
  else if overlapForbidden op d s then some .overlap
  else none

/-- L.path: vectorized if CAP = 1, VLEN > 0 and n ≥ VMIN (42_transform_engine R127). -/
def selectPath (s : State) : Path :=
  if s.cap && decide (0 < s.platform.vlen.toNat) && decide (s.platform.vminLessOne + 1 ≤ s.count.toNat) then .vectorized
  else .scalar

/-- The hidden state of a command just accepted: copies of its operands, and no pair transferred
(42_transform_engine R120, 10_state R36). -/
def latch (op : BufferOp) (d : DType) (s : State) : Running where
  op := op
  dt := d
  count := s.count
  ebuf := s.ebuf
  pb := planeBases d s
  done := []
  path := selectPath s
  before := s.mem
  hostWrites := []

/-- The host step of a buffer command, its word already in CMD (42_transform_engine R120, R128). A command that passes
the checks with COUNT > 0 and whose regions meet the register window (20_memory R51) or memory with read side effects
(R57) is refused, as those rules say (log 11: DEDUCED). -/
def startBuffer (op : BufferOp) (d : DType) (s : State) : Host.Outcome State Fault Refusal :=
  match operandCheck op d s with
  | some c => .next (raiseInvalidInput c s)
  | none =>
    if s.count = 0 then .next (s.setStatus statusDone)
    else if (commandRegions d s).any (intersects (window s.platform)) then .refused .regionOverWindow
    else if (commandRegions d s).any (fun r => s.platform.devices.any (intersects r)) then .refused .regionWithSideEffects
    else .next ((s.setRun (some (latch op d s))).setStatus statusBusy)

/-- bpd.forward16 (42_transform_engine R120, R122). -/
def execForward16 (s : State) : Host.Outcome State Fault Refusal :=
  acceptWord (encode .forward16) (startBuffer .forward .dtype16) s

/-- bpd.forward32 (42_transform_engine R120, R123). -/
def execForward32 (s : State) : Host.Outcome State Fault Refusal :=
  acceptWord (encode .forward32) (startBuffer .forward .dtype32) s

/-- bpd.inverse16 (42_transform_engine R120, R124). -/
def execInverse16 (s : State) : Host.Outcome State Fault Refusal :=
  acceptWord (encode .inverse16) (startBuffer .inverse .dtype16) s

/-- bpd.inverse32 (42_transform_engine R120, R125). -/
def execInverse32 (s : State) : Host.Outcome State Fault Refusal :=
  acceptWord (encode .inverse32) (startBuffer .inverse .dtype32) s

end Sys2Proof.Machine
end

