-- ==== Sys2Proof/Machine/Dispatch.lean ====
section
/-! DEFINITION. exec: one arm per command, each one direct call of its meaning. exec i is the whole host step
that writes i's word to CMD. -/

namespace Sys2Proof.Machine

open Sys2Proof

def exec (i : Instr) (s : State) : Host.Outcome State Fault Refusal :=
  match i with
  | .split16 => Sys2Proof.Machine.execSplit16 s
  | .split32 => Sys2Proof.Machine.execSplit32 s
  | .join16 => Sys2Proof.Machine.execJoin16 s
  | .join32 => Sys2Proof.Machine.execJoin32 s
  | .fieldSign16 => Sys2Proof.Machine.execFieldSign16 s
  | .fieldExp16 => Sys2Proof.Machine.execFieldExp16 s
  | .fieldMant16 => Sys2Proof.Machine.execFieldMant16 s
  | .fieldSign32 => Sys2Proof.Machine.execFieldSign32 s
  | .fieldExp32 => Sys2Proof.Machine.execFieldExp32 s
  | .fieldMant32 => Sys2Proof.Machine.execFieldMant32 s
  | .forward16 => Sys2Proof.Machine.execForward16 s
  | .forward32 => Sys2Proof.Machine.execForward32 s
  | .inverse16 => Sys2Proof.Machine.execInverse16 s
  | .inverse32 => Sys2Proof.Machine.execInverse32 s

end Sys2Proof.Machine
end

