-- ==== Sys2Proof/Machine/Race.lean ====
section
/-! DEFINITION. Host memory accesses, and what they mean while a buffer command's regions are its own: the races of 20_memory
R63. A command owns its regions from its acceptance until a STATUS read returns BUSY = 0, which may be after its end
(70_reset_and_hazards R176). The host's writes into them go to memory and are noted in Running.hostWrites. A racing read draws its
value at once. A write that races with a running command is settled, by a draw for each byte it reaches, when the command ends (log 8: DEDUCED);
one that comes after the end is settled at once (log 25: DEDUCED). -/

namespace Sys2Proof.Machine

open Sys2Proof.Config

/-- What the host wrote to an address of the regions while the command ran, newest first. -/
def hostValues (r : Running) (a : Nat) : List Byte :=
  (r.hostWrites.filter (fun c => decide (c.1 = a))).map (fun c => c.2)

/-- Every value a byte has held, but for the engine's own writes, since the command was accepted. -/
def heldValues (r : Running) (a : Nat) : List Byte := hostValues r a ++ [readByte r.before a]

/-- The values a destination byte may end with: any value its source byte held (20_memory R63 (b)), and what the
host wrote to it (R63 (c)). Without a race this is the one final value of the command's rule. -/
def finalValues (r : Running) (d : Nat) : List Byte :=
  (pairsWriting r d).flatMap (fun t => heldValues r (pairSrc r t)) ++ hostValues r d

/-- An address the running command writes. -/
def isDestination (r : Running) (a : Nat) : Bool := !(pairsWriting r a).isEmpty

/-- An address the running command reads. -/
def isSource (r : Running) (a : Nat) : Bool := !(pairsReading r a).isEmpty

/-- The destination bytes that a host write to an address races with: the byte itself, or the bytes that depend on the
source byte written (20_memory R63 (b), (c)). -/
def racedBy (r : Running) (a : Nat) : List Nat :=
  if isDestination r a then [a] else (pairsReading r a).map (pairDst r)

/-- The destination bytes that the host's writes have raced with. -/
def racedBytes (r : Running) : List Nat := r.hostWrites.flatMap (fun c => racedBy r c.1)

/-- Settle one raced byte. A command cut short by a bus error or a reset may also leave the value from before it
(60_exceptions R146 (a), 70_reset_and_hazards R171). On a platform that is not coherent too the byte takes one of R63's
values, over whatever the engine's drawn read (20_memory R67) left there (log 26: DESIGN CHOICE). -/
def settleByte (cutShort : Bool) (r : Running) (s : State) (d : Nat) : State :=
  let old := readByte r.before d
  let values := if cutShort then old :: finalValues r d else finalValues r d
  match values with
  | [] => s
  | c :: cs => (s.setMem (writeByte s.mem d (choose (drawAt s 0) c cs))).addDraws 1

/-- Settle every raced byte; without a race, nothing. -/
def settleRaces (cutShort : Bool) (r : Running) (s : State) : State :=
  (racedBytes r).foldl (settleByte cutShort r) s

/-- The commands that own their regions: the running one, and those whose end no STATUS read has shown the host
(70_reset_and_hazards R176, 20_memory R68). -/
def owners (s : State) : List Running := s.run.toList ++ s.unseen

/-- A host write noted by a command whose regions it falls in. -/
def noteWrite (a : Nat) (v : Byte) (r : Running) : Running :=
  if isDestination r a || isSource r a then { r with hostWrites := (a, v) :: r.hostWrites } else r

/-- A byte of memory takes a value that no engine wrote, noted by every command it may race with. -/
def putByte (a : Nat) (v : Byte) (s : State) : State :=
  ((s.setMem (writeByte s.mem a v)).setRun (s.run.map (noteWrite a v))).setUnseen (s.unseen.map (noteWrite a v))

/-- The destination bytes that a host write to an address races with in commands that have ended and are not seen to have, each once. -/
def lateBytes (a : Nat) (s : State) : List Nat := (s.unseen.flatMap (fun r => racedBy r a)).dedup

/-- The values of 20_memory R63 for a byte that such a write races with; with several commands, those of all of them (log 28: DESIGN CHOICE). -/
def lateValues (a : Nat) (s : State) (d : Nat) : List Byte :=
  s.unseen.flatMap (fun r => if d ∈ racedBy r a then finalValues r d else [])

/-- Settle one byte that a write after a command's end has raced with: it keeps the value it had in memory m, or takes one of the given
values of 20_memory R63, as a draw (70_reset_and_hazards R176; log 25: DEDUCED), whether the platform is coherent or not (log 26: DESIGN CHOICE). -/
def settleLate (m : List Host.Cell) (values : Nat → List Byte) (s : State) (d : Nat) : State :=
  (putByte d (choose (drawAt s 0) (readByte m d) (values d)) s).addDraws 1

/-- A host write of one byte. A running command whose regions it falls in notes it, to be settled at its end (20_memory R63 (b), (c)).
Where it races with commands that have ended, and whose end no STATUS read has shown, each byte it reaches is settled at once
(70_reset_and_hazards R176), one that several commands own by one draw among the values of all their races (log 28: DESIGN CHOICE). Outside all
their regions it is a plain write. -/
def hostMemWrite (a : Nat) (v : Byte) (s : State) : State :=
  let t := putByte a v s
  (lateBytes a t).foldl (settleLate s.mem (lateValues a t)) t

/-- The values a host read of a byte may return while some command owns it as a destination: the one from before that command and its
final values (20_memory R63 (a)); with several commands, those of all of them (log 28: DESIGN CHOICE). -/
def racedReadValues (a : Nat) (s : State) : List Byte :=
  (owners s).flatMap (fun r => if isDestination r a then readByte r.before a :: finalValues r a else [])

/-- A host read of one byte. A destination byte of a command that owns its regions gives a draw among the values of R63 (a); any other
gives what memory holds. On a platform that is not coherent every read is a draw (20_memory R67; log 14: DESIGN CHOICE). -/
def hostMemRead (a : Nat) (s : State) : State :=
  if s.platform.memCoherent = false then
    (s.setReply (.byte (BitVec.ofNat 8 (drawAt s 0)))).addDraws 1
  else
    match racedReadValues a s with
    | [] => s.setReply (.byte (readByte s.mem a))
    | c :: cs => (s.setReply (.byte (choose (drawAt s 0) c cs))).addDraws 1

end Sys2Proof.Machine
end

