-- ==== Sys2Proof/Machine/Engine.lean ====
section
/-! DEFINITION. The engine's steps (42_transform_engine R126 to R129), its bus error (60_exceptions R146) and the two
paths through a buffer (R127). -/

namespace Sys2Proof.Machine

open Sys2Proof.Config

/-- Add a pair to L.done, keeping it strictly rising. -/
def addPair : List Nat → Nat → List Nat
  | [], t => [t]
  | u :: l, t => if t < u then t :: u :: l else if t = u then u :: l else u :: addPair l t

/-- The j-th pair, counted from 0, that is not in a strictly rising list. -/
def freePair : List Nat → Nat → Nat
  | [], j => j
  | u :: l, j => if u ≤ j then freePair l (j + 1) else j

/-- What the model keeps of a command after its end, for the races of 70_reset_and_hazards R176: L.done and L.path are gone
(10_state R36). -/
def forget (r : Running) : Running := { r with done := [], path := .scalar }

/-- The hidden state of a command that ends is discarded (10_state R36); the model notes that no STATUS read has shown its end
yet (70_reset_and_hazards R176; log 25: DEDUCED). -/
def retire (r : Running) (s : State) : State := (s.setRun none).setUnseen (forget r :: s.unseen)

/-- A normal end: races are settled, the hidden state is discarded and STATUS says done (42_transform_engine R129). -/
def endCommand (r : Running) (s : State) : State := (retire r (settleRaces false r s)).setStatus statusDone

/-- The address a pair accesses in a direction: its source read, or its destination written. -/
def pairAccess (r : Running) (t : Nat) : Dir → Nat
  | .read => pairSrc r t
  | .write => pairDst r t

/-- The direction a free value stands for. -/
def drawnDir (n : Nat) : Dir := if n % 2 = 0 then .read else .write

/-- The access a bus error reports, given the one the engine found and two free values: any access of the command's pairs
that the port refuses, a draw among them all (60_exceptions R146 (b); log 9: DEDUCED). The free values name a pair and a direction;
where those are no refused access, the one found is reported. -/
def reportedAccess (p : Platform) (r : Running) (n m : Nat) (found : Nat × Dir) : Nat × Dir :=
  let t := n % pairTotal r
  let d := drawnDir m
  if t < pairTotal r ∧ portAdmits p (pairAccess r t d) d = false then (pairAccess r t d, d) else found

/-- BusError, on a refused access the engine has found: ERRADDR and STATUS record the refused access that is reported and the hidden
state is discarded (60_exceptions R146). The pairs transferred before it keep their final values, the others their old
ones (log 9: DEDUCED). -/
def raiseBusError (a : Nat) (d : Dir) (r : Running) (s : State) : State :=
  let report := reportedAccess s.platform r (drawAt s 0) (drawAt s 1) (a, d)
  retire r (((settleRaces true r (s.addDraws 2)).setErrAddr (BitVec.ofNat 32 report.1)).setStatus (statusBusError report.2))

/-- The byte the engine reads: memory's, or a draw on a platform that is not coherent (20_memory R67; log 14: DESIGN CHOICE). -/
def engineRead (a : Nat) (s : State) : Byte :=
  if s.platform.memCoherent then readByte s.mem a else BitVec.ofNat 8 (drawAt s 0)

/-- Write the destination byte of a pair and add the pair to L.done; the command ends when all are there
(42_transform_engine R126, R129). -/
def completePair (t : Nat) (v : Byte) (r : Running) (s : State) : State :=
  let r' := { r with done := addPair r.done t }
  let s' := ((s.setMem (writeByte s.mem (pairDst r t) v)).setRun (some r')).addDraws 1
  if r'.done.length = pairTotal r' then endCommand r' s' else s'

/-- The engine's step for a chosen pair (42_transform_engine R126). An address outside the space is a fault: no command
accepted by R120 has one (20_memory R58; log 15: DESIGN CHOICE). -/
def transferPair (t : Nat) (r : Running) (s : State) : Host.Outcome State Fault Refusal :=
  if spaceSize ≤ pairSrc r t then .fault (.addressOutsideSpace (pairSrc r t))
  else if portAdmits s.platform (pairSrc r t) .read = false then .next (raiseBusError (pairSrc r t) .read r s)
  else if spaceSize ≤ pairDst r t then .fault (.addressOutsideSpace (pairDst r t))
  else if portAdmits s.platform (pairDst r t) .write = false then .next (raiseBusError (pairDst r t) .write r s)
  else .next (completePair t (engineRead (pairSrc r t) s) r s)

/-- The pair an engine step picks: any that is not in L.done, by a free value (42_transform_engine R126). -/
def pickPair (r : Running) (s : State) : Nat :=
  freePair r.done (drawAt s 0 % (pairTotal r - r.done.length))

/-- One step of the engine. With no command running it has nothing to do. A command with no pair left ends (R129); only
states no run reaches hold one. -/
def engineStep (s : State) : Host.Outcome State Fault Refusal :=
  match s.run with
  | none => .next s
  | some r =>
    if pairTotal r ≤ r.done.length then .next (endCommand r s)
    else transferPair (pickPair r s) r (s.addDraws 1)

/-! The two paths (42_transform_engine R127). No step follows a path: each is one of the orders R126 admits, and the
model's free choice of pair covers both. They are here so that their equivalence can be stated (log 21: DESIGN CHOICE). -/

/-- The pairs of element i, plane after plane. -/
def elementPairs (r : Running) (i : Nat) : List Nat :=
  (List.range (planeCount r.dt)).map (fun p => pairNumber r i p)

/-- The scalar path: the elements from `from_` on, one at a time. -/
def scalarFrom (r : Running) (from_ : Nat) : List Nat :=
  (List.range (r.count.toNat - from_)).flatMap (fun j => elementPairs r (from_ + j))

/-- One chunk of the vectorized path: `width` elements, plane after plane. -/
def chunkPairs (r : Running) (width c : Nat) : List Nat :=
  (List.range (planeCount r.dt)).flatMap (fun p =>
    (List.range width).map (fun j => pairNumber r (c * width + j) p))

/-- The vectorized path: `floor(n / VLEN)` chunks, then the remainder elements through the scalar path. -/
def vectorizedOrder (r : Running) (width : Nat) : List Nat :=
  (List.range (r.count.toNat / width)).flatMap (chunkPairs r width) ++
    scalarFrom r (r.count.toNat / width * width)

/-- The order of transfers a path stands for. -/
def pathOrder (p : Platform) (r : Running) : List Nat :=
  match r.path with
  | .vectorized => vectorizedOrder r p.vlen.toNat
  | .scalar => scalarFrom r 0

/-- Run the engine through given pairs, for as long as a command runs. -/
def runPairs : List Nat → State → Host.Outcome State Fault Refusal
  | [], s => .next s
  | t :: ts, s =>
    match s.run with
    | none => .next s
    | some r =>
      match transferPair t r s with
      | .next s' => runPairs ts s'
      | .fault f => .fault f
      | .refused f => .refused f

end Sys2Proof.Machine
end

