-- ==== Sys2Proof/Machine/HostAccess.lean ====
section
/-! DEFINITION. The host's steps: register accesses through the window (10_state R21 to R24), the polling loop
(30_encoding R79), memory accesses and reset; and which agent takes the next step. -/

namespace Sys2Proof.Machine

open Sys2Proof.Config

/-- A host access to the register window, if it is one the spec defines: 32 bits wide, at a multiple of 4, while reset is
not asserted (10_state R21, 70_reset_and_hazards R174). Any other is refused. -/
def windowAccess (offset : BitVec 8) (width : Width) (s : State)
    (access : State → Host.Outcome State Fault Refusal) : Host.Outcome State Fault Refusal :=
  if s.inReset then .refused .accessDuringReset
  else if width ≠ .word then .refused .registerAccessNotWord
  else if offset.toNat % 4 ≠ 0 then .refused .registerAccessMisaligned
  else access s

/-- A host memory access, one byte wide; at an address of the register window it would be a register access of
one byte, which is refused (10_state R21; log 24: DEDUCED). Elsewhere it is a plain access, at an address that Admit refuses as well: 20_memory
R50 leaves open what the host meets there (log 27: DESIGN CHOICE). -/
def memoryAccess (a : Word) (s : State) (access : State → State) : Host.Outcome State Fault Refusal :=
  if inRegion (window s.platform) a.toNat then
    if s.inReset then .refused .accessDuringReset else .refused .registerAccessNotWord
  else .next (access s)

/-- A write of a word to CMD: decoded and run (10_state R24, 30_encoding R78). While BUSY = 1, exec and rejectWord
ignore it (60_exceptions R150). -/
def writeCmd (w : Word) (s : State) : Host.Outcome State Fault Refusal :=
  match decode w with
  | .ok i => exec i s
  | .error c => rejectWord w c s

/-- A write of a register: CMD starts a command, any other stores its value or ignores it (10_state R22 to R35). -/
def registerWrite (offset : BitVec 8) (v : Word) (s : State) : Host.Outcome State Fault Refusal :=
  if offset = 0 then writeCmd v s else .next (writeRegister s offset v)

/-- A read of a register. A read of STATUS that returns BUSY = 0 shows the host the end of every command before it, and their regions are
the host's again (20_memory R64, 70_reset_and_hazards R176; log 25: DEDUCED). -/
def hostRegRead (offset : BitVec 8) (s : State) : State :=
  let t := s.setReply (.word (readRegister s offset))
  if offset = 0x04 ∧ busy s = false then t.setUnseen [] else t

/-- One turn of `L: rd STATUS -> s; if s[0] == 1 goto L`: the loop stays in the program while BUSY = 1 (30_encoding R79; log 10: DEDUCED). -/
def pollStatus (s : State) : State :=
  let t := hostRegRead 0x04 s
  if busy s then t.setProgram (.wait :: s.program) else t

/-- Reset is asserted: a running command is abandoned, and every register takes its reset value (70_reset_and_hazards R170, R171; log 23: DEDUCED). -/
def assertReset (s : State) : State :=
  let t := match s.run with
    | none => s
    | some r => settleRaces true r s
  { resetRegisters t with inReset := true }

/-- Reset is released: the registers have their reset values, HWCFG.CAP as R172 says (70_reset_and_hazards R170, R172, R173). -/
def releaseReset (s : State) : State :=
  if s.inReset then { resetRegisters s with inReset := false } else s

/-- The host carries out one operation, already taken from its program. -/
def hostStep (op : HostOp) (s : State) : Host.Outcome State Fault Refusal :=
  match op with
  | .regRead offset width => windowAccess offset width s (fun t => .next (hostRegRead offset t))
  | .regWrite offset width v => windowAccess offset width s (registerWrite offset v)
  | .wait => windowAccess 0x04 .word s (fun t => .next (pollStatus t))
  | .memRead a => memoryAccess a s (hostMemRead a.toNat)
  | .memWrite a v => memoryAccess a s (hostMemWrite a.toNat v)
  | .assertReset => .next (assertReset s)
  | .releaseReset => .next (releaseReset s)

/-- The agent that takes the next step: the schedule's first; with no schedule left, the engine while a command runs and
otherwise the host (42_transform_engine R126, R130; log 5: DESIGN CHOICE). -/
def nextAgent (s : State) : Agent :=
  match s.schedule with
  | a :: _ => a
  | [] => if s.run.isSome then .engine else .host

/-- One step of the host and BPD together. A host with nothing left to do changes nothing (60_exceptions R157). -/
def takeTurn (s : State) : Host.Outcome State Fault Refusal :=
  let t := s.setSchedule s.schedule.tail
  match nextAgent s with
  | .engine => engineStep t
  | .host =>
    match t.program with
    | [] => .next t
    | op :: rest => hostStep op (t.setProgram rest)

end Sys2Proof.Machine
end

