-- ==== Sys2Proof/Machine/Step.lean ====
section
/-! DEFINITION. step, and the state whose next step runs a given command word. -/

namespace Sys2Proof.Machine

/-- One step of the machine: one agent moves (00_scope R4); steps have no duration (log 16: DESIGN CHOICE). -/
def step (s : State) : Host.Outcome State Fault Refusal := takeTurn s

/-- s with the write of a command word to CMD as the host's very next operation: the host moves next, reset is released,
and the word, with the bits above nbits 0, is the value it writes at offset 0 (30_encoding R70; log 4: DESIGN CHOICE). -/
def State.withFetchWord (s : State) (nbits w : Nat) : State :=
  { s with
    program := .regWrite 0 .word (BitVec.ofNat 32 (w % 2 ^ nbits)) :: s.program
    schedule := .host :: s.schedule
    inReset := false }

end Sys2Proof.Machine
end

