-- ==== Sys2Proof/Safety.lean ====
section
/-! DEFINITION. What the claims speak of: the invariant of the machine, the duties of the host (20_memory R68), and the
facts a claim about a running command needs of the platform. -/

namespace Sys2Proof.Machine

open Sys2Proof.Config

/-- The values STATUS can hold (10_state R26, 60_exceptions R144). -/
def statusValues : List Word :=
  [0x000, 0x001, 0x002, 0x112, 0x212, 0x312, 0x412, 0x512, 0x612, 0x712, 0x122, 0x222]

/-- The regions of a running command, E first. -/
def runningRegions (r : Running) : List Region := latchedElem r :: latchedPlanes r

/-- The regions of a running command are apart as its command asks (42_transform_engine R120). -/
def regionsApart (r : Running) : Bool :=
  match r.op with
  | .forward => !anyIntersect (runningRegions r)
  | .inverse => !(latchedPlanes r).any (intersects (latchedElem r))

/-- The operands of a running command are what R120 accepts: some elements, k plane addresses, regions inside the address space,
apart, and off the register window and memory with read side effects. -/
def operandsOk (p : Platform) (r : Running) : Bool :=
  decide (0 < r.count.toNat) && decide (r.pb.length = planeCount r.dt)
    && (runningRegions r).all (fun q => decide (regionEnd q ≤ spaceSize)) && regionsApart r
    && (runningRegions r).all (fun q => !intersects (window p) q)
    && (runningRegions r).all (fun q => !p.devices.any (intersects q))

/-- L.done is a set of pairs of the command, in canonical form, and not all of them (42_transform_engine R126). -/
def progressOk (r : Running) : Bool :=
  decide (r.done.Pairwise (fun t u => t < u)) && r.done.all (fun t => decide (t < pairTotal r))
    && decide (r.done.length < pairTotal r)

/-- The bookkeeping of 20_memory R63 is in order. -/
def racesOk (r : Running) : Bool :=
  Memory.wf r.before && r.hostWrites.all (fun c => isDestination r c.1 || isSource r c.1)

/-- The hidden state of a running command is in order. -/
def runningOk (p : Platform) (r : Running) : Bool := operandsOk p r && progressOk r && racesOk r

/-- The operands of a command that has ended, and its bookkeeping of 20_memory R63, are in order. -/
def endedOk (p : Platform) (r : Running) : Bool := operandsOk p r && racesOk r

/-- The invariant of the machine: memory is in canonical form; STATUS holds one of its legal values; BUSY = 1 exactly while there is
hidden state (10_state R36); that hidden state is in order, and so are the commands not seen to have ended; CAP is what reset latched (R25); and while reset is asserted every
register has its reset value (70_reset_and_hazards R170). -/
def State.Inv (s : State) : Prop :=
  Memory.wf s.mem = true ∧ s.status ∈ statusValues ∧ busy s = s.run.isSome ∧ s.run.all (runningOk s.platform) = true
    ∧ s.unseen.all (endedOk s.platform) = true
    ∧ s.cap = capAtReset s.platform ∧ (s.inReset = true → resetRegisters s = s)

/-- The host has written into no region of a command that owns it (20_memory R68, 70_reset_and_hazards R176). -/
def noRace (s : State) : Bool := (owners s).all (fun r => r.hostWrites.isEmpty)

/-- A host operation that keeps the duties of 20_memory R68 and 70_reset_and_hazards R175, R176, each from the CMD write of a buffer
command until a STATUS read returns BUSY = 0: no CMD write, no write of the command's source, no access to its destination. A command
of COUNT = 0 ends in the step of its CMD write and hands over nothing, so it owes no read (R179; log 25: DEDUCED). -/
def hostConforms (s : State) : HostOp → Bool
  | .regRead _ _ => true
  | .regWrite offset _ _ => !decide (offset = 0) || (!busy s && s.unseen.isEmpty)
  | .wait => true
  | .memRead a => (owners s).all (fun r => !isDestination r a.toNat)
  | .memWrite a _ => (owners s).all (fun r => !isDestination r a.toNat && !isSource r a.toNat)
  | .assertReset => true
  | .releaseReset => true

/-- The port admits every access of the pairs of a command. -/
def allAdmitted (p : Platform) (r : Running) : Prop :=
  ∀ t, t < pairTotal r → portAdmits p (pairSrc r t) .read = true ∧ portAdmits p (pairDst r t) .write = true

/-- The command of a direction and a dtype (30_encoding R76). -/
def bufferCommand : BufferOp → DType → Instr
  | .forward, .dtype16 => .forward16
  | .forward, .dtype32 => .forward32
  | .inverse, .dtype16 => .inverse16
  | .inverse, .dtype32 => .inverse32

/-- n steps of the machine, stopping at the first fault or refusal. -/
def steps : Nat → State → Host.Outcome State Fault Refusal
  | 0, s => .next s
  | n + 1, s =>
    match step s with
    | .next t => steps n t
    | .fault f => .fault f
    | .refused f => .refused f

/-- The host moves next and its next operation is op. -/
def aboutTo (op : HostOp) (s : State) : Prop := nextAgent s = .host ∧ s.program.head? = some op

/-- s with the turn taken from its schedule. -/
def turnTaken (s : State) : State := { s with schedule := s.schedule.tail }

/-- s with the turn taken from its schedule and the host's next operation taken from its program. -/
def popped (s : State) : State := { s with schedule := s.schedule.tail, program := s.program.tail }

/-- Two regions share at least one address (42_transform_engine R121). -/
def shareAddress (r q : Region) : Prop :=
  ∃ a, r.base ≤ a ∧ a < r.base + r.len ∧ q.base ≤ a ∧ a < q.base + q.len

/-- The regions of a command not yet accepted are apart as the command asks: FORWARD all of them, INVERSE E from every plane
(42_transform_engine R120). -/
def commandApart (op : BufferOp) (d : DType) (s : State) : Prop :=
  match op with
  | .forward => (commandRegions d s).Pairwise (fun q r => ¬ shareAddress q r)
  | .inverse => ∀ q ∈ planeRegions d s, ¬ shareAddress (elemRegion s) q

/-- Every region of a command not yet accepted ends at or below 2^32 (20_memory R58). -/
def commandFits (d : DType) (s : State) : Prop := ∀ q ∈ commandRegions d s, q.base + q.len ≤ 2 ^ 32

/-- No region of a command meets the register window (20_memory R51) or memory with read side effects (R57). -/
def commandOnPlainMemory (d : DType) (s : State) : Prop :=
  ∀ q ∈ commandRegions d s, ¬ shareAddress (window s.platform) q ∧ ∀ v ∈ s.platform.devices, ¬ shareAddress q v

/-- The element commands: SPLIT, JOIN and FIELD (30_encoding R73). -/
def isElementCommand : Instr → Bool
  | .split16 | .split32 | .join16 | .join32 => true
  | .fieldSign16 | .fieldExp16 | .fieldMant16 | .fieldSign32 | .fieldExp32 | .fieldMant32 => true
  | .forward16 | .forward32 | .inverse16 | .inverse32 => false

/-- Element i of the element buffer at a base address, B bytes little-endian (20_memory R52). -/
def elemAt (m : List Host.Cell) (base bytes i : Nat) : Nat :=
  (List.range bytes).foldr (fun j v => (readByte m (base + i * bytes + j)).toNat * 2 ^ (8 * j) + v) 0

/-- The bytes that planes at given addresses hold for element i, packed as PLANES packs them (10_state R29). -/
def planeBytesAt (m : List Host.Cell) (bases : List Word) (i : Nat) : Nat :=
  bases.foldr (fun b v => (readByte m (b.toNat + i)).toNat + 256 * v) 0

/-- s with everything of the two paths and of the parameters that choose between them (CAP, VLEN, VMIN, cap_in, L.path) replaced
by fixed values (42_transform_engine R127). -/
def erasePath (s : State) : State :=
  { s with
    cap := false
    run := s.run.map (fun r => { r with path := .scalar })
    platform := { s.platform with vlen := 0, vminLessOne := 0, capIn := false } }

/-- Two outcomes are the same once the path is erased. -/
def sameButPath : Host.Outcome State Fault Refusal → Host.Outcome State Fault Refusal → Prop
  | .next s, .next t => erasePath s = erasePath t
  | .fault f, .fault g => f = g
  | .refused f, .refused g => f = g
  | _, _ => False

end Sys2Proof.Machine
end

