-- ==== Sys2Proof/Certificates/Slice0/Obligations.lean ====
section
/-! DEFINITION. The statements for the provers. Each docstring names the rules of spec/ it formalises. -/

open Sys2Proof Sys2Proof.Machine Sys2Proof.Config

/-! ## Encoding -/

/-- 30_encoding R76: the 14 words, and that a word decodes to a command exactly when it is that command's word. -/
def Obligations.CommandWordsAreExact : Prop :=
  (∀ (w : Word) (i : Instr), decode w = .ok i ↔ w = encode i)
    ∧ encode .split16 = 0x00000011 ∧ encode .split32 = 0x00000021
    ∧ encode .join16 = 0x00000012 ∧ encode .join32 = 0x00000022
    ∧ encode .fieldSign16 = 0x00000013 ∧ encode .fieldExp16 = 0x00000053 ∧ encode .fieldMant16 = 0x00000093
    ∧ encode .fieldSign32 = 0x00000023 ∧ encode .fieldExp32 = 0x00000063 ∧ encode .fieldMant32 = 0x000000A3
    ∧ encode .forward16 = 0x00000014 ∧ encode .forward32 = 0x00000024
    ∧ encode .inverse16 = 0x00000015 ∧ encode .inverse32 = 0x00000025

/-- 30_encoding R78: the checks in their order, on the fields as numbers, and what then runs. -/
def Obligations.DecodeReportsTheFirstCheck : Prop :=
  ∀ w : Word,
    let op := w.toNat % 16
    let dt := w.toNat / 16 % 4
    let fld := w.toNat / 64 % 4
    let rsvd := w.toNat / 256
    ((op = 0 ∨ 5 < op) → decode w = .error .badOp)
      ∧ (1 ≤ op ∧ op ≤ 5 → rsvd ≠ 0 ∨ (op ≠ 3 ∧ fld ≠ 0) → decode w = .error .rsvdBits)
      ∧ (1 ≤ op ∧ op ≤ 5 → rsvd = 0 → (op = 3 ∨ fld = 0) → dt = 0 ∨ dt = 3 → decode w = .error .badDtype)
      ∧ (op = 3 → rsvd = 0 → dt = 1 ∨ dt = 2 → fld = 3 → decode w = .error .badField)
      ∧ (1 ≤ op ∧ op ≤ 5 → rsvd = 0 → dt = 1 ∨ dt = 2 → (op = 3 ∧ fld ≠ 3) ∨ (op ≠ 3 ∧ fld = 0) →
          ∃ i, decode w = .ok i ∧ encode i = w ∧ ∀ s : State, aboutTo (.regWrite 0 .word w) s → s.inReset = false → busy s = false →
            step s = exec i (popped s))

/-- The words of 95_test_vectors 2.1, read bit by bit from 30_encoding R71 to R74. -/
def Obligations.ListedWordsDecode : Prop :=
  decode 0x00000011 = .ok .split16 ∧ decode 0x00000022 = .ok .join32 ∧ decode 0x00000093 = .ok .fieldMant16
    ∧ decode 0x00000063 = .ok .fieldExp32 ∧ decode 0x00000024 = .ok .forward32 ∧ decode 0x00000015 = .ok .inverse16
    ∧ decode 0x00000106 = .error .badOp ∧ decode 0x80000021 = .error .rsvdBits ∧ decode 0x000000E4 = .error .rsvdBits
    ∧ decode 0x000000C3 = .error .badDtype ∧ decode 0x000000D3 = .error .badField

/-! ## Steps -/

/-- When the host's next operation writes a command's word to CMD, step is exec of that command, after the turn and the
operation are taken. -/
def Obligations.StepRunsTheDecodedCommand : Prop :=
  ∀ (s : State) (w : Word) (i : Instr), aboutTo (.regWrite 0 .word w) s → s.inReset = false → decode w = .ok i →
    step s = exec i (popped s)

/-- 10_state R24: a CMD write while idle stores the word, even a rejected one, and runs it; while BUSY = 1 it is ignored; nothing else but
reset changes CMD, so that a read gives the last word stored or the reset value; the reset value is 0 and is not run. -/
def Obligations.CmdWriteIsGatedByBusy : Prop :=
  (∀ (s t : State) (w : Word), aboutTo (.regWrite 0 .word w) s → s.inReset = false → busy s = false →
      step s = .next t → t.cmd = w)
    ∧ (∀ (s : State) (w : Word), aboutTo (.regWrite 0 .word w) s → s.inReset = false → busy s = false →
        step s = (match decode w with
          | .ok i => exec i (popped s)
          | .error c => .next { popped s with cmd := w, status := statusInvalidInput c }))
    ∧ (∀ (s : State) (w : Word), aboutTo (.regWrite 0 .word w) s → s.inReset = false → busy s = true →
        step s = .next (popped s))
    ∧ (∀ s : State, aboutTo (.regRead 0 .word) s → s.inReset = false →
        step s = .next { popped s with reply := some (.word s.cmd) })
    ∧ (∀ s t : State, step s = .next t → t.cmd ≠ s.cmd →
        (aboutTo (.regWrite 0 .word t.cmd) s ∧ busy s = false)
          ∨ ((aboutTo .assertReset s ∨ aboutTo .releaseReset s) ∧ t.cmd = 0x00000000))
    ∧ State.reset.cmd = 0x00000000 ∧ decode 0x00000000 = .error .badOp
    ∧ State.reset.status = 0x00000000 ∧ State.reset.run = none

/-- 60_exceptions R143: an InvalidInput, from decode or from the operand checks, writes CMD and STATUS and nothing else. -/
def Obligations.InvalidInputChangesOnlyCmdAndStatus : Prop :=
  let code : Cause → Nat := fun c =>
    match c with
    | .badOp => 1 | .rsvdBits => 2 | .badDtype => 3 | .badField => 4 | .lenMismatch => 5 | .range => 6 | .overlap => 7
  (∀ (s : State) (w : Word) (c : Cause), aboutTo (.regWrite 0 .word w) s → s.inReset = false → busy s = false →
      decode w = .error c →
      step s = .next { popped s with cmd := w, status := BitVec.ofNat 32 (0x12 + 256 * code c) })
    ∧ (∀ (s : State) (op : BufferOp) (d : DType) (c : Cause), busy s = false → operandCheck op d s = some c →
      exec (bufferCommand op d) s =
        .next { s with cmd := encode (bufferCommand op d), status := BitVec.ofNat 32 (0x12 + 256 * code c) })

/-- 30_encoding R77: a word that is no command's is InvalidInput with the cause decode picks, and does nothing else. -/
def Obligations.OtherWordsAreInvalid : Prop :=
  (∀ w : Word, (∀ i, w ≠ encode i) → ∃ c, decode w = .error c
      ∧ ∀ s : State, aboutTo (.regWrite 0 .word w) s → s.inReset = false → busy s = false →
        step s = .next { popped s with cmd := w, status := statusInvalidInput c })
    ∧ decode 0x00000000 = .error .badOp

/-- 60_exceptions R150: a command is ignored while BUSY = 1. -/
def Obligations.CommandsWaitForIdle : Prop :=
  ∀ (i : Instr) (s : State), busy s = true → exec i s = .next s

/-- 60_exceptions R157, 20_memory R50, 30_encoding R79: a host with nothing to do, and the engine with no command running, change no register and no byte of
memory; and `wait` repeats while BUSY = 1; once it reads BUSY = 0 no command owns its regions any more (70_reset_and_hazards R176, in the model's form of log 25: DEDUCED). -/
def Obligations.IdleAndWaitingKeepTheRegisters : Prop :=
  (∀ s : State, nextAgent s = .host → s.program = [] → step s = .next (turnTaken s))
    ∧ (∀ s : State, nextAgent s = .engine → s.run = none → step s = .next (turnTaken s))
    ∧ (∀ s : State, aboutTo .wait s → s.inReset = false → busy s = true →
        step s = .next { turnTaken s with reply := some (.word s.status) })
    ∧ (∀ s : State, aboutTo .wait s → s.inReset = false → busy s = false →
        step s = .next { popped s with reply := some (.word s.status), unseen := [] })

/-! ## Element commands -/

/-- 40_element_codec R102, R103. -/
def Obligations.SplitWritesThePlaneBytes : Prop :=
  decode 0x00000011 = .ok .split16 ∧ decode 0x00000021 = .ok .split32 ∧ ∀ s : State, busy s = false →
    exec .split16 s = .next { s with
      cmd := 0x00000011, planes := BitVec.ofNat 32 (s.elem.toNat % 2 ^ 16), status := 0x00000002 }
    ∧ exec .split32 s = .next { s with cmd := 0x00000021, planes := s.elem, status := 0x00000002 }

/-- 40_element_codec R104, R105. -/
def Obligations.JoinRebuildsTheElement : Prop :=
  decode 0x00000012 = .ok .join16 ∧ decode 0x00000022 = .ok .join32 ∧ ∀ s : State, busy s = false →
    exec .join16 s = .next { s with
      cmd := 0x00000012, result := BitVec.ofNat 32 (s.planes.toNat % 2 ^ 16), status := 0x00000002 }
    ∧ exec .join32 s = .next { s with cmd := 0x00000022, result := s.planes, status := 0x00000002 }

/-- 40_element_codec R100: plane p of SPLIT's result is byte p of the element. -/
def Obligations.PlaneIsTheByteAtItsOffset : Prop :=
  ∀ (s t : State) (p : Nat), busy s = false →
    (exec .split16 s = .next t → p < 2 → t.planes.toNat / 256 ^ p % 256 = s.elem.toNat / 256 ^ p % 256)
    ∧ (exec .split16 s = .next t → t.planes.toNat / 256 ^ 2 = 0)
    ∧ (exec .split32 s = .next t → p < 4 → t.planes.toNat / 256 ^ p % 256 = s.elem.toNat / 256 ^ p % 256)

/-- 41_field_extract R112 to R114, for both formats. -/
def Obligations.FieldsOfDtype16 : Prop :=
  decode 0x00000013 = .ok .fieldSign16 ∧ decode 0x00000053 = .ok .fieldExp16 ∧ decode 0x00000093 = .ok .fieldMant16
    ∧ ∀ s : State, busy s = false →
    let x := s.elem.toNat % 2 ^ 16
    exec .fieldSign16 s = .next { s with
      cmd := 0x00000013, result := BitVec.ofNat 32 (x / 2 ^ 15), status := 0x00000002 }
    ∧ exec .fieldExp16 s = .next { s with
      cmd := 0x00000053, status := 0x00000002
      result := match s.platform.f16Fmt with
        | .binary16 => BitVec.ofNat 32 (x / 2 ^ 10 % 2 ^ 5)
        | .bfloat16 => BitVec.ofNat 32 (x / 2 ^ 7 % 2 ^ 8) }
    ∧ exec .fieldMant16 s = .next { s with
      cmd := 0x00000093, status := 0x00000002
      result := match s.platform.f16Fmt with
        | .binary16 => BitVec.ofNat 32 (x % 2 ^ 10)
        | .bfloat16 => BitVec.ofNat 32 (x % 2 ^ 7) }

/-- 41_field_extract R115 to R117. -/
def Obligations.FieldsOfDtype32 : Prop :=
  decode 0x00000023 = .ok .fieldSign32 ∧ decode 0x00000063 = .ok .fieldExp32 ∧ decode 0x000000A3 = .ok .fieldMant32
    ∧ ∀ s : State, busy s = false →
    exec .fieldSign32 s = .next { s with
      cmd := 0x00000023, result := BitVec.ofNat 32 (s.elem.toNat / 2 ^ 31), status := 0x00000002 }
    ∧ exec .fieldExp32 s = .next { s with
      cmd := 0x00000063, result := BitVec.ofNat 32 (s.elem.toNat / 2 ^ 23 % 2 ^ 8), status := 0x00000002 }
    ∧ exec .fieldMant32 s = .next { s with
      cmd := 0x000000A3, result := BitVec.ofNat 32 (s.elem.toNat % 2 ^ 23), status := 0x00000002 }

/-- 41_field_extract R118, R111: the three fields concatenate back to the element, for each dtype and format. -/
def Obligations.FieldsPartitionTheElement : Prop :=
  ∀ s : State, busy s = false →
    (∃ a b c, exec .fieldSign32 s = .next a ∧ exec .fieldExp32 s = .next b ∧ exec .fieldMant32 s = .next c
      ∧ a.result.toNat * 2 ^ 31 + b.result.toNat * 2 ^ 23 + c.result.toNat = s.elem.toNat)
    ∧ (∃ a b c, exec .fieldSign16 s = .next a ∧ exec .fieldExp16 s = .next b ∧ exec .fieldMant16 s = .next c
      ∧ a.result.toNat * 2 ^ 15
          + b.result.toNat * (match s.platform.f16Fmt with | .binary16 => 2 ^ 10 | .bfloat16 => 2 ^ 7)
          + c.result.toNat = s.elem.toNat % 2 ^ 16)

/-- 40_element_codec R106: SPLIT then JOIN gives the element back, and JOIN, a write of RESULT to ELEM, then SPLIT gives the planes back. -/
def Obligations.ElementRoundTrip : Prop :=
  ∀ s : State, busy s = false →
    (∃ t u, exec .split16 s = .next t ∧ exec .join16 t = .next u ∧ u.result = (s.elem.setWidth 16).setWidth 32)
    ∧ (∃ t u, exec .split32 s = .next t ∧ exec .join32 t = .next u ∧ u.result = s.elem)
    ∧ (∃ t u v, exec .join16 s = .next t ∧ registerWrite 0x10 t.result t = .next u ∧ exec .split16 u = .next v
        ∧ v.planes.setWidth 16 = s.planes.setWidth 16)
    ∧ (∃ t u v, exec .join32 s = .next t ∧ registerWrite 0x10 t.result t = .next u ∧ exec .split32 u = .next v
        ∧ v.planes = s.planes)

/-- 40_element_codec R107, 41_field_extract R118: an element command writes only CMD, STATUS and PLANES (SPLIT) or RESULT (JOIN, FIELD), and
what it does depends on no memory and on none of COUNT, LEN, EBUF and PB0 to PB3. -/
def Obligations.ElementCommandsStayInTheirRegisters : Prop :=
  ∀ (i : Instr) (s t : State), isElementCommand i = true → exec i s = .next t →
    (t = { s with cmd := t.cmd, status := t.status, planes := t.planes, result := t.result })
    ∧ ((i = .split16 ∨ i = .split32) → t.result = s.result)
    ∧ (¬ (i = .split16 ∨ i = .split32) → t.planes = s.planes)
    ∧ ∀ (m : List Host.Cell) (c l e p0 p1 p2 p3 : Word),
        exec i { s with mem := m, count := c, len := l, ebuf := e, pb0 := p0, pb1 := p1, pb2 := p2, pb3 := p3 }
          = .next { t with mem := m, count := c, len := l, ebuf := e, pb0 := p0, pb1 := p1, pb2 := p2, pb3 := p3 }

/-! ## Buffer commands: the host step -/

/-- 42_transform_engine R121: the test of the intervals' ends is that of a shared address. -/
def Obligations.IntersectingRegionsShareAnAddress : Prop :=
  ∀ r q : Region,
    (intersects r q = true ↔ shareAddress r q)
    ∧ (shareAddress r q ↔ 0 < r.len ∧ 0 < q.len ∧ r.base < q.base + q.len ∧ q.base < r.base + r.len)

/-- 42_transform_engine R120, R142 (5) to (7): the operand checks in their order, each with its STATUS and nothing else changed. -/
def Obligations.OperandChecksInOrder : Prop :=
  ∀ (op : BufferOp) (d : DType) (s : State), busy s = false →
    let n := s.count.toNat
    let reject : Word → Host.Outcome State Fault Refusal := fun v =>
      .next { s with cmd := encode (bufferCommand op d), status := v }
    (n * elemBytes d ≠ s.len.toNat → exec (bufferCommand op d) s = reject 0x00000512)
    ∧ (n * elemBytes d = s.len.toNat → ¬ commandFits d s → exec (bufferCommand op d) s = reject 0x00000612)
    ∧ (n * elemBytes d = s.len.toNat → commandFits d s → ¬ commandApart op d s →
        exec (bufferCommand op d) s = reject 0x00000712)

/-- 42_transform_engine R120: an accepted command with COUNT > 0 latches its operands and sets BUSY, and writes nothing else. The model's own
bookkeeping of races starts with memory as it is and no host write (log 8: DEDUCED). -/
def Obligations.AcceptedCommandLatchesItsOperands : Prop :=
  ∀ (op : BufferOp) (d : DType) (s : State), busy s = false →
    s.count.toNat * elemBytes d = s.len.toNat → 0 < s.count.toNat → commandFits d s → commandApart op d s →
    commandOnPlainMemory d s →
    ∃ r : Running,
      exec (bufferCommand op d) s =
        .next { s with cmd := encode (bufferCommand op d), status := 0x00000001, run := some r }
      ∧ r.op = op ∧ r.dt = d ∧ r.count = s.count ∧ r.ebuf = s.ebuf ∧ r.done = []
      ∧ r.before = s.mem ∧ r.hostWrites = []
      ∧ r.pb = (match d with
          | .dtype16 => [s.pb0, s.pb1]
          | .dtype32 => [s.pb0, s.pb1, s.pb2, s.pb3])
      ∧ (r.path = .vectorized ↔
          s.cap = true ∧ 0 < s.platform.vlen.toNat ∧ s.platform.vminLessOne + 1 ≤ s.count.toNat)

/-- 42_transform_engine R128: COUNT = 0 with LEN = 0 ends at once, and with LEN ≠ 0 is LEN_MISMATCH. -/
def Obligations.CountZeroEndsAtOnce : Prop :=
  ∀ (op : BufferOp) (d : DType) (s : State), busy s = false → s.count = 0 →
    (s.len = 0 → exec (bufferCommand op d) s =
      .next { s with cmd := encode (bufferCommand op d), status := 0x00000002 })
    ∧ (s.len ≠ 0 → exec (bufferCommand op d) s =
      .next { s with cmd := encode (bufferCommand op d), status := 0x00000512 })

/-- 20_memory R51, R57: a command that passes the checks and reaches the register window or memory with read side effects is refused. -/
def Obligations.RegionsOffPlainMemoryAreRefused : Prop :=
  ∀ (op : BufferOp) (d : DType) (s : State), busy s = false →
    s.count.toNat * elemBytes d = s.len.toNat → 0 < s.count.toNat → commandFits d s → commandApart op d s →
    ((∃ q ∈ commandRegions d s, shareAddress (window s.platform) q) →
      exec (bufferCommand op d) s = .refused .regionOverWindow)
    ∧ ((∀ q ∈ commandRegions d s, ¬ shareAddress (window s.platform) q) →
      (∃ q ∈ commandRegions d s, ∃ v ∈ s.platform.devices, shareAddress q v) →
      exec (bufferCommand op d) s = .refused .regionWithSideEffects)

/-! ## Buffer commands: the engine -/

/-- 42_transform_engine R122 to R125: the two addresses of pair (i, p), for each direction and dtype. -/
def Obligations.PairAddressesOfEachCommand : Prop :=
  ∀ (r : Running) (i p : Nat), p < planeCount r.dt →
    (r.op = .forward →
      pairSrc r (pairNumber r i p) = r.ebuf.toNat + planeCount r.dt * i + p
      ∧ pairDst r (pairNumber r i p) = (r.pb.getD p 0).toNat + i)
    ∧ (r.op = .inverse →
      pairSrc r (pairNumber r i p) = (r.pb.getD p 0).toNat + i
      ∧ pairDst r (pairNumber r i p) = r.ebuf.toNat + planeCount r.dt * i + p)

/-- 42_transform_engine R126: an engine step transfers the pair that a free value picks, and the free value's range is that of the pairs that
are not in L.done: every one of them can be picked, and no other. -/
def Obligations.EngineMayPickAnyFreePair : Prop :=
  ∀ (s : State) (r : Running), s.run = some r → runningOk s.platform r = true →
    pickPair r s = freePair r.done (Config.draw s.draws % (pairTotal r - r.done.length))
    ∧ engineStep s = transferPair (pickPair r s) r (s.addDraws 1)
    ∧ (∀ j, j < pairTotal r - r.done.length → freePair r.done j ∉ r.done ∧ freePair r.done j < pairTotal r)
    ∧ (∀ t, t < pairTotal r → t ∉ r.done → ∃ j, j < pairTotal r - r.done.length ∧ freePair r.done j = t)

/-- 42_transform_engine R126, R129, 20_memory R67: an engine step moves the pair it has picked, adds it to L.done, and ends the command with the last. With pairs
left the destination takes the byte read and no other byte changes, whether the host has raced or not; the last step does the same but for the bytes a host write
raced with, which are settled then (20_memory R63; RacingWritesAreSettledAtTheEnd). The byte read is the source's, or a draw where MEM_COHERENT is false (log 14: DESIGN CHOICE). What is then kept of the command until a STATUS read is the model's note (log 25: DEDUCED). -/
def Obligations.EngineMovesThePickedPair : Prop :=
  ∀ (s : State) (r : Running), s.Inv → s.run = some r → nextAgent s = .engine →
    let t := pickPair r (turnTaken s)
    let byteRead := if s.platform.memCoherent then readByte s.mem (pairSrc r t) else BitVec.ofNat 8 (Config.draw (s.draws + 1))
    portAdmits s.platform (pairSrc r t) .read = true → portAdmits s.platform (pairDst r t) .write = true →
    ∃ u, step s = .next u
      ∧ u = { s with
          mem := u.mem, run := u.run, unseen := u.unseen, status := u.status, draws := u.draws, schedule := s.schedule.tail }
      ∧ (r.done.length + 1 < pairTotal r →
          readByte u.mem (pairDst r t) = byteRead ∧ (∀ a, a ≠ pairDst r t → readByte u.mem a = readByte s.mem a)
          ∧ u.status = s.status ∧ u.unseen = s.unseen ∧ ∃ l, u.run = some { r with done := l } ∧ ∀ x, x ∈ l ↔ x = t ∨ x ∈ r.done)
      ∧ (r.done.length + 1 = pairTotal r →
          (pairDst r t ∉ racedBytes r → readByte u.mem (pairDst r t) = byteRead)
          ∧ (∀ a, a ∉ racedBytes r → a ≠ pairDst r t → readByte u.mem a = readByte s.mem a)
          ∧ (r.hostWrites = [] → racedBytes r = [])
          ∧ u.status = 0x00000002 ∧ u.run = none ∧ u.unseen = forget r :: s.unseen)

/-- 60_exceptions R146, 42_transform_engine R126: an engine step whose picked pair the port refuses, the read first, ends the command, records a refused
address and its direction, and, where the host has not raced, writes no byte (where it has, RacesCutShortLeaveOldOrFinal says what memory holds). Which refused access is recorded is a draw (R146 (b)), taken from two free values; what is kept of
the command until a STATUS read is the model's note (log 25: DEDUCED). -/
def Obligations.RefusedAccessIsABusError : Prop :=
  ∀ (s : State) (r : Running), s.Inv → s.run = some r → nextAgent s = .engine →
    let t := pickPair r (turnTaken s)
    let busError : Nat × Dir → Prop := fun found =>
      let report := reportedAccess s.platform r (Config.draw (s.draws + 1)) (Config.draw (s.draws + 2)) found
      ∃ u, step s = .next u
        ∧ u = { turnTaken s with
          errAddr := BitVec.ofNat 32 report.1
          status := match report.2 with
            | .read => 0x00000122
            | .write => 0x00000222
          run := none, unseen := forget r :: s.unseen, mem := u.mem, draws := u.draws }
        ∧ (r.hostWrites = [] → u.mem = s.mem ∧ u.draws = s.draws + 3)
    (portAdmits s.platform (pairSrc r t) .read = false → busError (pairSrc r t, .read))
    ∧ (portAdmits s.platform (pairSrc r t) .read = true → portAdmits s.platform (pairDst r t) .write = false →
      busError (pairDst r t, .write))

/-- 60_exceptions R146 (b): from whatever refused access the engine has found, every report is a refused access of the command, the read of a pair's
source or the write of its destination, and every such access is the report for some free values. -/
def Obligations.BusErrorMayReportAnyRefusedAccess : Prop :=
  ∀ (p : Platform) (r : Running) (found : Nat × Dir),
    let refusedAccess : Nat × Dir → Prop := fun x =>
      portAdmits p x.1 x.2 = false ∧ ∃ t, t < pairTotal r
        ∧ ((x.2 = .read ∧ x.1 = pairSrc r t) ∨ (x.2 = .write ∧ x.1 = pairDst r t))
    refusedAccess found →
      (∀ n m, refusedAccess (reportedAccess p r n m found))
      ∧ ∀ x, refusedAccess x → ∃ n m, reportedAccess p r n m found = x

/-- 20_memory R69, 42_transform_engine R131, 60_exceptions R146 (c): an engine step writes no byte outside the destination region, the source region
among them, and no register but STATUS and ERRADDR. -/
def Obligations.EngineWritesOnlyDestinations : Prop :=
  ∀ (s u : State) (r : Running), s.Inv → s.run = some r → nextAgent s = .engine → step s = .next u →
    (∀ a, isDestination r a = false → readByte u.mem a = readByte s.mem a)
    ∧ (∀ a, isSource r a = true → readByte u.mem a = readByte s.mem a)
    ∧ u = { s with
        mem := u.mem, run := u.run, unseen := u.unseen, status := u.status, errAddr := u.errAddr, draws := u.draws
        schedule := s.schedule.tail }

/-- 42_transform_engine R129 to R131, R122 to R125: given its steps, on a platform that admits its addresses, a command reaches its end in L.count * k engine
steps; then every destination byte holds its source byte, no other byte has changed, and STATUS says done. What is kept of the command
until a STATUS read is the model's note (log 25: DEDUCED). -/
def Obligations.CommandRunsToItsEnd : Prop :=
  ∀ (s : State) (r : Running), s.Inv → s.run = some r → r.done = [] → r.hostWrites = [] →
    s.platform.memCoherent = true → allAdmitted s.platform r → s.schedule = [] →
    ∃ t, steps (r.count.toNat * planeCount r.dt) s = .next t
      ∧ t = { s with mem := t.mem, run := none, unseen := forget r :: s.unseen, status := 0x00000002, draws := t.draws }
      ∧ (∀ i p, i < r.count.toNat → p < planeCount r.dt →
          (r.op = .forward → readByte t.mem ((r.pb.getD p 0).toNat + i)
            = readByte s.mem (r.ebuf.toNat + planeCount r.dt * i + p))
          ∧ (r.op = .inverse → readByte t.mem (r.ebuf.toNat + planeCount r.dt * i + p)
            = readByte s.mem ((r.pb.getD p 0).toNat + i)))
      ∧ (∀ a, isDestination r a = false → readByte t.mem a = readByte s.mem a)

/-- 42_transform_engine R126, 20_memory R62: every order of the pairs ends in the same state. -/
def Obligations.EveryOrderEndsTheSame : Prop :=
  ∀ (s : State) (r : Running) (order : List Nat), s.Inv → s.run = some r → r.done = [] → r.hostWrites = [] →
    s.platform.memCoherent = true → allAdmitted s.platform r → order.Perm (List.range (pairTotal r)) →
    ∃ t, runPairs order s = .next t ∧ runPairs (scalarFrom r 0) s = .next t ∧ t.run = none ∧ t.status = 0x00000002

/-- 42_transform_engine R127: the vectorized path, chunks and remainder, and the scalar path end in the same state. -/
def Obligations.VectorizedPathEqualsScalarPath : Prop :=
  ∀ (s : State) (r : Running) (width : Nat), s.Inv → s.run = some r → r.done = [] → r.hostWrites = [] →
    s.platform.memCoherent = true → allAdmitted s.platform r → 0 < width →
    ∃ t, runPairs (vectorizedOrder r width) s = .next t ∧ runPairs (scalarFrom r 0) s = .next t
      ∧ t.run = none ∧ t.status = 0x00000002

/-- 42_transform_engine R127, 10_state R25: no outcome of a step depends on L.path, CAP, VLEN, VMIN or cap_in, except the reply to a read of HWCFG. R127 says so of
the result bytes and STATUS of a command that ends normally; that no step at all depends on the path, one that ends in a bus error among them, is the
model's choice (log 22: DEDUCED), which takes R127's one exception as draws on either path. -/
def Obligations.NothingDependsOnThePath : Prop :=
  ∀ s t : State, erasePath s = erasePath t → ¬ aboutTo (.regRead 0x08 .word) s → sameButPath (step s) (step t)

/-- 42_transform_engine R132: FORWARD, then INVERSE of its planes into a region apart from them, gives the bytes of the element buffer back. -/
def Obligations.ForwardThenInverseRestoresTheBuffer : Prop :=
  ∀ (d : DType) (s s1 s2 s3 s4 : State) (r1 r3 : Running) (o1 o2 : List Nat) (e : Word),
    s.Inv → busy s = false → s.platform.memCoherent = true → s.count ≠ 0 →
    exec (bufferCommand .forward d) s = .next s1 → s1.run = some r1 → o1.Perm (List.range (pairTotal r1)) →
    runPairs o1 s1 = .next s2 → s2.status = 0x00000002 →
    exec (bufferCommand .inverse d) { s2 with ebuf := e } = .next s3 → s3.run = some r3 →
    o2.Perm (List.range (pairTotal r3)) → runPairs o2 s3 = .next s4 → s4.status = 0x00000002 →
    ∀ j, j < s.len.toNat → readByte s4.mem (e.toNat + j) = readByte s.mem (s.ebuf.toNat + j)

/-- 42_transform_engine R132, the other order: INVERSE, then FORWARD of its buffer into planes at any addresses, gives the bytes of the planes back. -/
def Obligations.InverseThenForwardRestoresThePlanes : Prop :=
  ∀ (d : DType) (s s1 s2 s3 s4 : State) (r1 r3 : Running) (o1 o2 : List Nat) (q0 q1 q2 q3 : Word),
    s.Inv → busy s = false → s.platform.memCoherent = true → s.count ≠ 0 →
    exec (bufferCommand .inverse d) s = .next s1 → s1.run = some r1 → o1.Perm (List.range (pairTotal r1)) →
    runPairs o1 s1 = .next s2 → s2.status = 0x00000002 →
    exec (bufferCommand .forward d) { s2 with pb0 := q0, pb1 := q1, pb2 := q2, pb3 := q3 } = .next s3 → s3.run = some r3 →
    o2.Perm (List.range (pairTotal r3)) → runPairs o2 s3 = .next s4 → s4.status = 0x00000002 →
    ∀ i p, i < s.count.toNat → p < planeCount d →
      readByte s4.mem ((r3.pb.getD p 0).toNat + i) = readByte s.mem ((r1.pb.getD p 0).toNat + i)

/-- 42_transform_engine R133, 20_memory R52: the bytes FORWARD writes for element i are the plane bytes SPLIT gives for its value. -/
def Obligations.ForwardAgreesWithSplit : Prop :=
  ∀ (d : DType) (s s1 s2 e1 e2 : State) (r : Running) (order : List Nat) (i p : Nat),
    s.Inv → busy s = false → s.platform.memCoherent = true →
    exec (bufferCommand .forward d) s = .next s1 → s1.run = some r → order.Perm (List.range (pairTotal r)) →
    runPairs order s1 = .next s2 → s2.status = 0x00000002 → i < s.count.toNat → p < planeCount d →
    e1 = { s with elem := BitVec.ofNat 32 (elemAt s.mem s.ebuf.toNat (elemBytes d) i) } →
    exec (match d with | .dtype16 => .split16 | .dtype32 => .split32) e1 = .next e2 →
    (readByte s2.mem ((r.pb.getD p 0).toNat + i)).toNat = e2.planes.toNat / 256 ^ p % 256

/-- 42_transform_engine R133, 20_memory R52: the element INVERSE writes is the RESULT that JOIN gives for its plane bytes. -/
def Obligations.InverseAgreesWithJoin : Prop :=
  ∀ (d : DType) (s s1 s2 e1 e2 : State) (r : Running) (order : List Nat) (i : Nat),
    s.Inv → busy s = false → s.platform.memCoherent = true →
    exec (bufferCommand .inverse d) s = .next s1 → s1.run = some r → order.Perm (List.range (pairTotal r)) →
    runPairs order s1 = .next s2 → s2.status = 0x00000002 → i < s.count.toNat →
    e1 = { s with planes := BitVec.ofNat 32 (planeBytesAt s.mem r.pb i) } →
    exec (match d with | .dtype16 => .join16 | .dtype32 => .join32) e1 = .next e2 →
    elemAt s2.mem s.ebuf.toNat (elemBytes d) i = e2.result.toNat

/-- 10_state R36, 20_memory R62, R66: while a command runs, no step but reset changes its latched operands, and L.done only grows. -/
def Obligations.LatchedOperandsStay : Prop :=
  ∀ (s t : State) (r : Running), s.Inv → s.run = some r → step s = .next t →
    t.run = none ∨ ∃ q, t.run = some q ∧ q.op = r.op ∧ q.dt = r.dt ∧ q.count = r.count ∧ q.ebuf = r.ebuf ∧ q.pb = r.pb
      ∧ q.path = r.path ∧ q.before = r.before ∧ ∀ x ∈ r.done, x ∈ q.done

/-! ## Races -/

/-- 20_memory R63 (a), 70_reset_and_hazards R176: from a command's acceptance until a STATUS read returns BUSY = 0, a host read of one of its destination bytes
returns the byte's value from before the command or a final value, as a draw; and a read of any other byte of memory without read side effects returns the
byte. The draw is made at the read (log 8: DEDUCED), and a host's own write after the command's end counts among the final values (log 25: DEDUCED). Where several commands write the byte
the values of all of them can be drawn (log 28: DESIGN CHOICE). That it holds at addresses Admit refuses as
well is the model's choice (log 27: DESIGN CHOICE). -/
def Obligations.RacingReadDrawsOldOrFinal : Prop :=
  ∀ (s : State) (a : Word), aboutTo (.memRead a) s → s.platform.memCoherent = true →
    inRegion (window s.platform) a.toNat = false → (∀ q ∈ s.platform.devices, inRegion q a.toNat = false) →
    ((∃ r, (s.run = some r ∨ r ∈ s.unseen) ∧ isDestination r a.toNat = true) →
      ∃ v r, (s.run = some r ∨ r ∈ s.unseen) ∧ isDestination r a.toNat = true
        ∧ step s = .next { popped s with reply := some (.byte v), draws := s.draws + 1 }
        ∧ (v = readByte r.before a.toNat ∨ v ∈ finalValues r a.toNat))
    ∧ ((∀ r, s.run = some r ∨ r ∈ s.unseen → isDestination r a.toNat = false) →
      step s = .next { popped s with reply := some (.byte (readByte s.mem a.toNat)) })

/-- 20_memory R63: without a race, the final values of a destination byte are one value, its source byte's when the command was accepted. -/
def Obligations.WithoutARaceTheFinalValueIsOne : Prop :=
  ∀ (p : Platform) (r : Running) (t : Nat), runningOk p r = true → r.hostWrites = [] → t < pairTotal r →
    ∀ v, v ∈ finalValues r (pairDst r t) ↔ v = readByte r.before (pairSrc r t)

/-- 20_memory R63 (b), (c): the engine step that moves the last pair ends the command; then every byte a host write raced with holds a value its source byte held
or one the host wrote to it, and of the other bytes only the pair's destination may have changed, to its source byte. That a raced byte takes one of these
values on a platform that is not coherent as well is the model's choice (log 26: DESIGN CHOICE). -/
def Obligations.RacingWritesAreSettledAtTheEnd : Prop :=
  ∀ (s : State) (r : Running), s.Inv → s.run = some r → nextAgent s = .engine → r.done.length + 1 = pairTotal r →
    let t := pickPair r (turnTaken s)
    portAdmits s.platform (pairSrc r t) .read = true → portAdmits s.platform (pairDst r t) .write = true →
    ∃ u, step s = .next u ∧ u.run = none ∧ u.status = 0x00000002
      ∧ (∀ a, a ∈ racedBytes r → readByte u.mem a ∈ finalValues r a)
      ∧ (∀ a, a ∉ racedBytes r → a ≠ pairDst r t → readByte u.mem a = readByte s.mem a)
      ∧ (pairDst r t ∉ racedBytes r → s.platform.memCoherent = true →
          readByte u.mem (pairDst r t) = readByte s.mem (pairSrc r t))

/-- 60_exceptions R146 (a), 70_reset_and_hazards R171, 20_memory R63: a bus error or an assertion of reset leaves a byte a host write raced with holding its value from before
the command or a final value, and every other byte as it was That this holds on a platform that is not coherent as well is the model's choice (log 26: DESIGN CHOICE). -/
def Obligations.RacesCutShortLeaveOldOrFinal : Prop :=
  ∀ (s : State) (r : Running), s.Inv → s.run = some r →
    let settled : State → Prop := fun u =>
      u.run = none
      ∧ (∀ a, a ∈ racedBytes r → readByte u.mem a = readByte r.before a ∨ readByte u.mem a ∈ finalValues r a)
      ∧ (∀ a, a ∉ racedBytes r → readByte u.mem a = readByte s.mem a)
    let t := pickPair r (turnTaken s)
    (aboutTo .assertReset s → ∃ u, step s = .next u ∧ settled u)
    ∧ (nextAgent s = .engine →
        portAdmits s.platform (pairSrc r t) .read = false ∨ portAdmits s.platform (pairDst r t) .write = false →
        ∃ u, step s = .next u ∧ settled u)

/-- 20_memory R63, its last sentence, and log 8: DEDUCED: while a command runs, a host write outside the register window, memory with side effects and the regions of commands
not seen to have ended leaves its byte with the value and every other byte as it was; outside every region of the running command nothing else changes, and
inside one the hidden state notes the write. That it holds at addresses Admit refuses as
well is the model's choice (log 27: DESIGN CHOICE). -/
def Obligations.HostWritesWhileACommandRuns : Prop :=
  ∀ (s : State) (r : Running) (a : Word) (v : Byte), aboutTo (.memWrite a v) s → s.run = some r →
    inRegion (window s.platform) a.toNat = false → (∀ q ∈ s.platform.devices, inRegion q a.toNat = false) →
    (∀ x ∈ s.unseen, ∀ q ∈ runningRegions x, inRegion q a.toNat = false) →
    ∃ u, step s = .next u ∧ readByte u.mem a.toNat = v ∧ (∀ b, b ≠ a.toNat → readByte u.mem b = readByte s.mem b)
      ∧ ((∀ q ∈ runningRegions r, inRegion q a.toNat = false) → u = { popped s with mem := u.mem })
      ∧ ((∃ q ∈ runningRegions r, inRegion q a.toNat = true) →
          u = { popped s with mem := u.mem, run := some { r with hostWrites := (a.toNat, v) :: r.hostWrites } })

/-- 70_reset_and_hazards R176, 20_memory R63 (b), (c): a host write made after a command's end and before a STATUS read has returned BUSY = 0 races with that command. A
destination byte it writes, or the destination byte that depends on a source byte it writes, keeps its value, or takes the value written or a final value of the
command; every other byte is as a plain write leaves it, and every command that owns the byte notes the write; all that is noted beside it is the value such a raced
byte is left with. That the value is drawn at the write, and that one
written after the end counts like one written before it, is log 25: DEDUCED; that the values of all the commands that race for a byte can be drawn is log 28: DESIGN CHOICE; that this holds on a platform that is not coherent as well is log 26: DESIGN CHOICE. That it holds at addresses Admit refuses as
well is the model's choice (log 27: DESIGN CHOICE). -/
def Obligations.HostWritesAfterTheEndStillRace : Prop :=
  ∀ (s : State) (a : Word) (v : Byte), aboutTo (.memWrite a v) s →
    inRegion (window s.platform) a.toNat = false → (∀ q ∈ s.platform.devices, inRegion q a.toNat = false) →
    let raced : Running → Nat → Prop := fun r b =>
      (isDestination r a.toNat = true ∧ b = a.toNat)
        ∨ (isDestination r a.toNat = false ∧ ∃ t, t < pairTotal r ∧ pairSrc r t = a.toNat ∧ b = pairDst r t)
    ∃ u, step s = .next u
      ∧ u = { popped s with mem := u.mem, run := u.run, unseen := u.unseen, draws := u.draws }
      ∧ (∀ b, (∀ r ∈ s.unseen, ¬ raced r b) → readByte u.mem b = if b = a.toNat then v else readByte s.mem b)
      ∧ (∀ b, (∃ r ∈ s.unseen, raced r b) → ∃ r ∈ s.unseen, raced r b
          ∧ (readByte u.mem b = readByte s.mem b ∨ readByte u.mem b = v ∨ readByte u.mem b ∈ finalValues r b))
      ∧ ∃ f : Running → Running, u.run = s.run.map f ∧ u.unseen = s.unseen.map f
          ∧ ∀ r, f r = { r with hostWrites := (f r).hostWrites }
            ∧ (∀ c ∈ r.hostWrites, c ∈ (f r).hostWrites)
            ∧ (∀ c ∈ (f r).hostWrites, c ∈ r.hostWrites ∨ c = (a.toNat, v)
                ∨ ((∃ q ∈ s.unseen, raced q c.1) ∧ c.2 = readByte u.mem c.1))
            ∧ (isDestination r a.toNat = true ∨ isSource r a.toNat = true → (a.toNat, v) ∈ (f r).hostWrites)

/-- 70_reset_and_hazards R176, 20_memory R64: a command owns its regions from its acceptance, past its end, until a STATUS read returns BUSY = 0. Such a read, by `rd` or
`wait`, leaves no command that has ended owning any; every other step but a reset leaves each command that owned its regions still owning the same ones, and keeps
its notes. That a reset ends the ownership is log 25: DEDUCED. -/
def Obligations.OwnershipEndsAtTheStatusRead : Prop :=
  ∀ s t : State, s.Inv → step s = .next t →
    let seen : Prop := (aboutTo (.regRead 0x04 .word) s ∨ aboutTo .wait s) ∧ busy s = false
    let reset : Prop := aboutTo .assertReset s ∨ (aboutTo .releaseReset s ∧ s.inReset = true)
    (seen → owners t = [])
    ∧ (reset → owners t = [])
    ∧ (¬ seen → ¬ reset → ∀ r ∈ owners s, ∃ q ∈ owners t,
        q.op = r.op ∧ q.dt = r.dt ∧ q.count = r.count ∧ q.ebuf = r.ebuf ∧ q.pb = r.pb ∧ q.before = r.before
          ∧ ∀ c ∈ r.hostWrites, c ∈ q.hostWrites)

/-- 20_memory R68, 70_reset_and_hazards R175, R176: a host that keeps its duties, each until a STATUS read returns BUSY = 0, makes no race. -/
def Obligations.ConformingHostMakesNoRace : Prop :=
  ∀ s t : State, s.Inv → noRace s = true → (∀ op, aboutTo op s → hostConforms s op = true) → step s = .next t →
    noRace t = true

/-! ## The register window -/

/-- 10_state R23, R22: what a 32-bit read of each offset returns. It changes nothing but the model's note of the commands not seen to have ended, which a read of
STATUS with BUSY = 0 empties (70_reset_and_hazards R176; log 25: DEDUCED). -/
def Obligations.RegisterReadsFollowTheMap : Prop :=
  ∀ (s : State) (offset : BitVec 8), aboutTo (.regRead offset .word) s → s.inReset = false →
    (∀ v : Word, (offset.toNat, v) ∈
        [(0x00, s.cmd), (0x04, s.status), (0x08, hwcfgWord s.platform s.cap), (0x0C, s.errAddr), (0x10, s.elem),
         (0x14, s.planes), (0x18, s.result), (0x1C, s.count), (0x20, s.len), (0x24, s.ebuf), (0x28, s.pb0),
         (0x2C, s.pb1), (0x30, s.pb2), (0x34, s.pb3)] →
      step s = .next { popped s with
        reply := some (.word v)
        unseen := if offset.toNat = 0x04 ∧ busy s = false then [] else s.unseen })
    ∧ (offset.toNat % 4 = 0 → 0x38 ≤ offset.toNat → step s = .next { popped s with reply := some (.word 0) })

/-- 10_state R25: the fields of HWCFG. -/
def Obligations.HwcfgReportsTheParameters : Prop :=
  ∀ (p : Platform) (cap : Bool),
    (hwcfgWord p cap).toNat =
      (if cap then 1 else 0) + (match p.f16Fmt with | .binary16 => 0 | .bfloat16 => 2) + 256 * p.vlen.toNat

/-- 10_state R35, R28, R29, R31 to R34, R22: a 32-bit write of a data register stores the value and does nothing else, BUSY or not; a write of a read-only register or of a
reserved offset does nothing. -/
def Obligations.RegisterWritesFollowTheMap : Prop :=
  ∀ (s : State) (offset : BitVec 8) (v : Word), aboutTo (.regWrite offset .word v) s → s.inReset = false →
    (offset = 0x10 → step s = .next { popped s with elem := v })
    ∧ (offset = 0x14 → step s = .next { popped s with planes := v })
    ∧ (offset = 0x1C → step s = .next { popped s with count := v })
    ∧ (offset = 0x20 → step s = .next { popped s with len := v })
    ∧ (offset = 0x24 → step s = .next { popped s with ebuf := v })
    ∧ (offset = 0x28 → step s = .next { popped s with pb0 := v })
    ∧ (offset = 0x2C → step s = .next { popped s with pb1 := v })
    ∧ (offset = 0x30 → step s = .next { popped s with pb2 := v })
    ∧ (offset = 0x34 → step s = .next { popped s with pb3 := v })
    ∧ ((offset = 0x04 ∨ offset = 0x08 ∨ offset = 0x0C ∨ offset = 0x18) → step s = .next (popped s))
    ∧ (offset.toNat % 4 = 0 → 0x38 ≤ offset.toNat → step s = .next (popped s))

/-- 10_state R21, 70_reset_and_hazards R174: a register access that is not 32 bits wide, not at a multiple of 4, or made while reset is asserted is refused, the read
that `wait` makes among them; and so is a host memory access of one byte at an address of the window, which is one (log 24: DEDUCED). -/
def Obligations.OtherRegisterAccessesAreRefused : Prop :=
  (∀ (s : State) (offset : BitVec 8) (width : Width) (v : Word),
    aboutTo (.regRead offset width) s ∨ aboutTo (.regWrite offset width v) s →
    (s.inReset = true → step s = .refused .accessDuringReset)
    ∧ (s.inReset = false → width ≠ .word → step s = .refused .registerAccessNotWord)
    ∧ (s.inReset = false → width = .word → offset.toNat % 4 ≠ 0 → step s = .refused .registerAccessMisaligned))
  ∧ (∀ s : State, aboutTo .wait s → s.inReset = true → step s = .refused .accessDuringReset)
  ∧ (∀ (s : State) (a : Word) (v : Byte), aboutTo (.memRead a) s ∨ aboutTo (.memWrite a v) s →
    s.platform.bpdBase.toNat ≤ a.toNat → a.toNat < s.platform.bpdBase.toNat + 256 →
    (s.inReset = true → step s = .refused .accessDuringReset)
    ∧ (s.inReset = false → step s = .refused .registerAccessNotWord))

/-- 20_memory R50, R63, its last sentence, 10_state R20 (c): a host access to memory outside the window, off memory with read side effects and outside the regions of every
command that owns them (running, or ended and not yet seen to have by a STATUS read) is one to that byte alone. R67: where MEM_COHERENT is false a host read of any byte,
owned or not, returns a draw and changes nothing else (log 14: DESIGN CHOICE). That it holds at addresses Admit refuses as
well is the model's choice (log 27: DESIGN CHOICE). -/
def Obligations.HostMemoryAccessesArePlainWhileIdle : Prop :=
  ∀ (s : State) (a : Word), inRegion (window s.platform) a.toNat = false →
    (∀ q ∈ s.platform.devices, inRegion q a.toNat = false) →
    (aboutTo (.memRead a) s → s.platform.memCoherent = false →
      step s = .next { popped s with reply := some (.byte (BitVec.ofNat 8 (Config.draw s.draws))), draws := s.draws + 1 })
    ∧ ((∀ r, s.run = some r ∨ r ∈ s.unseen → ∀ q ∈ runningRegions r, inRegion q a.toNat = false) →
      (aboutTo (.memRead a) s → s.platform.memCoherent = true →
        step s = .next { popped s with reply := some (.byte (readByte s.mem a.toNat)) })
      ∧ (∀ v, aboutTo (.memWrite a v) s → ∃ u, step s = .next u ∧ u = { popped s with mem := u.mem }
          ∧ readByte u.mem a.toNat = v ∧ ∀ b, b ≠ a.toNat → readByte u.mem b = readByte s.mem b))

/-! ## Reset -/

/-- 10_state R40: the reset values, in State.reset and after the reset input is asserted and released. -/
def Obligations.ResetGivesTheResetValues : Prop :=
  let atReset : State → Prop := fun s =>
    s.cmd = 0 ∧ s.status = 0 ∧ s.errAddr = 0 ∧ s.elem = 0 ∧ s.planes = 0 ∧ s.result = 0 ∧ s.count = 0 ∧ s.len = 0
      ∧ s.ebuf = 0 ∧ s.pb0 = 0 ∧ s.pb1 = 0 ∧ s.pb2 = 0 ∧ s.pb3 = 0 ∧ s.run = none
      ∧ (readRegister s 0x08).toNat =
          (if s.platform.capIn = true ∧ 0 < s.platform.vlen.toNat then 1 else 0)
            + (match s.platform.f16Fmt with | .binary16 => 0 | .bfloat16 => 2) + 256 * s.platform.vlen.toNat
  (atReset State.reset ∧ State.reset.inReset = false)
    ∧ (∀ s, aboutTo .assertReset s → ∃ t, step s = .next t ∧ atReset t ∧ t.inReset = true)
    ∧ (∀ s, aboutTo .releaseReset s → s.inReset = true → ∃ t, step s = .next t ∧ atReset t ∧ t.inReset = false)

/-- 70_reset_and_hazards R170, R171: asserting reset abandons a running command and, without a race, writes no byte of memory; while reset is asserted the engine makes no access. -/
def Obligations.ResetAbandonsTheCommand : Prop :=
  (∀ s, aboutTo .assertReset s → noRace s = true → ∃ t, step s = .next t ∧ t.run = none ∧ t.mem = s.mem)
    ∧ (∀ s, s.Inv → s.inReset = true → nextAgent s = .engine → step s = .next (turnTaken s))

/-- 70_reset_and_hazards R172: CAP is `cap_in AND (VLEN > 0)` on release of reset and constant until the next reset. -/
def Obligations.CapIsLatchedAtReset : Prop :=
  (State.reset.cap = true ↔ State.reset.platform.capIn = true ∧ 0 < State.reset.platform.vlen.toNat)
    ∧ (∀ s, aboutTo .releaseReset s → s.inReset = true → ∃ t, step s = .next t
        ∧ (t.cap = true ↔ s.platform.capIn = true ∧ 0 < s.platform.vlen.toNat))
    ∧ (∀ s t, ¬ aboutTo .assertReset s → ¬ aboutTo .releaseReset s → step s = .next t → t.cap = s.cap)

/-! ## The whole machine -/

/-- The invariant of the machine is kept by every step. -/
def Obligations.EveryStepKeepsTheInvariant : Prop :=
  ∀ s t : State, s.Inv → step s = .next t → t.Inv

/-- The invariant holds after reset. -/
def Obligations.InvariantHoldsAtReset : Prop := State.reset.Inv

/-- 20_memory R58, 00_scope R9: no step of a state that meets the invariant reaches an address outside the space. -/
def Obligations.NoAccessLeavesTheSpace : Prop :=
  ∀ (s : State) (f : Fault), s.Inv → step s ≠ .fault f

/-- 10_state R26, 60_exceptions R141, R143, R146: the legal values of STATUS, field by field, and the pairs (ERR, CAUSE). -/
def Obligations.StatusFieldsAreLegal : Prop :=
  ∀ s : State, s.Inv →
    (s.status.getLsbD 0 = true → s.status.getLsbD 1 = false ∧ statusErr s.status = 0 ∧ statusCause s.status = 0)
    ∧ (statusErr s.status = 0 → statusCause s.status = 0)
    ∧ (statusErr s.status).toNat ≤ 2
    ∧ (statusErr s.status = 1 →
        s.status.getLsbD 1 = true ∧ 1 ≤ (statusCause s.status).toNat ∧ (statusCause s.status).toNat ≤ 7)
    ∧ (statusErr s.status = 2 →
        s.status.getLsbD 1 = true ∧ 1 ≤ (statusCause s.status).toNat ∧ (statusCause s.status).toNat ≤ 2)
    ∧ s.status.extractLsb' 2 2 = 0 ∧ s.status.extractLsb' 16 16 = 0
    ∧ (s.status.getLsbD 0 = true ↔ ∃ r, s.run = some r)

/-- 10_state R27: ERRADDR takes the refused address when a command ends with a bus error, 0 at reset, and nothing else writes it. -/
def Obligations.OnlyBusErrorsAndResetWriteErrAddr : Prop :=
  (∀ s t : State, s.Inv → step s = .next t → busy s = true → statusErr t.status = 2 →
      ∃ r x dir, s.run = some r ∧ nextAgent s = .engine ∧ x < pairTotal r
        ∧ ((dir = .read ∧ t.errAddr.toNat = pairSrc r x) ∨ (dir = .write ∧ t.errAddr.toNat = pairDst r x))
        ∧ portAdmits s.platform t.errAddr.toNat dir = false ∧ t.status = statusBusError dir)
    ∧ (∀ s t : State, s.Inv → step s = .next t → ¬ (busy s = true ∧ statusErr t.status = 2) →
        t.errAddr = s.errAddr ∨ ((aboutTo .assertReset s ∨ aboutTo .releaseReset s) ∧ t.errAddr = 0x00000000))
    ∧ State.reset.errAddr = 0x00000000

/-- 10_state R30, R29: only JOIN and FIELD (and reset) write RESULT; only the host, SPLIT (and reset) write PLANES. -/
def Obligations.OnlyTheirCommandsWriteResultAndPlanes : Prop :=
  ∀ s t : State, step s = .next t → ¬ aboutTo .assertReset s → ¬ aboutTo .releaseReset s →
    (t.result ≠ s.result → ∃ i, aboutTo (.regWrite 0 .word (encode i)) s ∧ isElementCommand i = true
      ∧ i ≠ .split16 ∧ i ≠ .split32)
    ∧ (t.planes ≠ s.planes → aboutTo (.regWrite 0 .word (encode .split16)) s
      ∨ aboutTo (.regWrite 0 .word (encode .split32)) s ∨ aboutTo (.regWrite 0x14 .word t.planes) s)

/-- 00_scope R7: the platform is constant. -/
def Obligations.NoStepChangesThePlatform : Prop :=
  ∀ s t : State, step s = .next t → t.platform = s.platform
end

