-- ==== Sys2Proof/Laws/Decode.lean ====
section
/-! SUPPORT. The fields of a word: cutting a word and putting it together are inverse, and well-formed fields name one command. -/

namespace Sys2Proof

theorem fieldsOf_wordOf (f : Fields) : fieldsOf (wordOf f) = f := by
  obtain ⟨a, b, c, d⟩ := f
  unfold fieldsOf wordOf
  congr 1
  all_goals
    apply BitVec.eq_of_getLsbD_eq
    intro i hi
    simp only [BitVec.getLsbD_extractLsb', BitVec.getLsbD_append, hi]
    interval_cases i <;> simp

theorem wordOf_fieldsOf (w : Word) : wordOf (fieldsOf w) = w := by
  unfold fieldsOf wordOf
  apply BitVec.eq_of_getLsbD_eq
  intro i hi
  simp only [BitVec.getLsbD_extractLsb', BitVec.getLsbD_append]
  interval_cases i <;> simp

theorem encodeFields_wellFormed (i : Instr) : (encodeFields i).wellFormed = true := by cases i <;> rfl

theorem commandOf_encodeFields (i : Instr) : commandOf (encodeFields i) = some i := by cases i <;> rfl

/-- Well-formed fields are those of a command. -/
theorem commandOf_of_wellFormed {f : Fields} (h : f.wellFormed = true) :
    ∃ i, commandOf f = some i ∧ f = encodeFields i := by
  obtain ⟨a, b, c, d⟩ := f
  simp only [Fields.wellFormed, Fields.rsvdOk, Bool.and_eq_true, beq_iff_eq] at h
  obtain ⟨⟨⟨h1, ha, h2⟩, h3⟩, h4⟩ := h
  subst ha
  have key : ∀ (b c : BitVec 2) (d : BitVec 4), (⟨0#24, b, c, d⟩ : Fields).wellFormed = true →
      (commandOf ⟨0#24, b, c, d⟩).any (fun i => decide ((⟨0#24, b, c, d⟩ : Fields) = encodeFields i)) = true := by decide
  have hk := key b c d (by
    simp only [Fields.wellFormed, Fields.rsvdOk, Bool.and_eq_true, beq_iff_eq]
    exact ⟨⟨⟨h1, trivial, h2⟩, h3⟩, h4⟩)
  cases hi : commandOf ⟨0#24, b, c, d⟩ with
  | none => rw [hi] at hk; simp at hk
  | some i => rw [hi] at hk; exact ⟨i, rfl, by simpa using hk⟩

/-- Which fields decode to a command, and which check refuses the others (30_encoding R78). -/
theorem decode_cases (w : Word) :
    ((fieldsOf w).opOk = false ∧ decode w = .error .badOp)
    ∨ ((fieldsOf w).opOk = true ∧ (fieldsOf w).rsvdOk = false ∧ decode w = .error .rsvdBits)
    ∨ ((fieldsOf w).opOk = true ∧ (fieldsOf w).rsvdOk = true ∧ (fieldsOf w).dtOk = false ∧ decode w = .error .badDtype)
    ∨ ((fieldsOf w).opOk = true ∧ (fieldsOf w).rsvdOk = true ∧ (fieldsOf w).dtOk = true ∧ (fieldsOf w).fldOk = false
        ∧ decode w = .error .badField)
    ∨ ((fieldsOf w).wellFormed = true ∧ ∃ i, fieldsOf w = encodeFields i ∧ decode w = .ok i) := by
  cases h1 : (fieldsOf w).opOk with
  | false => exact .inl ⟨rfl, by simp [decode, h1]⟩
  | true =>
    cases h2 : (fieldsOf w).rsvdOk with
    | false => exact .inr (.inl ⟨rfl, rfl, by simp [decode, h1, h2]⟩)
    | true =>
      cases h3 : (fieldsOf w).dtOk with
      | false => exact .inr (.inr (.inl ⟨rfl, rfl, rfl, by simp [decode, h1, h2, h3]⟩))
      | true =>
        cases h4 : (fieldsOf w).fldOk with
        | false => exact .inr (.inr (.inr (.inl ⟨rfl, rfl, rfl, rfl, by simp [decode, h1, h2, h3, h4]⟩)))
        | true =>
          have hw : (fieldsOf w).wellFormed = true := by simp [Fields.wellFormed, h1, h2, h3, h4]
          obtain ⟨i, hi, hf⟩ := commandOf_of_wellFormed hw
          exact .inr (.inr (.inr (.inr ⟨hw, i, hf, by simp [decode, h1, h2, h3, h4, hi]⟩)))

end Sys2Proof
end

