-- ==== Sys2Proof/Laws/Memory.lean ====
section
/-! SUPPORT. The laws of memory: a read after a write, and the canonical form, which every operation keeps and in which two memories
that read alike are equal. -/

namespace Sys2Proof.Machine

theorem readByte_insertByte_same (m : List Host.Cell) (a : Nat) (v : Byte) : readByte (insertByte m a v) a = v := by
  induction m with
  | nil => simp [insertByte, readByte]
  | cons c m ih =>
    obtain ⟨b, u⟩ := c
    unfold insertByte
    split
    · simp [readByte]
    · split
      · simp [readByte]
      · rename_i h1 h2
        simp [readByte, Ne.symm h2, ih]

theorem readByte_insertByte_other (m : List Host.Cell) {a x : Nat} (v : Byte) (h : x ≠ a) :
    readByte (insertByte m a v) x = readByte m x := by
  induction m with
  | nil => simp [insertByte, readByte, Ne.symm h]
  | cons c m ih =>
    obtain ⟨b, u⟩ := c
    unfold insertByte
    split
    · simp [readByte, Ne.symm h]
    · split
      · rename_i h1 h2
        subst h2
        simp [readByte, Ne.symm h]
      · simp [readByte, ih]

theorem readByte_filter_same (m : List Host.Cell) (a : Nat) :
    readByte (m.filter (fun c => decide (c.1 ≠ a))) a = memDefault := by
  induction m with
  | nil => rfl
  | cons c m ih =>
    obtain ⟨b, u⟩ := c
    by_cases h : b = a <;> simp [h, readByte] <;> simpa using ih

theorem readByte_filter_other (m : List Host.Cell) {a x : Nat} (h : x ≠ a) :
    readByte (m.filter (fun c => decide (c.1 ≠ a))) x = readByte m x := by
  induction m with
  | nil => rfl
  | cons c m ih =>
    obtain ⟨b, u⟩ := c
    by_cases hb : b = a
    · subst hb
      simpa [List.filter_cons, readByte, Ne.symm h] using ih
    · simp only [List.filter_cons, hb, ne_eq, not_false_eq_true, decide_true, if_true, readByte]
      simp only [ne_eq] at ih
      rw [ih]

/-- A read after a write of the same address gives the byte written. -/
@[simp] theorem readByte_writeByte_same (m : List Host.Cell) (a : Nat) (v : Byte) : readByte (writeByte m a v) a = v := by
  unfold writeByte
  split
  · rename_i h
    rw [readByte_filter_same, h]
  · exact readByte_insertByte_same m a v

/-- A write leaves every other address alone. -/
theorem readByte_writeByte_other (m : List Host.Cell) {a x : Nat} (v : Byte) (h : x ≠ a) :
    readByte (writeByte m a v) x = readByte m x := by
  unfold writeByte
  split
  · exact readByte_filter_other m h
  · exact readByte_insertByte_other m v h

/-- The canonical form, as propositions. -/
theorem Memory.wf_iff (m : List Host.Cell) :
    Memory.wf m = true ↔
      m.Pairwise (fun c d => c.1 < d.1) ∧ ∀ c ∈ m, c.1 < spaceSize ∧ c.2 ≠ memDefault := by
  simp [Memory.wf]

theorem Memory.wf_nil : Memory.wf [] = true := rfl

theorem mem_insertByte {m : List Host.Cell} {a : Nat} {v : Byte} {c : Host.Cell} (h : c ∈ insertByte m a v) :
    c = (a, v) ∨ c ∈ m := by
  induction m with
  | nil => simpa [insertByte] using h
  | cons d m ih =>
    unfold insertByte at h
    split at h
    · simpa using h
    · split at h
      · rcases List.mem_cons.1 h with h | h
        · exact .inl h
        · exact .inr (List.mem_cons_of_mem _ h)
      · rcases List.mem_cons.1 h with h | h
        · exact .inr (by simp [h])
        · rcases ih h with h | h
          · exact .inl h
          · exact .inr (List.mem_cons_of_mem _ h)

theorem insertByte_pairwise {m : List Host.Cell} (a : Nat) (v : Byte) (h : m.Pairwise (fun c d => c.1 < d.1)) :
    (insertByte m a v).Pairwise (fun c d => c.1 < d.1) := by
  induction m with
  | nil => simp [insertByte]
  | cons d m ih =>
    obtain ⟨b, u⟩ := d
    have hd := List.pairwise_cons.1 h
    unfold insertByte
    split
    · rename_i hab
      refine List.pairwise_cons.2 ⟨?_, h⟩
      intro c hc
      rcases List.mem_cons.1 hc with hc | hc
      · simpa [hc] using hab
      · exact Nat.lt_trans hab (hd.1 c hc)
    · split
      · rename_i hab
        subst hab
        exact List.pairwise_cons.2 ⟨hd.1, hd.2⟩
      · refine List.pairwise_cons.2 ⟨?_, ih hd.2⟩
        intro c hc
        rcases mem_insertByte hc with hc | hc
        · rw [hc]
          show b < a
          omega
        · exact hd.1 c hc

/-- A write to an address of the space keeps the canonical form. -/
theorem writeByte_wf {m : List Host.Cell} {a : Nat} (v : Byte) (h : Memory.wf m = true) (ha : a < spaceSize) :
    Memory.wf (writeByte m a v) = true := by
  rw [Memory.wf_iff] at h ⊢
  unfold writeByte
  split
  · exact ⟨h.1.filter _, fun c hc => h.2 c (List.mem_filter.1 hc).1⟩
  · rename_i hv
    refine ⟨insertByte_pairwise a v h.1, fun c hc => ?_⟩
    rcases mem_insertByte hc with hc | hc
    · subst hc
      exact ⟨ha, hv⟩
    · exact h.2 c hc

theorem readByte_of_lt {m : List Host.Cell} {a : Nat} (h : ∀ c ∈ m, a < c.1) : readByte m a = memDefault := by
  induction m with
  | nil => rfl
  | cons d m ih =>
    obtain ⟨b, u⟩ := d
    have hb : a < b := h (b, u) (by simp)
    simp [readByte, Nat.ne_of_gt hb, ih (fun c hc => h c (List.mem_cons_of_mem _ hc))]

/-- Two memories in canonical form that read alike are equal. -/
theorem Memory.ext {m n : List Host.Cell} (hm : Memory.wf m = true) (hn : Memory.wf n = true)
    (h : ∀ a, readByte m a = readByte n a) : m = n := by
  rw [Memory.wf_iff] at hm hn
  induction m generalizing n with
  | nil =>
    cases n with
    | nil => rfl
    | cons d n =>
      obtain ⟨b, u⟩ := d
      have := h b
      simp only [readByte, if_true] at this
      exact absurd this.symm (hn.2 (b, u) (by simp)).2
  | cons c m ih =>
    obtain ⟨a, v⟩ := c
    have hc := List.pairwise_cons.1 hm.1
    cases n with
    | nil =>
      have := h a
      simp only [readByte, if_true] at this
      exact absurd this (hm.2 (a, v) (by simp)).2
    | cons d n =>
      obtain ⟨b, u⟩ := d
      have hd := List.pairwise_cons.1 hn.1
      have hab : a = b := by
        rcases Nat.lt_trichotomy a b with hlt | heq | hgt
        · have h1 := h a
          rw [readByte_of_lt (m := (b, u) :: n) (a := a)] at h1
          · simp only [readByte, if_true] at h1
            exact absurd h1 (hm.2 (a, v) (by simp)).2
          · intro c hc'
            rcases List.mem_cons.1 hc' with hc' | hc'
            · simpa [hc'] using hlt
            · exact Nat.lt_trans hlt (hd.1 c hc')
        · exact heq
        · have h1 := h b
          rw [readByte_of_lt (m := (a, v) :: m) (a := b)] at h1
          · simp only [readByte, if_true] at h1
            exact absurd h1.symm (hn.2 (b, u) (by simp)).2
          · intro c hc'
            rcases List.mem_cons.1 hc' with hc' | hc'
            · simpa [hc'] using hgt
            · exact Nat.lt_trans hgt (hc.1 c hc')
      subst hab
      have hvu : v = u := by simpa [readByte] using h a
      subst hvu
      have : m = n := by
        refine ih ⟨hc.2, fun c hc' => hm.2 c (List.mem_cons_of_mem _ hc')⟩
          ⟨hd.2, fun c hc' => hn.2 c (List.mem_cons_of_mem _ hc')⟩ ?_
        intro x
        by_cases hx : a = x
        · subst hx
          rw [readByte_of_lt (fun c hc' => hc.1 c hc'), readByte_of_lt (fun c hc' => hd.1 c hc')]
        · have := h x
          simpa [readByte, hx] using this
      rw [this]

end Sys2Proof.Machine
end

