-- ==== Sys2Proof/Laws/Pairs.lean ====
section
/-! SUPPORT. The pairs of a buffer command: the free choice of one, the set of those transferred, their numbers, and the
addresses they read and write. -/

namespace Sys2Proof.Machine

open Sys2Proof.Config

/-! The free choice (42_transform_engine R126). -/

theorem le_freePair (l : List Nat) (j : Nat) : j ≤ freePair l j := by
  induction l generalizing j with
  | nil => exact Nat.le_refl _
  | cons u l ih =>
    unfold freePair
    split
    · exact Nat.le_trans (Nat.le_succ j) (ih (j + 1))
    · exact Nat.le_refl _

theorem freePair_le (l : List Nat) (j : Nat) : freePair l j ≤ j + l.length := by
  induction l generalizing j with
  | nil => simp [freePair]
  | cons u l ih =>
    unfold freePair
    split
    · have := ih (j + 1)
      simp only [List.length_cons]
      omega
    · omega

/-- The pair picked is free. -/
theorem freePair_notMem {l : List Nat} (h : l.Pairwise (fun t u => t < u)) (j : Nat) : freePair l j ∉ l := by
  induction l generalizing j with
  | nil => simp
  | cons u l ih =>
    have hu := List.pairwise_cons.1 h
    unfold freePair
    split
    · have h1 := le_freePair l (j + 1)
      have h2 := ih hu.2 (j + 1)
      simp only [List.mem_cons, not_or]
      exact ⟨by omega, h2⟩
    · simp only [List.mem_cons, not_or]
      refine ⟨by omega, fun hm => ?_⟩
      have := hu.1 _ hm
      omega

/-- How many pairs of a list come before t. -/
def countBelow (l : List Nat) (t : Nat) : Nat := (l.filter (fun u => decide (u < t))).length

theorem countBelow_le {l : List Nat} (h : l.Pairwise (fun t u => t < u)) {b t : Nat} (hb : ∀ u ∈ l, b ≤ u) :
    countBelow l t ≤ t - b := by
  induction l generalizing b with
  | nil => simp [countBelow]
  | cons u l ih =>
    have hu := List.pairwise_cons.1 h
    have h1 := ih hu.2 (b := u + 1) (fun x hx => hu.1 x hx)
    have h2 := hb u (by simp)
    unfold countBelow at *
    simp only [List.filter_cons]
    split
    · rename_i hlt
      simp only [decide_eq_true_eq] at hlt
      simp only [List.length_cons]
      omega
    · omega

/-- Every free pair is picked by some choice. -/
theorem freePair_countBelow {l : List Nat} (h : l.Pairwise (fun t u => t < u)) {t : Nat} (ht : t ∉ l) :
    freePair l (t - countBelow l t) = t := by
  induction l generalizing t with
  | nil => simp [countBelow, freePair]
  | cons u l ih =>
    have hu := List.pairwise_cons.1 h
    simp only [List.mem_cons, not_or] at ht
    have hc := countBelow_le hu.2 (b := u + 1) (t := t) (fun x hx => hu.1 x hx)
    have hih := ih hu.2 ht.2
    unfold countBelow at *
    simp only [List.filter_cons]
    unfold freePair
    by_cases hlt : u < t
    · simp only [hlt, decide_true, if_true, List.length_cons]
      split
      · have : t - ((l.filter (fun u => decide (u < t))).length + 1) + 1
            = t - (l.filter (fun u => decide (u < t))).length := by omega
        rw [this, hih]
      · omega
    · have he : l.filter (fun u => decide (u < t)) = [] := by
        rw [List.filter_eq_nil_iff]
        intro x hx
        have := hu.1 x hx
        simp only [decide_eq_true_eq]
        omega
      simp only [hlt, decide_false, Bool.false_eq_true, if_false, he, List.length_nil, Nat.sub_zero]
      split
      · omega
      · rfl

theorem length_le_of_bounded {l : List Nat} (h : l.Pairwise (fun t u => t < u)) {b n : Nat} (hb : ∀ u ∈ l, b ≤ u)
    (hn : ∀ u ∈ l, u < n) : l.length ≤ n - b := by
  induction l generalizing b with
  | nil => simp
  | cons u l ih =>
    have hu := List.pairwise_cons.1 h
    have h1 := ih hu.2 (b := u + 1) (fun x hx => hu.1 x hx) (fun x hx => hn x (List.mem_cons_of_mem _ hx))
    have h2 := hb u (by simp)
    have h3 := hn u (by simp)
    simp only [List.length_cons]
    omega

theorem countBelow_bound {l : List Nat} (h : l.Pairwise (fun t u => t < u)) {t n : Nat} (ht : t ∉ l) (htn : t < n)
    (hn : ∀ u ∈ l, u < n) : t - countBelow l t < n - l.length := by
  have h1 : (l.filter (fun u => decide (t + 1 ≤ u))).length ≤ n - (t + 1) :=
    length_le_of_bounded (h.filter _) (fun u hu => by simpa using (List.mem_filter.1 hu).2)
      (fun u hu => hn u (List.mem_filter.1 hu).1)
  have h2 : l.length = countBelow l t + (l.filter (fun u => decide (t + 1 ≤ u))).length := by
    unfold countBelow
    rw [← List.countP_eq_length_filter, ← List.countP_eq_length_filter, List.length_eq_countP_add_countP (fun u => decide (u < t))]
    congr 1
    apply List.countP_congr
    intro x hx
    have : x ≠ t := fun e => ht (e ▸ hx)
    simp only [decide_eq_true_eq]
    omega
  have h3 := countBelow_le h (b := 0) (t := t) (fun u _ => Nat.zero_le u)
  omega

/-! The set of pairs transferred. -/

theorem mem_addPair (l : List Nat) (t x : Nat) : x ∈ addPair l t ↔ x = t ∨ x ∈ l := by
  induction l with
  | nil => simp [addPair]
  | cons u l ih =>
    unfold addPair
    split
    · simp
    · split
      · rename_i h
        subst h
        simp
      · simp only [List.mem_cons, ih]
        tauto

theorem addPair_pairwise {l : List Nat} (h : l.Pairwise (fun t u => t < u)) (t : Nat) :
    (addPair l t).Pairwise (fun t u => t < u) := by
  induction l with
  | nil => simp [addPair]
  | cons u l ih =>
    have hu := List.pairwise_cons.1 h
    unfold addPair
    split
    · rename_i htu
      refine List.pairwise_cons.2 ⟨fun x hx => ?_, h⟩
      rcases List.mem_cons.1 hx with hx | hx
      · omega
      · exact Nat.lt_trans htu (hu.1 x hx)
    · split
      · exact h
      · refine List.pairwise_cons.2 ⟨fun x hx => ?_, ih hu.2⟩
        rcases (mem_addPair l t x).1 hx with hx | hx
        · omega
        · exact hu.1 x hx

theorem length_addPair {l : List Nat} {t : Nat} (ht : t ∉ l) : (addPair l t).length = l.length + 1 := by
  induction l with
  | nil => rfl
  | cons u l ih =>
    simp only [List.mem_cons, not_or] at ht
    unfold addPair
    split
    · rfl
    · split
      · rename_i h
        exact absurd h ht.1
      · simp [ih ht.2]

/-! Pair numbers (log 18: DESIGN CHOICE). -/

theorem planeCount_pos (d : DType) : 0 < planeCount d := by cases d <;> decide

@[simp] theorem pairElem_pairNumber (r : Running) {i p : Nat} (hp : p < planeCount r.dt) :
    pairElem r (pairNumber r i p) = i := by
  unfold pairElem pairNumber
  rw [Nat.add_comm, Nat.add_mul_div_right _ _ (planeCount_pos _), Nat.div_eq_of_lt hp, Nat.zero_add]

@[simp] theorem pairPlane_pairNumber (r : Running) {i p : Nat} (hp : p < planeCount r.dt) :
    pairPlane r (pairNumber r i p) = p := by
  unfold pairPlane pairNumber
  rw [Nat.add_comm, Nat.add_mul_mod_self_right, Nat.mod_eq_of_lt hp]

@[simp] theorem pairNumber_of (r : Running) (t : Nat) : pairNumber r (pairElem r t) (pairPlane r t) = t := by
  unfold pairNumber pairElem pairPlane
  rw [Nat.mul_comm]
  exact Nat.div_add_mod t _

theorem pairPlane_lt (r : Running) (t : Nat) : pairPlane r t < planeCount r.dt := Nat.mod_lt _ (planeCount_pos _)

theorem pairNumber_lt (r : Running) {i p : Nat} (hi : i < r.count.toNat) (hp : p < planeCount r.dt) :
    pairNumber r i p < pairTotal r := by
  unfold pairNumber pairTotal
  calc i * planeCount r.dt + p < i * planeCount r.dt + planeCount r.dt := by omega
    _ = (i + 1) * planeCount r.dt := by rw [Nat.add_mul, Nat.one_mul]
    _ ≤ r.count.toNat * planeCount r.dt := Nat.mul_le_mul_right _ hi

theorem pairElem_lt (r : Running) {t : Nat} (h : t < pairTotal r) : pairElem r t < r.count.toNat :=
  Nat.div_lt_of_lt_mul (by rw [Nat.mul_comm]; exact h)

/-- Byte p of element i lies at offset pairNumber i p of the element buffer. -/
theorem elemByteAddr_eq (r : Running) (t : Nat) : elemByteAddr r (pairElem r t) (pairPlane r t) = r.ebuf.toNat + t := by
  have h := pairNumber_of r t
  unfold pairNumber at h
  unfold elemByteAddr
  rw [Nat.add_assoc, Nat.mul_comm (elemBytes r.dt)]
  exact congrArg _ h

/-! Regions (42_transform_engine R121). -/

theorem inRegion_iff (q : Region) (a : Nat) : inRegion q a = true ↔ q.base ≤ a ∧ a < q.base + q.len := by
  simp only [inRegion, Bool.and_eq_true, decide_eq_true_eq]
  rfl

/-- The interval test finds every shared address. -/
theorem not_intersects {q r : Region} (h : intersects q r = false) {a : Nat} (hq : inRegion q a = true) :
    inRegion r a = false := by
  by_contra hc
  rw [Bool.not_eq_false] at hc
  rw [inRegion_iff] at hq hc
  simp only [intersects, Bool.and_eq_false_iff, decide_eq_false_iff_not] at h
  unfold regionEnd at h
  omega

theorem intersects_of_share {q r : Region} {a : Nat} (hq : inRegion q a = true) (hr : inRegion r a = true) :
    intersects q r = true := by
  by_contra hc
  rw [Bool.not_eq_true] at hc
  simp [not_intersects hc hq] at hr

theorem anyIntersect_eq_false (l : List Region) :
    anyIntersect l = false ↔ l.Pairwise (fun q r => intersects q r = false) := by
  induction l with
  | nil => simp [anyIntersect]
  | cons q l ih => simp [anyIntersect, List.pairwise_cons, ih]

theorem length_planeBases (d : DType) (s : State) : (planeBases d s).length = planeCount d := by cases d <;> rfl

/-! Addresses of pairs. -/

theorem mem_elemPairs (r : Running) (a t : Nat) :
    t ∈ elemPairs r a ↔ t < pairTotal r ∧ elemByteAddr r (pairElem r t) (pairPlane r t) = a := by
  have hk := planeCount_pos r.dt
  have hdiv := Nat.div_add_mod (a - r.ebuf.toNat) (elemBytes r.dt)
  rw [elemByteAddr_eq]
  unfold elemPairs
  split
  · rename_i h
    rw [inRegion_iff] at h
    simp only [latchedElem] at h
    have hn : pairNumber r ((a - r.ebuf.toNat) / elemBytes r.dt) ((a - r.ebuf.toNat) % elemBytes r.dt)
        = a - r.ebuf.toNat := by
      unfold pairNumber
      rw [Nat.mul_comm]
      exact hdiv
    rw [hn, List.mem_singleton]
    have htot : pairTotal r = r.count.toNat * elemBytes r.dt := rfl
    rw [htot]
    omega
  · rename_i h
    rw [inRegion_iff] at h
    simp only [latchedElem] at h
    have htot : pairTotal r = r.count.toNat * elemBytes r.dt := rfl
    rw [htot]
    simp only [List.not_mem_nil, false_iff]
    omega

theorem mem_planePairs (r : Running) (a t : Nat) :
    t ∈ planePairs r a ↔ t < pairTotal r ∧ planeByteAddr r (pairElem r t) (pairPlane r t) = a := by
  unfold planePairs
  simp only [List.mem_map, List.mem_filter, List.mem_range, inRegion_iff, latchedPlane]
  constructor
  · rintro ⟨p, ⟨hp, h1, h2⟩, rfl⟩
    refine ⟨pairNumber_lt r (by omega) hp, ?_⟩
    rw [pairElem_pairNumber r hp, pairPlane_pairNumber r hp]
    unfold planeByteAddr
    omega
  · rintro ⟨ht, rfl⟩
    refine ⟨pairPlane r t, ⟨pairPlane_lt r t, ?_⟩, ?_⟩
    · have := pairElem_lt r ht
      unfold planeByteAddr
      omega
    · unfold planeByteAddr
      rw [Nat.add_sub_cancel_left]
      exact pairNumber_of r t

/-- The pairs that read an address are those whose source it is. -/
theorem mem_pairsReading (r : Running) (a t : Nat) : t ∈ pairsReading r a ↔ t < pairTotal r ∧ pairSrc r t = a := by
  unfold pairsReading pairSrc
  cases r.op <;> simp [mem_elemPairs, mem_planePairs]

/-- The pairs that write an address are those whose destination it is. -/
theorem mem_pairsWriting (r : Running) (a t : Nat) : t ∈ pairsWriting r a ↔ t < pairTotal r ∧ pairDst r t = a := by
  unfold pairsWriting pairDst
  cases r.op <;> simp [mem_elemPairs, mem_planePairs]

theorem isDestination_iff (r : Running) (a : Nat) : isDestination r a = true ↔ ∃ t, t < pairTotal r ∧ pairDst r t = a := by
  simp only [isDestination, Bool.not_eq_true', List.isEmpty_eq_false_iff_exists_mem, mem_pairsWriting]

theorem isSource_iff (r : Running) (a : Nat) : isSource r a = true ↔ ∃ t, t < pairTotal r ∧ pairSrc r t = a := by
  simp only [isSource, Bool.not_eq_true', List.isEmpty_eq_false_iff_exists_mem, mem_pairsReading]

/-! What the invariant says of a running command's operands. -/

theorem runningOk_iff (p : Platform) (r : Running) :
    runningOk p r = true ↔ operandsOk p r = true ∧ progressOk r = true ∧ racesOk r = true := by
  simp [runningOk, and_assoc]

theorem operandsOk_iff (p : Platform) (r : Running) :
    operandsOk p r = true ↔ 0 < r.count.toNat ∧ r.pb.length = planeCount r.dt
      ∧ (∀ q ∈ runningRegions r, regionEnd q ≤ spaceSize) ∧ regionsApart r = true
      ∧ (∀ q ∈ runningRegions r, intersects (window p) q = false)
      ∧ (∀ q ∈ runningRegions r, ∀ v ∈ p.devices, intersects q v = false) := by
  simp [operandsOk, and_assoc]

theorem progressOk_iff (r : Running) :
    progressOk r = true ↔ r.done.Pairwise (fun t u => t < u) ∧ (∀ t ∈ r.done, t < pairTotal r)
      ∧ r.done.length < pairTotal r := by
  simp [progressOk, and_assoc]

theorem racesOk_iff (r : Running) :
    racesOk r = true ↔ Memory.wf r.before = true
      ∧ ∀ c ∈ r.hostWrites, isDestination r c.1 = true ∨ isSource r c.1 = true := by
  simp [racesOk]

theorem elemByte_inRegion (r : Running) {t : Nat} (h : t < pairTotal r) :
    inRegion (latchedElem r) (elemByteAddr r (pairElem r t) (pairPlane r t)) = true := by
  rw [inRegion_iff, elemByteAddr_eq]
  have : pairTotal r = r.count.toNat * elemBytes r.dt := rfl
  simp only [latchedElem]
  omega

theorem planeByte_inRegion (r : Running) {t : Nat} (h : t < pairTotal r) :
    inRegion (latchedPlane r (pairPlane r t)) (planeByteAddr r (pairElem r t) (pairPlane r t)) = true := by
  rw [inRegion_iff]
  have := pairElem_lt r h
  simp only [latchedPlane, planeByteAddr]
  omega

theorem latchedPlane_mem (r : Running) {p : Nat} (h : p < planeCount r.dt) : latchedPlane r p ∈ latchedPlanes r :=
  List.mem_map.2 ⟨p, List.mem_range.2 h, rfl⟩

/-- Byte addresses of a running command's pairs are addresses of the space (20_memory R58). -/
theorem pair_lt_space {p : Platform} {r : Running} (h : operandsOk p r = true) {t : Nat} (ht : t < pairTotal r) :
    pairSrc r t < spaceSize ∧ pairDst r t < spaceSize := by
  have hfit := ((operandsOk_iff p r).1 h).2.2.1
  have he := (inRegion_iff _ _).1 (elemByte_inRegion r ht)
  have hp := (inRegion_iff _ _).1 (planeByte_inRegion r ht)
  have he' := hfit (latchedElem r) (by simp [runningRegions])
  have hp' := hfit _ (List.mem_cons_of_mem _ (latchedPlane_mem r (pairPlane_lt r t)))
  unfold regionEnd at he' hp'
  unfold pairSrc pairDst
  cases r.op <;> constructor <;> dsimp only <;> omega

/-- E and the planes of a running command are apart. -/
theorem elem_plane_apart {r : Running} (h : regionsApart r = true) {p : Nat} (hp : p < planeCount r.dt) :
    intersects (latchedElem r) (latchedPlane r p) = false := by
  unfold regionsApart at h
  cases hop : r.op with
  | forward =>
    rw [hop] at h
    simp only [Bool.not_eq_true', anyIntersect_eq_false, runningRegions, List.pairwise_cons] at h
    exact h.1 _ (latchedPlane_mem r hp)
  | inverse =>
    rw [hop] at h
    simp only [Bool.not_eq_true', List.any_eq_false, Bool.not_eq_true] at h
    exact h _ (latchedPlane_mem r hp)

/-- The planes of a running FORWARD are apart. -/
theorem planes_apart {r : Running} (h : regionsApart r = true) (hop : r.op = .forward) {p q : Nat} (hpq : p < q)
    (hq : q < planeCount r.dt) : intersects (latchedPlane r p) (latchedPlane r q) = false := by
  unfold regionsApart at h
  rw [hop] at h
  simp only [Bool.not_eq_true', anyIntersect_eq_false, runningRegions, List.pairwise_cons, latchedPlanes] at h
  have h2 := h.2
  rw [List.pairwise_map, List.pairwise_iff_getElem] at h2
  have := h2 p q (by simp; omega) (by simpa using hq) hpq
  simpa using this

/-- No pair reads a byte that some pair writes. -/
theorem pairSrc_ne_pairDst {r : Running} (h : regionsApart r = true) {t u : Nat} (ht : t < pairTotal r)
    (hu : u < pairTotal r) : pairSrc r t ≠ pairDst r u := by
  intro he
  unfold pairSrc pairDst at he
  cases hop : r.op with
  | forward =>
    rw [hop] at he
    have h1 := elemByte_inRegion r ht
    have h2 := planeByte_inRegion r hu
    dsimp only at he
    rw [he] at h1
    rw [not_intersects (elem_plane_apart h (pairPlane_lt r u)) h1] at h2
    simp at h2
  | inverse =>
    rw [hop] at he
    have h1 := planeByte_inRegion r ht
    have h2 := elemByte_inRegion r hu
    dsimp only at he
    rw [← he] at h2
    rw [not_intersects (elem_plane_apart h (pairPlane_lt r t)) h2] at h1
    simp at h1

/-- Two pairs with one destination are one pair. -/
theorem pairDst_injective {r : Running} (h : regionsApart r = true) {t u : Nat} (ht : t < pairTotal r)
    (hu : u < pairTotal r) (he : pairDst r t = pairDst r u) : t = u := by
  unfold pairDst at he
  cases hop : r.op with
  | forward =>
    rw [hop] at he
    dsimp only at he
    have h1 := planeByte_inRegion r ht
    have h2 := planeByte_inRegion r hu
    have hplane : pairPlane r t = pairPlane r u := by
      rcases Nat.lt_trichotomy (pairPlane r t) (pairPlane r u) with hlt | heq | hgt
      · rw [he] at h1
        rw [not_intersects (planes_apart h hop hlt (pairPlane_lt r u)) h1] at h2
        simp at h2
      · exact heq
      · rw [← he] at h2
        rw [not_intersects (planes_apart h hop hgt (pairPlane_lt r t)) h2] at h1
        simp at h1
    have helem : pairElem r t = pairElem r u := by
      unfold planeByteAddr at he
      rw [hplane] at he
      omega
    rw [← pairNumber_of r t, ← pairNumber_of r u, hplane, helem]
  | inverse =>
    rw [hop] at he
    dsimp only at he
    rw [elemByteAddr_eq, elemByteAddr_eq] at he
    omega

/-- The pair an engine step picks is free and is one of the command's. -/
theorem pickPair_free {r : Running} (h : progressOk r = true) (s : State) :
    pickPair r s ∉ r.done ∧ pickPair r s < pairTotal r := by
  rw [progressOk_iff] at h
  refine ⟨freePair_notMem h.1 _, ?_⟩
  have h1 := freePair_le r.done (drawAt s 0 % (pairTotal r - r.done.length))
  have h2 := Nat.mod_lt (drawAt s 0) (show 0 < pairTotal r - r.done.length by omega)
  unfold pickPair
  omega

/-! The orders of the two paths. -/

theorem mem_elementPairs (r : Running) (i t : Nat) : t ∈ elementPairs r i ↔ pairElem r t = i := by
  unfold elementPairs
  simp only [List.mem_map, List.mem_range]
  constructor
  · rintro ⟨p, hp, rfl⟩
    exact pairElem_pairNumber r hp
  · rintro rfl
    exact ⟨pairPlane r t, pairPlane_lt r t, pairNumber_of r t⟩

/-- The bytes a command writes and reads are those of its regions (42_transform_engine R121). -/
theorem destination_or_source_iff (r : Running) (a : Nat) :
    isDestination r a = true ∨ isSource r a = true ↔ ∃ q ∈ runningRegions r, inRegion q a = true := by
  rw [isDestination_iff, isSource_iff]
  constructor
  · intro h
    have : ∃ t, t < pairTotal r ∧ (elemByteAddr r (pairElem r t) (pairPlane r t) = a
        ∨ planeByteAddr r (pairElem r t) (pairPlane r t) = a) := by
      rcases h with ⟨t, ht, he⟩ | ⟨t, ht, he⟩ <;> refine ⟨t, ht, ?_⟩
      · unfold pairDst at he; cases h : r.op <;> rw [h] at he <;> first | exact .inl he | exact .inr he
      · unfold pairSrc at he; cases h : r.op <;> rw [h] at he <;> first | exact .inl he | exact .inr he
    obtain ⟨t, ht, rfl | rfl⟩ := this
    · exact ⟨_, List.mem_cons_self .., elemByte_inRegion r ht⟩
    · exact ⟨_, List.mem_cons_of_mem _ (latchedPlane_mem r (pairPlane_lt r t)), planeByte_inRegion r ht⟩
  · rintro ⟨q, hq, ha⟩
    have hex : (∃ t, t < pairTotal r ∧ elemByteAddr r (pairElem r t) (pairPlane r t) = a)
        ∨ (∃ t, t < pairTotal r ∧ planeByteAddr r (pairElem r t) (pairPlane r t) = a) := by
      rcases List.mem_cons.1 hq with rfl | hq
      · left
        obtain ⟨h1, h2⟩ := (inRegion_iff _ a).1 ha
        refine ⟨a - r.ebuf.toNat, ?_, ?_⟩
        · have : (latchedElem r).len = pairTotal r := rfl
          have : (latchedElem r).base = r.ebuf.toNat := rfl
          omega
        · rw [elemByteAddr_eq]
          have : (latchedElem r).base = r.ebuf.toNat := rfl
          omega
      · right
        obtain ⟨p, hp, rfl⟩ := List.mem_map.1 hq
        have hp := List.mem_range.1 hp
        obtain ⟨h1, h2⟩ := (inRegion_iff _ a).1 ha
        have e1 : (latchedPlane r p).base = planeBase r p := rfl
        have e2 : (latchedPlane r p).len = r.count.toNat := rfl
        refine ⟨pairNumber r (a - planeBase r p) p, pairNumber_lt r (by omega) hp, ?_⟩
        rw [pairElem_pairNumber r hp, pairPlane_pairNumber r hp]
        unfold planeByteAddr; omega
    unfold pairDst pairSrc
    cases h : r.op
    · exact hex.symm
    · exact hex

/-- An address outside a command's regions is none of its sources or destinations. -/
theorem outside_regions {r : Running} {a : Nat} (h : ∀ q ∈ runningRegions r, inRegion q a = false) :
    isDestination r a = false ∧ isSource r a = false := by
  have : ¬ (isDestination r a = true ∨ isSource r a = true) := by
    rw [destination_or_source_iff]
    rintro ⟨q, hq, hh⟩
    rw [h q hq] at hh
    cases hh
  simpa [not_or] using this

end Sys2Proof.Machine
end

