-- ==== Sys2Proof/Laws/State.lean ====
section
/-! SUPPORT. One lemma per field per update of State: no later proof unfolds a record update. -/

namespace Sys2Proof.Machine

/-! setCmd -/
@[simp] theorem State.setCmd_cmd (s : State) (v : Word) : (s.setCmd v).cmd = v := rfl
@[simp] theorem State.setCmd_status (s : State) (v : Word) : (s.setCmd v).status = s.status := rfl
@[simp] theorem State.setCmd_cap (s : State) (v : Word) : (s.setCmd v).cap = s.cap := rfl
@[simp] theorem State.setCmd_errAddr (s : State) (v : Word) : (s.setCmd v).errAddr = s.errAddr := rfl
@[simp] theorem State.setCmd_elem (s : State) (v : Word) : (s.setCmd v).elem = s.elem := rfl
@[simp] theorem State.setCmd_planes (s : State) (v : Word) : (s.setCmd v).planes = s.planes := rfl
@[simp] theorem State.setCmd_result (s : State) (v : Word) : (s.setCmd v).result = s.result := rfl
@[simp] theorem State.setCmd_count (s : State) (v : Word) : (s.setCmd v).count = s.count := rfl
@[simp] theorem State.setCmd_len (s : State) (v : Word) : (s.setCmd v).len = s.len := rfl
@[simp] theorem State.setCmd_ebuf (s : State) (v : Word) : (s.setCmd v).ebuf = s.ebuf := rfl
@[simp] theorem State.setCmd_pb0 (s : State) (v : Word) : (s.setCmd v).pb0 = s.pb0 := rfl
@[simp] theorem State.setCmd_pb1 (s : State) (v : Word) : (s.setCmd v).pb1 = s.pb1 := rfl
@[simp] theorem State.setCmd_pb2 (s : State) (v : Word) : (s.setCmd v).pb2 = s.pb2 := rfl
@[simp] theorem State.setCmd_pb3 (s : State) (v : Word) : (s.setCmd v).pb3 = s.pb3 := rfl
@[simp] theorem State.setCmd_run (s : State) (v : Word) : (s.setCmd v).run = s.run := rfl
@[simp] theorem State.setCmd_unseen (s : State) (v : Word) : (s.setCmd v).unseen = s.unseen := rfl
@[simp] theorem State.setCmd_inReset (s : State) (v : Word) : (s.setCmd v).inReset = s.inReset := rfl
@[simp] theorem State.setCmd_mem (s : State) (v : Word) : (s.setCmd v).mem = s.mem := rfl
@[simp] theorem State.setCmd_program (s : State) (v : Word) : (s.setCmd v).program = s.program := rfl
@[simp] theorem State.setCmd_reply (s : State) (v : Word) : (s.setCmd v).reply = s.reply := rfl
@[simp] theorem State.setCmd_schedule (s : State) (v : Word) : (s.setCmd v).schedule = s.schedule := rfl
@[simp] theorem State.setCmd_draws (s : State) (v : Word) : (s.setCmd v).draws = s.draws := rfl
@[simp] theorem State.setCmd_platform (s : State) (v : Word) : (s.setCmd v).platform = s.platform := rfl

/-! setStatus -/
@[simp] theorem State.setStatus_cmd (s : State) (v : Word) : (s.setStatus v).cmd = s.cmd := rfl
@[simp] theorem State.setStatus_status (s : State) (v : Word) : (s.setStatus v).status = v := rfl
@[simp] theorem State.setStatus_cap (s : State) (v : Word) : (s.setStatus v).cap = s.cap := rfl
@[simp] theorem State.setStatus_errAddr (s : State) (v : Word) : (s.setStatus v).errAddr = s.errAddr := rfl
@[simp] theorem State.setStatus_elem (s : State) (v : Word) : (s.setStatus v).elem = s.elem := rfl
@[simp] theorem State.setStatus_planes (s : State) (v : Word) : (s.setStatus v).planes = s.planes := rfl
@[simp] theorem State.setStatus_result (s : State) (v : Word) : (s.setStatus v).result = s.result := rfl
@[simp] theorem State.setStatus_count (s : State) (v : Word) : (s.setStatus v).count = s.count := rfl
@[simp] theorem State.setStatus_len (s : State) (v : Word) : (s.setStatus v).len = s.len := rfl
@[simp] theorem State.setStatus_ebuf (s : State) (v : Word) : (s.setStatus v).ebuf = s.ebuf := rfl
@[simp] theorem State.setStatus_pb0 (s : State) (v : Word) : (s.setStatus v).pb0 = s.pb0 := rfl
@[simp] theorem State.setStatus_pb1 (s : State) (v : Word) : (s.setStatus v).pb1 = s.pb1 := rfl
@[simp] theorem State.setStatus_pb2 (s : State) (v : Word) : (s.setStatus v).pb2 = s.pb2 := rfl
@[simp] theorem State.setStatus_pb3 (s : State) (v : Word) : (s.setStatus v).pb3 = s.pb3 := rfl
@[simp] theorem State.setStatus_run (s : State) (v : Word) : (s.setStatus v).run = s.run := rfl
@[simp] theorem State.setStatus_unseen (s : State) (v : Word) : (s.setStatus v).unseen = s.unseen := rfl
@[simp] theorem State.setStatus_inReset (s : State) (v : Word) : (s.setStatus v).inReset = s.inReset := rfl
@[simp] theorem State.setStatus_mem (s : State) (v : Word) : (s.setStatus v).mem = s.mem := rfl
@[simp] theorem State.setStatus_program (s : State) (v : Word) : (s.setStatus v).program = s.program := rfl
@[simp] theorem State.setStatus_reply (s : State) (v : Word) : (s.setStatus v).reply = s.reply := rfl
@[simp] theorem State.setStatus_schedule (s : State) (v : Word) : (s.setStatus v).schedule = s.schedule := rfl
@[simp] theorem State.setStatus_draws (s : State) (v : Word) : (s.setStatus v).draws = s.draws := rfl
@[simp] theorem State.setStatus_platform (s : State) (v : Word) : (s.setStatus v).platform = s.platform := rfl

/-! setErrAddr -/
@[simp] theorem State.setErrAddr_cmd (s : State) (v : Word) : (s.setErrAddr v).cmd = s.cmd := rfl
@[simp] theorem State.setErrAddr_status (s : State) (v : Word) : (s.setErrAddr v).status = s.status := rfl
@[simp] theorem State.setErrAddr_cap (s : State) (v : Word) : (s.setErrAddr v).cap = s.cap := rfl
@[simp] theorem State.setErrAddr_errAddr (s : State) (v : Word) : (s.setErrAddr v).errAddr = v := rfl
@[simp] theorem State.setErrAddr_elem (s : State) (v : Word) : (s.setErrAddr v).elem = s.elem := rfl
@[simp] theorem State.setErrAddr_planes (s : State) (v : Word) : (s.setErrAddr v).planes = s.planes := rfl
@[simp] theorem State.setErrAddr_result (s : State) (v : Word) : (s.setErrAddr v).result = s.result := rfl
@[simp] theorem State.setErrAddr_count (s : State) (v : Word) : (s.setErrAddr v).count = s.count := rfl
@[simp] theorem State.setErrAddr_len (s : State) (v : Word) : (s.setErrAddr v).len = s.len := rfl
@[simp] theorem State.setErrAddr_ebuf (s : State) (v : Word) : (s.setErrAddr v).ebuf = s.ebuf := rfl
@[simp] theorem State.setErrAddr_pb0 (s : State) (v : Word) : (s.setErrAddr v).pb0 = s.pb0 := rfl
@[simp] theorem State.setErrAddr_pb1 (s : State) (v : Word) : (s.setErrAddr v).pb1 = s.pb1 := rfl
@[simp] theorem State.setErrAddr_pb2 (s : State) (v : Word) : (s.setErrAddr v).pb2 = s.pb2 := rfl
@[simp] theorem State.setErrAddr_pb3 (s : State) (v : Word) : (s.setErrAddr v).pb3 = s.pb3 := rfl
@[simp] theorem State.setErrAddr_run (s : State) (v : Word) : (s.setErrAddr v).run = s.run := rfl
@[simp] theorem State.setErrAddr_unseen (s : State) (v : Word) : (s.setErrAddr v).unseen = s.unseen := rfl
@[simp] theorem State.setErrAddr_inReset (s : State) (v : Word) : (s.setErrAddr v).inReset = s.inReset := rfl
@[simp] theorem State.setErrAddr_mem (s : State) (v : Word) : (s.setErrAddr v).mem = s.mem := rfl
@[simp] theorem State.setErrAddr_program (s : State) (v : Word) : (s.setErrAddr v).program = s.program := rfl
@[simp] theorem State.setErrAddr_reply (s : State) (v : Word) : (s.setErrAddr v).reply = s.reply := rfl
@[simp] theorem State.setErrAddr_schedule (s : State) (v : Word) : (s.setErrAddr v).schedule = s.schedule := rfl
@[simp] theorem State.setErrAddr_draws (s : State) (v : Word) : (s.setErrAddr v).draws = s.draws := rfl
@[simp] theorem State.setErrAddr_platform (s : State) (v : Word) : (s.setErrAddr v).platform = s.platform := rfl

/-! setElem -/
@[simp] theorem State.setElem_cmd (s : State) (v : Word) : (s.setElem v).cmd = s.cmd := rfl
@[simp] theorem State.setElem_status (s : State) (v : Word) : (s.setElem v).status = s.status := rfl
@[simp] theorem State.setElem_cap (s : State) (v : Word) : (s.setElem v).cap = s.cap := rfl
@[simp] theorem State.setElem_errAddr (s : State) (v : Word) : (s.setElem v).errAddr = s.errAddr := rfl
@[simp] theorem State.setElem_elem (s : State) (v : Word) : (s.setElem v).elem = v := rfl
@[simp] theorem State.setElem_planes (s : State) (v : Word) : (s.setElem v).planes = s.planes := rfl
@[simp] theorem State.setElem_result (s : State) (v : Word) : (s.setElem v).result = s.result := rfl
@[simp] theorem State.setElem_count (s : State) (v : Word) : (s.setElem v).count = s.count := rfl
@[simp] theorem State.setElem_len (s : State) (v : Word) : (s.setElem v).len = s.len := rfl
@[simp] theorem State.setElem_ebuf (s : State) (v : Word) : (s.setElem v).ebuf = s.ebuf := rfl
@[simp] theorem State.setElem_pb0 (s : State) (v : Word) : (s.setElem v).pb0 = s.pb0 := rfl
@[simp] theorem State.setElem_pb1 (s : State) (v : Word) : (s.setElem v).pb1 = s.pb1 := rfl
@[simp] theorem State.setElem_pb2 (s : State) (v : Word) : (s.setElem v).pb2 = s.pb2 := rfl
@[simp] theorem State.setElem_pb3 (s : State) (v : Word) : (s.setElem v).pb3 = s.pb3 := rfl
@[simp] theorem State.setElem_run (s : State) (v : Word) : (s.setElem v).run = s.run := rfl
@[simp] theorem State.setElem_unseen (s : State) (v : Word) : (s.setElem v).unseen = s.unseen := rfl
@[simp] theorem State.setElem_inReset (s : State) (v : Word) : (s.setElem v).inReset = s.inReset := rfl
@[simp] theorem State.setElem_mem (s : State) (v : Word) : (s.setElem v).mem = s.mem := rfl
@[simp] theorem State.setElem_program (s : State) (v : Word) : (s.setElem v).program = s.program := rfl
@[simp] theorem State.setElem_reply (s : State) (v : Word) : (s.setElem v).reply = s.reply := rfl
@[simp] theorem State.setElem_schedule (s : State) (v : Word) : (s.setElem v).schedule = s.schedule := rfl
@[simp] theorem State.setElem_draws (s : State) (v : Word) : (s.setElem v).draws = s.draws := rfl
@[simp] theorem State.setElem_platform (s : State) (v : Word) : (s.setElem v).platform = s.platform := rfl

/-! setPlanes -/
@[simp] theorem State.setPlanes_cmd (s : State) (v : Word) : (s.setPlanes v).cmd = s.cmd := rfl
@[simp] theorem State.setPlanes_status (s : State) (v : Word) : (s.setPlanes v).status = s.status := rfl
@[simp] theorem State.setPlanes_cap (s : State) (v : Word) : (s.setPlanes v).cap = s.cap := rfl
@[simp] theorem State.setPlanes_errAddr (s : State) (v : Word) : (s.setPlanes v).errAddr = s.errAddr := rfl
@[simp] theorem State.setPlanes_elem (s : State) (v : Word) : (s.setPlanes v).elem = s.elem := rfl
@[simp] theorem State.setPlanes_planes (s : State) (v : Word) : (s.setPlanes v).planes = v := rfl
@[simp] theorem State.setPlanes_result (s : State) (v : Word) : (s.setPlanes v).result = s.result := rfl
@[simp] theorem State.setPlanes_count (s : State) (v : Word) : (s.setPlanes v).count = s.count := rfl
@[simp] theorem State.setPlanes_len (s : State) (v : Word) : (s.setPlanes v).len = s.len := rfl
@[simp] theorem State.setPlanes_ebuf (s : State) (v : Word) : (s.setPlanes v).ebuf = s.ebuf := rfl
@[simp] theorem State.setPlanes_pb0 (s : State) (v : Word) : (s.setPlanes v).pb0 = s.pb0 := rfl
@[simp] theorem State.setPlanes_pb1 (s : State) (v : Word) : (s.setPlanes v).pb1 = s.pb1 := rfl
@[simp] theorem State.setPlanes_pb2 (s : State) (v : Word) : (s.setPlanes v).pb2 = s.pb2 := rfl
@[simp] theorem State.setPlanes_pb3 (s : State) (v : Word) : (s.setPlanes v).pb3 = s.pb3 := rfl
@[simp] theorem State.setPlanes_run (s : State) (v : Word) : (s.setPlanes v).run = s.run := rfl
@[simp] theorem State.setPlanes_unseen (s : State) (v : Word) : (s.setPlanes v).unseen = s.unseen := rfl
@[simp] theorem State.setPlanes_inReset (s : State) (v : Word) : (s.setPlanes v).inReset = s.inReset := rfl
@[simp] theorem State.setPlanes_mem (s : State) (v : Word) : (s.setPlanes v).mem = s.mem := rfl
@[simp] theorem State.setPlanes_program (s : State) (v : Word) : (s.setPlanes v).program = s.program := rfl
@[simp] theorem State.setPlanes_reply (s : State) (v : Word) : (s.setPlanes v).reply = s.reply := rfl
@[simp] theorem State.setPlanes_schedule (s : State) (v : Word) : (s.setPlanes v).schedule = s.schedule := rfl
@[simp] theorem State.setPlanes_draws (s : State) (v : Word) : (s.setPlanes v).draws = s.draws := rfl
@[simp] theorem State.setPlanes_platform (s : State) (v : Word) : (s.setPlanes v).platform = s.platform := rfl

/-! setResult -/
@[simp] theorem State.setResult_cmd (s : State) (v : Word) : (s.setResult v).cmd = s.cmd := rfl
@[simp] theorem State.setResult_status (s : State) (v : Word) : (s.setResult v).status = s.status := rfl
@[simp] theorem State.setResult_cap (s : State) (v : Word) : (s.setResult v).cap = s.cap := rfl
@[simp] theorem State.setResult_errAddr (s : State) (v : Word) : (s.setResult v).errAddr = s.errAddr := rfl
@[simp] theorem State.setResult_elem (s : State) (v : Word) : (s.setResult v).elem = s.elem := rfl
@[simp] theorem State.setResult_planes (s : State) (v : Word) : (s.setResult v).planes = s.planes := rfl
@[simp] theorem State.setResult_result (s : State) (v : Word) : (s.setResult v).result = v := rfl
@[simp] theorem State.setResult_count (s : State) (v : Word) : (s.setResult v).count = s.count := rfl
@[simp] theorem State.setResult_len (s : State) (v : Word) : (s.setResult v).len = s.len := rfl
@[simp] theorem State.setResult_ebuf (s : State) (v : Word) : (s.setResult v).ebuf = s.ebuf := rfl
@[simp] theorem State.setResult_pb0 (s : State) (v : Word) : (s.setResult v).pb0 = s.pb0 := rfl
@[simp] theorem State.setResult_pb1 (s : State) (v : Word) : (s.setResult v).pb1 = s.pb1 := rfl
@[simp] theorem State.setResult_pb2 (s : State) (v : Word) : (s.setResult v).pb2 = s.pb2 := rfl
@[simp] theorem State.setResult_pb3 (s : State) (v : Word) : (s.setResult v).pb3 = s.pb3 := rfl
@[simp] theorem State.setResult_run (s : State) (v : Word) : (s.setResult v).run = s.run := rfl
@[simp] theorem State.setResult_unseen (s : State) (v : Word) : (s.setResult v).unseen = s.unseen := rfl
@[simp] theorem State.setResult_inReset (s : State) (v : Word) : (s.setResult v).inReset = s.inReset := rfl
@[simp] theorem State.setResult_mem (s : State) (v : Word) : (s.setResult v).mem = s.mem := rfl
@[simp] theorem State.setResult_program (s : State) (v : Word) : (s.setResult v).program = s.program := rfl
@[simp] theorem State.setResult_reply (s : State) (v : Word) : (s.setResult v).reply = s.reply := rfl
@[simp] theorem State.setResult_schedule (s : State) (v : Word) : (s.setResult v).schedule = s.schedule := rfl
@[simp] theorem State.setResult_draws (s : State) (v : Word) : (s.setResult v).draws = s.draws := rfl
@[simp] theorem State.setResult_platform (s : State) (v : Word) : (s.setResult v).platform = s.platform := rfl

/-! setCount -/
@[simp] theorem State.setCount_cmd (s : State) (v : Word) : (s.setCount v).cmd = s.cmd := rfl
@[simp] theorem State.setCount_status (s : State) (v : Word) : (s.setCount v).status = s.status := rfl
@[simp] theorem State.setCount_cap (s : State) (v : Word) : (s.setCount v).cap = s.cap := rfl
@[simp] theorem State.setCount_errAddr (s : State) (v : Word) : (s.setCount v).errAddr = s.errAddr := rfl
@[simp] theorem State.setCount_elem (s : State) (v : Word) : (s.setCount v).elem = s.elem := rfl
@[simp] theorem State.setCount_planes (s : State) (v : Word) : (s.setCount v).planes = s.planes := rfl
@[simp] theorem State.setCount_result (s : State) (v : Word) : (s.setCount v).result = s.result := rfl
@[simp] theorem State.setCount_count (s : State) (v : Word) : (s.setCount v).count = v := rfl
@[simp] theorem State.setCount_len (s : State) (v : Word) : (s.setCount v).len = s.len := rfl
@[simp] theorem State.setCount_ebuf (s : State) (v : Word) : (s.setCount v).ebuf = s.ebuf := rfl
@[simp] theorem State.setCount_pb0 (s : State) (v : Word) : (s.setCount v).pb0 = s.pb0 := rfl
@[simp] theorem State.setCount_pb1 (s : State) (v : Word) : (s.setCount v).pb1 = s.pb1 := rfl
@[simp] theorem State.setCount_pb2 (s : State) (v : Word) : (s.setCount v).pb2 = s.pb2 := rfl
@[simp] theorem State.setCount_pb3 (s : State) (v : Word) : (s.setCount v).pb3 = s.pb3 := rfl
@[simp] theorem State.setCount_run (s : State) (v : Word) : (s.setCount v).run = s.run := rfl
@[simp] theorem State.setCount_unseen (s : State) (v : Word) : (s.setCount v).unseen = s.unseen := rfl
@[simp] theorem State.setCount_inReset (s : State) (v : Word) : (s.setCount v).inReset = s.inReset := rfl
@[simp] theorem State.setCount_mem (s : State) (v : Word) : (s.setCount v).mem = s.mem := rfl
@[simp] theorem State.setCount_program (s : State) (v : Word) : (s.setCount v).program = s.program := rfl
@[simp] theorem State.setCount_reply (s : State) (v : Word) : (s.setCount v).reply = s.reply := rfl
@[simp] theorem State.setCount_schedule (s : State) (v : Word) : (s.setCount v).schedule = s.schedule := rfl
@[simp] theorem State.setCount_draws (s : State) (v : Word) : (s.setCount v).draws = s.draws := rfl
@[simp] theorem State.setCount_platform (s : State) (v : Word) : (s.setCount v).platform = s.platform := rfl

/-! setLen -/
@[simp] theorem State.setLen_cmd (s : State) (v : Word) : (s.setLen v).cmd = s.cmd := rfl
@[simp] theorem State.setLen_status (s : State) (v : Word) : (s.setLen v).status = s.status := rfl
@[simp] theorem State.setLen_cap (s : State) (v : Word) : (s.setLen v).cap = s.cap := rfl
@[simp] theorem State.setLen_errAddr (s : State) (v : Word) : (s.setLen v).errAddr = s.errAddr := rfl
@[simp] theorem State.setLen_elem (s : State) (v : Word) : (s.setLen v).elem = s.elem := rfl
@[simp] theorem State.setLen_planes (s : State) (v : Word) : (s.setLen v).planes = s.planes := rfl
@[simp] theorem State.setLen_result (s : State) (v : Word) : (s.setLen v).result = s.result := rfl
@[simp] theorem State.setLen_count (s : State) (v : Word) : (s.setLen v).count = s.count := rfl
@[simp] theorem State.setLen_len (s : State) (v : Word) : (s.setLen v).len = v := rfl
@[simp] theorem State.setLen_ebuf (s : State) (v : Word) : (s.setLen v).ebuf = s.ebuf := rfl
@[simp] theorem State.setLen_pb0 (s : State) (v : Word) : (s.setLen v).pb0 = s.pb0 := rfl
@[simp] theorem State.setLen_pb1 (s : State) (v : Word) : (s.setLen v).pb1 = s.pb1 := rfl
@[simp] theorem State.setLen_pb2 (s : State) (v : Word) : (s.setLen v).pb2 = s.pb2 := rfl
@[simp] theorem State.setLen_pb3 (s : State) (v : Word) : (s.setLen v).pb3 = s.pb3 := rfl
@[simp] theorem State.setLen_run (s : State) (v : Word) : (s.setLen v).run = s.run := rfl
@[simp] theorem State.setLen_unseen (s : State) (v : Word) : (s.setLen v).unseen = s.unseen := rfl
@[simp] theorem State.setLen_inReset (s : State) (v : Word) : (s.setLen v).inReset = s.inReset := rfl
@[simp] theorem State.setLen_mem (s : State) (v : Word) : (s.setLen v).mem = s.mem := rfl
@[simp] theorem State.setLen_program (s : State) (v : Word) : (s.setLen v).program = s.program := rfl
@[simp] theorem State.setLen_reply (s : State) (v : Word) : (s.setLen v).reply = s.reply := rfl
@[simp] theorem State.setLen_schedule (s : State) (v : Word) : (s.setLen v).schedule = s.schedule := rfl
@[simp] theorem State.setLen_draws (s : State) (v : Word) : (s.setLen v).draws = s.draws := rfl
@[simp] theorem State.setLen_platform (s : State) (v : Word) : (s.setLen v).platform = s.platform := rfl

/-! setEbuf -/
@[simp] theorem State.setEbuf_cmd (s : State) (v : Word) : (s.setEbuf v).cmd = s.cmd := rfl
@[simp] theorem State.setEbuf_status (s : State) (v : Word) : (s.setEbuf v).status = s.status := rfl
@[simp] theorem State.setEbuf_cap (s : State) (v : Word) : (s.setEbuf v).cap = s.cap := rfl
@[simp] theorem State.setEbuf_errAddr (s : State) (v : Word) : (s.setEbuf v).errAddr = s.errAddr := rfl
@[simp] theorem State.setEbuf_elem (s : State) (v : Word) : (s.setEbuf v).elem = s.elem := rfl
@[simp] theorem State.setEbuf_planes (s : State) (v : Word) : (s.setEbuf v).planes = s.planes := rfl
@[simp] theorem State.setEbuf_result (s : State) (v : Word) : (s.setEbuf v).result = s.result := rfl
@[simp] theorem State.setEbuf_count (s : State) (v : Word) : (s.setEbuf v).count = s.count := rfl
@[simp] theorem State.setEbuf_len (s : State) (v : Word) : (s.setEbuf v).len = s.len := rfl
@[simp] theorem State.setEbuf_ebuf (s : State) (v : Word) : (s.setEbuf v).ebuf = v := rfl
@[simp] theorem State.setEbuf_pb0 (s : State) (v : Word) : (s.setEbuf v).pb0 = s.pb0 := rfl
@[simp] theorem State.setEbuf_pb1 (s : State) (v : Word) : (s.setEbuf v).pb1 = s.pb1 := rfl
@[simp] theorem State.setEbuf_pb2 (s : State) (v : Word) : (s.setEbuf v).pb2 = s.pb2 := rfl
@[simp] theorem State.setEbuf_pb3 (s : State) (v : Word) : (s.setEbuf v).pb3 = s.pb3 := rfl
@[simp] theorem State.setEbuf_run (s : State) (v : Word) : (s.setEbuf v).run = s.run := rfl
@[simp] theorem State.setEbuf_unseen (s : State) (v : Word) : (s.setEbuf v).unseen = s.unseen := rfl
@[simp] theorem State.setEbuf_inReset (s : State) (v : Word) : (s.setEbuf v).inReset = s.inReset := rfl
@[simp] theorem State.setEbuf_mem (s : State) (v : Word) : (s.setEbuf v).mem = s.mem := rfl
@[simp] theorem State.setEbuf_program (s : State) (v : Word) : (s.setEbuf v).program = s.program := rfl
@[simp] theorem State.setEbuf_reply (s : State) (v : Word) : (s.setEbuf v).reply = s.reply := rfl
@[simp] theorem State.setEbuf_schedule (s : State) (v : Word) : (s.setEbuf v).schedule = s.schedule := rfl
@[simp] theorem State.setEbuf_draws (s : State) (v : Word) : (s.setEbuf v).draws = s.draws := rfl
@[simp] theorem State.setEbuf_platform (s : State) (v : Word) : (s.setEbuf v).platform = s.platform := rfl

/-! setPb0 -/
@[simp] theorem State.setPb0_cmd (s : State) (v : Word) : (s.setPb0 v).cmd = s.cmd := rfl
@[simp] theorem State.setPb0_status (s : State) (v : Word) : (s.setPb0 v).status = s.status := rfl
@[simp] theorem State.setPb0_cap (s : State) (v : Word) : (s.setPb0 v).cap = s.cap := rfl
@[simp] theorem State.setPb0_errAddr (s : State) (v : Word) : (s.setPb0 v).errAddr = s.errAddr := rfl
@[simp] theorem State.setPb0_elem (s : State) (v : Word) : (s.setPb0 v).elem = s.elem := rfl
@[simp] theorem State.setPb0_planes (s : State) (v : Word) : (s.setPb0 v).planes = s.planes := rfl
@[simp] theorem State.setPb0_result (s : State) (v : Word) : (s.setPb0 v).result = s.result := rfl
@[simp] theorem State.setPb0_count (s : State) (v : Word) : (s.setPb0 v).count = s.count := rfl
@[simp] theorem State.setPb0_len (s : State) (v : Word) : (s.setPb0 v).len = s.len := rfl
@[simp] theorem State.setPb0_ebuf (s : State) (v : Word) : (s.setPb0 v).ebuf = s.ebuf := rfl
@[simp] theorem State.setPb0_pb0 (s : State) (v : Word) : (s.setPb0 v).pb0 = v := rfl
@[simp] theorem State.setPb0_pb1 (s : State) (v : Word) : (s.setPb0 v).pb1 = s.pb1 := rfl
@[simp] theorem State.setPb0_pb2 (s : State) (v : Word) : (s.setPb0 v).pb2 = s.pb2 := rfl
@[simp] theorem State.setPb0_pb3 (s : State) (v : Word) : (s.setPb0 v).pb3 = s.pb3 := rfl
@[simp] theorem State.setPb0_run (s : State) (v : Word) : (s.setPb0 v).run = s.run := rfl
@[simp] theorem State.setPb0_unseen (s : State) (v : Word) : (s.setPb0 v).unseen = s.unseen := rfl
@[simp] theorem State.setPb0_inReset (s : State) (v : Word) : (s.setPb0 v).inReset = s.inReset := rfl
@[simp] theorem State.setPb0_mem (s : State) (v : Word) : (s.setPb0 v).mem = s.mem := rfl
@[simp] theorem State.setPb0_program (s : State) (v : Word) : (s.setPb0 v).program = s.program := rfl
@[simp] theorem State.setPb0_reply (s : State) (v : Word) : (s.setPb0 v).reply = s.reply := rfl
@[simp] theorem State.setPb0_schedule (s : State) (v : Word) : (s.setPb0 v).schedule = s.schedule := rfl
@[simp] theorem State.setPb0_draws (s : State) (v : Word) : (s.setPb0 v).draws = s.draws := rfl
@[simp] theorem State.setPb0_platform (s : State) (v : Word) : (s.setPb0 v).platform = s.platform := rfl

/-! setPb1 -/
@[simp] theorem State.setPb1_cmd (s : State) (v : Word) : (s.setPb1 v).cmd = s.cmd := rfl
@[simp] theorem State.setPb1_status (s : State) (v : Word) : (s.setPb1 v).status = s.status := rfl
@[simp] theorem State.setPb1_cap (s : State) (v : Word) : (s.setPb1 v).cap = s.cap := rfl
@[simp] theorem State.setPb1_errAddr (s : State) (v : Word) : (s.setPb1 v).errAddr = s.errAddr := rfl
@[simp] theorem State.setPb1_elem (s : State) (v : Word) : (s.setPb1 v).elem = s.elem := rfl
@[simp] theorem State.setPb1_planes (s : State) (v : Word) : (s.setPb1 v).planes = s.planes := rfl
@[simp] theorem State.setPb1_result (s : State) (v : Word) : (s.setPb1 v).result = s.result := rfl
@[simp] theorem State.setPb1_count (s : State) (v : Word) : (s.setPb1 v).count = s.count := rfl
@[simp] theorem State.setPb1_len (s : State) (v : Word) : (s.setPb1 v).len = s.len := rfl
@[simp] theorem State.setPb1_ebuf (s : State) (v : Word) : (s.setPb1 v).ebuf = s.ebuf := rfl
@[simp] theorem State.setPb1_pb0 (s : State) (v : Word) : (s.setPb1 v).pb0 = s.pb0 := rfl
@[simp] theorem State.setPb1_pb1 (s : State) (v : Word) : (s.setPb1 v).pb1 = v := rfl
@[simp] theorem State.setPb1_pb2 (s : State) (v : Word) : (s.setPb1 v).pb2 = s.pb2 := rfl
@[simp] theorem State.setPb1_pb3 (s : State) (v : Word) : (s.setPb1 v).pb3 = s.pb3 := rfl
@[simp] theorem State.setPb1_run (s : State) (v : Word) : (s.setPb1 v).run = s.run := rfl
@[simp] theorem State.setPb1_unseen (s : State) (v : Word) : (s.setPb1 v).unseen = s.unseen := rfl
@[simp] theorem State.setPb1_inReset (s : State) (v : Word) : (s.setPb1 v).inReset = s.inReset := rfl
@[simp] theorem State.setPb1_mem (s : State) (v : Word) : (s.setPb1 v).mem = s.mem := rfl
@[simp] theorem State.setPb1_program (s : State) (v : Word) : (s.setPb1 v).program = s.program := rfl
@[simp] theorem State.setPb1_reply (s : State) (v : Word) : (s.setPb1 v).reply = s.reply := rfl
@[simp] theorem State.setPb1_schedule (s : State) (v : Word) : (s.setPb1 v).schedule = s.schedule := rfl
@[simp] theorem State.setPb1_draws (s : State) (v : Word) : (s.setPb1 v).draws = s.draws := rfl
@[simp] theorem State.setPb1_platform (s : State) (v : Word) : (s.setPb1 v).platform = s.platform := rfl

/-! setPb2 -/
@[simp] theorem State.setPb2_cmd (s : State) (v : Word) : (s.setPb2 v).cmd = s.cmd := rfl
@[simp] theorem State.setPb2_status (s : State) (v : Word) : (s.setPb2 v).status = s.status := rfl
@[simp] theorem State.setPb2_cap (s : State) (v : Word) : (s.setPb2 v).cap = s.cap := rfl
@[simp] theorem State.setPb2_errAddr (s : State) (v : Word) : (s.setPb2 v).errAddr = s.errAddr := rfl
@[simp] theorem State.setPb2_elem (s : State) (v : Word) : (s.setPb2 v).elem = s.elem := rfl
@[simp] theorem State.setPb2_planes (s : State) (v : Word) : (s.setPb2 v).planes = s.planes := rfl
@[simp] theorem State.setPb2_result (s : State) (v : Word) : (s.setPb2 v).result = s.result := rfl
@[simp] theorem State.setPb2_count (s : State) (v : Word) : (s.setPb2 v).count = s.count := rfl
@[simp] theorem State.setPb2_len (s : State) (v : Word) : (s.setPb2 v).len = s.len := rfl
@[simp] theorem State.setPb2_ebuf (s : State) (v : Word) : (s.setPb2 v).ebuf = s.ebuf := rfl
@[simp] theorem State.setPb2_pb0 (s : State) (v : Word) : (s.setPb2 v).pb0 = s.pb0 := rfl
@[simp] theorem State.setPb2_pb1 (s : State) (v : Word) : (s.setPb2 v).pb1 = s.pb1 := rfl
@[simp] theorem State.setPb2_pb2 (s : State) (v : Word) : (s.setPb2 v).pb2 = v := rfl
@[simp] theorem State.setPb2_pb3 (s : State) (v : Word) : (s.setPb2 v).pb3 = s.pb3 := rfl
@[simp] theorem State.setPb2_run (s : State) (v : Word) : (s.setPb2 v).run = s.run := rfl
@[simp] theorem State.setPb2_unseen (s : State) (v : Word) : (s.setPb2 v).unseen = s.unseen := rfl
@[simp] theorem State.setPb2_inReset (s : State) (v : Word) : (s.setPb2 v).inReset = s.inReset := rfl
@[simp] theorem State.setPb2_mem (s : State) (v : Word) : (s.setPb2 v).mem = s.mem := rfl
@[simp] theorem State.setPb2_program (s : State) (v : Word) : (s.setPb2 v).program = s.program := rfl
@[simp] theorem State.setPb2_reply (s : State) (v : Word) : (s.setPb2 v).reply = s.reply := rfl
@[simp] theorem State.setPb2_schedule (s : State) (v : Word) : (s.setPb2 v).schedule = s.schedule := rfl
@[simp] theorem State.setPb2_draws (s : State) (v : Word) : (s.setPb2 v).draws = s.draws := rfl
@[simp] theorem State.setPb2_platform (s : State) (v : Word) : (s.setPb2 v).platform = s.platform := rfl

/-! setPb3 -/
@[simp] theorem State.setPb3_cmd (s : State) (v : Word) : (s.setPb3 v).cmd = s.cmd := rfl
@[simp] theorem State.setPb3_status (s : State) (v : Word) : (s.setPb3 v).status = s.status := rfl
@[simp] theorem State.setPb3_cap (s : State) (v : Word) : (s.setPb3 v).cap = s.cap := rfl
@[simp] theorem State.setPb3_errAddr (s : State) (v : Word) : (s.setPb3 v).errAddr = s.errAddr := rfl
@[simp] theorem State.setPb3_elem (s : State) (v : Word) : (s.setPb3 v).elem = s.elem := rfl
@[simp] theorem State.setPb3_planes (s : State) (v : Word) : (s.setPb3 v).planes = s.planes := rfl
@[simp] theorem State.setPb3_result (s : State) (v : Word) : (s.setPb3 v).result = s.result := rfl
@[simp] theorem State.setPb3_count (s : State) (v : Word) : (s.setPb3 v).count = s.count := rfl
@[simp] theorem State.setPb3_len (s : State) (v : Word) : (s.setPb3 v).len = s.len := rfl
@[simp] theorem State.setPb3_ebuf (s : State) (v : Word) : (s.setPb3 v).ebuf = s.ebuf := rfl
@[simp] theorem State.setPb3_pb0 (s : State) (v : Word) : (s.setPb3 v).pb0 = s.pb0 := rfl
@[simp] theorem State.setPb3_pb1 (s : State) (v : Word) : (s.setPb3 v).pb1 = s.pb1 := rfl
@[simp] theorem State.setPb3_pb2 (s : State) (v : Word) : (s.setPb3 v).pb2 = s.pb2 := rfl
@[simp] theorem State.setPb3_pb3 (s : State) (v : Word) : (s.setPb3 v).pb3 = v := rfl
@[simp] theorem State.setPb3_run (s : State) (v : Word) : (s.setPb3 v).run = s.run := rfl
@[simp] theorem State.setPb3_unseen (s : State) (v : Word) : (s.setPb3 v).unseen = s.unseen := rfl
@[simp] theorem State.setPb3_inReset (s : State) (v : Word) : (s.setPb3 v).inReset = s.inReset := rfl
@[simp] theorem State.setPb3_mem (s : State) (v : Word) : (s.setPb3 v).mem = s.mem := rfl
@[simp] theorem State.setPb3_program (s : State) (v : Word) : (s.setPb3 v).program = s.program := rfl
@[simp] theorem State.setPb3_reply (s : State) (v : Word) : (s.setPb3 v).reply = s.reply := rfl
@[simp] theorem State.setPb3_schedule (s : State) (v : Word) : (s.setPb3 v).schedule = s.schedule := rfl
@[simp] theorem State.setPb3_draws (s : State) (v : Word) : (s.setPb3 v).draws = s.draws := rfl
@[simp] theorem State.setPb3_platform (s : State) (v : Word) : (s.setPb3 v).platform = s.platform := rfl

/-! setRun -/
@[simp] theorem State.setRun_cmd (s : State) (v : Option Running) : (s.setRun v).cmd = s.cmd := rfl
@[simp] theorem State.setRun_status (s : State) (v : Option Running) : (s.setRun v).status = s.status := rfl
@[simp] theorem State.setRun_cap (s : State) (v : Option Running) : (s.setRun v).cap = s.cap := rfl
@[simp] theorem State.setRun_errAddr (s : State) (v : Option Running) : (s.setRun v).errAddr = s.errAddr := rfl
@[simp] theorem State.setRun_elem (s : State) (v : Option Running) : (s.setRun v).elem = s.elem := rfl
@[simp] theorem State.setRun_planes (s : State) (v : Option Running) : (s.setRun v).planes = s.planes := rfl
@[simp] theorem State.setRun_result (s : State) (v : Option Running) : (s.setRun v).result = s.result := rfl
@[simp] theorem State.setRun_count (s : State) (v : Option Running) : (s.setRun v).count = s.count := rfl
@[simp] theorem State.setRun_len (s : State) (v : Option Running) : (s.setRun v).len = s.len := rfl
@[simp] theorem State.setRun_ebuf (s : State) (v : Option Running) : (s.setRun v).ebuf = s.ebuf := rfl
@[simp] theorem State.setRun_pb0 (s : State) (v : Option Running) : (s.setRun v).pb0 = s.pb0 := rfl
@[simp] theorem State.setRun_pb1 (s : State) (v : Option Running) : (s.setRun v).pb1 = s.pb1 := rfl
@[simp] theorem State.setRun_pb2 (s : State) (v : Option Running) : (s.setRun v).pb2 = s.pb2 := rfl
@[simp] theorem State.setRun_pb3 (s : State) (v : Option Running) : (s.setRun v).pb3 = s.pb3 := rfl
@[simp] theorem State.setRun_run (s : State) (v : Option Running) : (s.setRun v).run = v := rfl
@[simp] theorem State.setRun_unseen (s : State) (v : Option Running) : (s.setRun v).unseen = s.unseen := rfl
@[simp] theorem State.setRun_inReset (s : State) (v : Option Running) : (s.setRun v).inReset = s.inReset := rfl
@[simp] theorem State.setRun_mem (s : State) (v : Option Running) : (s.setRun v).mem = s.mem := rfl
@[simp] theorem State.setRun_program (s : State) (v : Option Running) : (s.setRun v).program = s.program := rfl
@[simp] theorem State.setRun_reply (s : State) (v : Option Running) : (s.setRun v).reply = s.reply := rfl
@[simp] theorem State.setRun_schedule (s : State) (v : Option Running) : (s.setRun v).schedule = s.schedule := rfl
@[simp] theorem State.setRun_draws (s : State) (v : Option Running) : (s.setRun v).draws = s.draws := rfl
@[simp] theorem State.setRun_platform (s : State) (v : Option Running) : (s.setRun v).platform = s.platform := rfl

/-! setUnseen -/
@[simp] theorem State.setUnseen_cmd (s : State) (v : List Running) : (s.setUnseen v).cmd = s.cmd := rfl
@[simp] theorem State.setUnseen_status (s : State) (v : List Running) : (s.setUnseen v).status = s.status := rfl
@[simp] theorem State.setUnseen_cap (s : State) (v : List Running) : (s.setUnseen v).cap = s.cap := rfl
@[simp] theorem State.setUnseen_errAddr (s : State) (v : List Running) : (s.setUnseen v).errAddr = s.errAddr := rfl
@[simp] theorem State.setUnseen_elem (s : State) (v : List Running) : (s.setUnseen v).elem = s.elem := rfl
@[simp] theorem State.setUnseen_planes (s : State) (v : List Running) : (s.setUnseen v).planes = s.planes := rfl
@[simp] theorem State.setUnseen_result (s : State) (v : List Running) : (s.setUnseen v).result = s.result := rfl
@[simp] theorem State.setUnseen_count (s : State) (v : List Running) : (s.setUnseen v).count = s.count := rfl
@[simp] theorem State.setUnseen_len (s : State) (v : List Running) : (s.setUnseen v).len = s.len := rfl
@[simp] theorem State.setUnseen_ebuf (s : State) (v : List Running) : (s.setUnseen v).ebuf = s.ebuf := rfl
@[simp] theorem State.setUnseen_pb0 (s : State) (v : List Running) : (s.setUnseen v).pb0 = s.pb0 := rfl
@[simp] theorem State.setUnseen_pb1 (s : State) (v : List Running) : (s.setUnseen v).pb1 = s.pb1 := rfl
@[simp] theorem State.setUnseen_pb2 (s : State) (v : List Running) : (s.setUnseen v).pb2 = s.pb2 := rfl
@[simp] theorem State.setUnseen_pb3 (s : State) (v : List Running) : (s.setUnseen v).pb3 = s.pb3 := rfl
@[simp] theorem State.setUnseen_run (s : State) (v : List Running) : (s.setUnseen v).run = s.run := rfl
@[simp] theorem State.setUnseen_unseen (s : State) (v : List Running) : (s.setUnseen v).unseen = v := rfl
@[simp] theorem State.setUnseen_inReset (s : State) (v : List Running) : (s.setUnseen v).inReset = s.inReset := rfl
@[simp] theorem State.setUnseen_mem (s : State) (v : List Running) : (s.setUnseen v).mem = s.mem := rfl
@[simp] theorem State.setUnseen_program (s : State) (v : List Running) : (s.setUnseen v).program = s.program := rfl
@[simp] theorem State.setUnseen_reply (s : State) (v : List Running) : (s.setUnseen v).reply = s.reply := rfl
@[simp] theorem State.setUnseen_schedule (s : State) (v : List Running) : (s.setUnseen v).schedule = s.schedule := rfl
@[simp] theorem State.setUnseen_draws (s : State) (v : List Running) : (s.setUnseen v).draws = s.draws := rfl
@[simp] theorem State.setUnseen_platform (s : State) (v : List Running) : (s.setUnseen v).platform = s.platform := rfl

/-! setMem -/
@[simp] theorem State.setMem_cmd (s : State) (v : List Host.Cell) : (s.setMem v).cmd = s.cmd := rfl
@[simp] theorem State.setMem_status (s : State) (v : List Host.Cell) : (s.setMem v).status = s.status := rfl
@[simp] theorem State.setMem_cap (s : State) (v : List Host.Cell) : (s.setMem v).cap = s.cap := rfl
@[simp] theorem State.setMem_errAddr (s : State) (v : List Host.Cell) : (s.setMem v).errAddr = s.errAddr := rfl
@[simp] theorem State.setMem_elem (s : State) (v : List Host.Cell) : (s.setMem v).elem = s.elem := rfl
@[simp] theorem State.setMem_planes (s : State) (v : List Host.Cell) : (s.setMem v).planes = s.planes := rfl
@[simp] theorem State.setMem_result (s : State) (v : List Host.Cell) : (s.setMem v).result = s.result := rfl
@[simp] theorem State.setMem_count (s : State) (v : List Host.Cell) : (s.setMem v).count = s.count := rfl
@[simp] theorem State.setMem_len (s : State) (v : List Host.Cell) : (s.setMem v).len = s.len := rfl
@[simp] theorem State.setMem_ebuf (s : State) (v : List Host.Cell) : (s.setMem v).ebuf = s.ebuf := rfl
@[simp] theorem State.setMem_pb0 (s : State) (v : List Host.Cell) : (s.setMem v).pb0 = s.pb0 := rfl
@[simp] theorem State.setMem_pb1 (s : State) (v : List Host.Cell) : (s.setMem v).pb1 = s.pb1 := rfl
@[simp] theorem State.setMem_pb2 (s : State) (v : List Host.Cell) : (s.setMem v).pb2 = s.pb2 := rfl
@[simp] theorem State.setMem_pb3 (s : State) (v : List Host.Cell) : (s.setMem v).pb3 = s.pb3 := rfl
@[simp] theorem State.setMem_run (s : State) (v : List Host.Cell) : (s.setMem v).run = s.run := rfl
@[simp] theorem State.setMem_unseen (s : State) (v : List Host.Cell) : (s.setMem v).unseen = s.unseen := rfl
@[simp] theorem State.setMem_inReset (s : State) (v : List Host.Cell) : (s.setMem v).inReset = s.inReset := rfl
@[simp] theorem State.setMem_mem (s : State) (v : List Host.Cell) : (s.setMem v).mem = v := rfl
@[simp] theorem State.setMem_program (s : State) (v : List Host.Cell) : (s.setMem v).program = s.program := rfl
@[simp] theorem State.setMem_reply (s : State) (v : List Host.Cell) : (s.setMem v).reply = s.reply := rfl
@[simp] theorem State.setMem_schedule (s : State) (v : List Host.Cell) : (s.setMem v).schedule = s.schedule := rfl
@[simp] theorem State.setMem_draws (s : State) (v : List Host.Cell) : (s.setMem v).draws = s.draws := rfl
@[simp] theorem State.setMem_platform (s : State) (v : List Host.Cell) : (s.setMem v).platform = s.platform := rfl

/-! setProgram -/
@[simp] theorem State.setProgram_cmd (s : State) (v : List HostOp) : (s.setProgram v).cmd = s.cmd := rfl
@[simp] theorem State.setProgram_status (s : State) (v : List HostOp) : (s.setProgram v).status = s.status := rfl
@[simp] theorem State.setProgram_cap (s : State) (v : List HostOp) : (s.setProgram v).cap = s.cap := rfl
@[simp] theorem State.setProgram_errAddr (s : State) (v : List HostOp) : (s.setProgram v).errAddr = s.errAddr := rfl
@[simp] theorem State.setProgram_elem (s : State) (v : List HostOp) : (s.setProgram v).elem = s.elem := rfl
@[simp] theorem State.setProgram_planes (s : State) (v : List HostOp) : (s.setProgram v).planes = s.planes := rfl
@[simp] theorem State.setProgram_result (s : State) (v : List HostOp) : (s.setProgram v).result = s.result := rfl
@[simp] theorem State.setProgram_count (s : State) (v : List HostOp) : (s.setProgram v).count = s.count := rfl
@[simp] theorem State.setProgram_len (s : State) (v : List HostOp) : (s.setProgram v).len = s.len := rfl
@[simp] theorem State.setProgram_ebuf (s : State) (v : List HostOp) : (s.setProgram v).ebuf = s.ebuf := rfl
@[simp] theorem State.setProgram_pb0 (s : State) (v : List HostOp) : (s.setProgram v).pb0 = s.pb0 := rfl
@[simp] theorem State.setProgram_pb1 (s : State) (v : List HostOp) : (s.setProgram v).pb1 = s.pb1 := rfl
@[simp] theorem State.setProgram_pb2 (s : State) (v : List HostOp) : (s.setProgram v).pb2 = s.pb2 := rfl
@[simp] theorem State.setProgram_pb3 (s : State) (v : List HostOp) : (s.setProgram v).pb3 = s.pb3 := rfl
@[simp] theorem State.setProgram_run (s : State) (v : List HostOp) : (s.setProgram v).run = s.run := rfl
@[simp] theorem State.setProgram_unseen (s : State) (v : List HostOp) : (s.setProgram v).unseen = s.unseen := rfl
@[simp] theorem State.setProgram_inReset (s : State) (v : List HostOp) : (s.setProgram v).inReset = s.inReset := rfl
@[simp] theorem State.setProgram_mem (s : State) (v : List HostOp) : (s.setProgram v).mem = s.mem := rfl
@[simp] theorem State.setProgram_program (s : State) (v : List HostOp) : (s.setProgram v).program = v := rfl
@[simp] theorem State.setProgram_reply (s : State) (v : List HostOp) : (s.setProgram v).reply = s.reply := rfl
@[simp] theorem State.setProgram_schedule (s : State) (v : List HostOp) : (s.setProgram v).schedule = s.schedule := rfl
@[simp] theorem State.setProgram_draws (s : State) (v : List HostOp) : (s.setProgram v).draws = s.draws := rfl
@[simp] theorem State.setProgram_platform (s : State) (v : List HostOp) : (s.setProgram v).platform = s.platform := rfl

/-! setReply -/
@[simp] theorem State.setReply_cmd (s : State) (v : Reply) : (s.setReply v).cmd = s.cmd := rfl
@[simp] theorem State.setReply_status (s : State) (v : Reply) : (s.setReply v).status = s.status := rfl
@[simp] theorem State.setReply_cap (s : State) (v : Reply) : (s.setReply v).cap = s.cap := rfl
@[simp] theorem State.setReply_errAddr (s : State) (v : Reply) : (s.setReply v).errAddr = s.errAddr := rfl
@[simp] theorem State.setReply_elem (s : State) (v : Reply) : (s.setReply v).elem = s.elem := rfl
@[simp] theorem State.setReply_planes (s : State) (v : Reply) : (s.setReply v).planes = s.planes := rfl
@[simp] theorem State.setReply_result (s : State) (v : Reply) : (s.setReply v).result = s.result := rfl
@[simp] theorem State.setReply_count (s : State) (v : Reply) : (s.setReply v).count = s.count := rfl
@[simp] theorem State.setReply_len (s : State) (v : Reply) : (s.setReply v).len = s.len := rfl
@[simp] theorem State.setReply_ebuf (s : State) (v : Reply) : (s.setReply v).ebuf = s.ebuf := rfl
@[simp] theorem State.setReply_pb0 (s : State) (v : Reply) : (s.setReply v).pb0 = s.pb0 := rfl
@[simp] theorem State.setReply_pb1 (s : State) (v : Reply) : (s.setReply v).pb1 = s.pb1 := rfl
@[simp] theorem State.setReply_pb2 (s : State) (v : Reply) : (s.setReply v).pb2 = s.pb2 := rfl
@[simp] theorem State.setReply_pb3 (s : State) (v : Reply) : (s.setReply v).pb3 = s.pb3 := rfl
@[simp] theorem State.setReply_run (s : State) (v : Reply) : (s.setReply v).run = s.run := rfl
@[simp] theorem State.setReply_unseen (s : State) (v : Reply) : (s.setReply v).unseen = s.unseen := rfl
@[simp] theorem State.setReply_inReset (s : State) (v : Reply) : (s.setReply v).inReset = s.inReset := rfl
@[simp] theorem State.setReply_mem (s : State) (v : Reply) : (s.setReply v).mem = s.mem := rfl
@[simp] theorem State.setReply_program (s : State) (v : Reply) : (s.setReply v).program = s.program := rfl
@[simp] theorem State.setReply_reply (s : State) (v : Reply) : (s.setReply v).reply = some v := rfl
@[simp] theorem State.setReply_schedule (s : State) (v : Reply) : (s.setReply v).schedule = s.schedule := rfl
@[simp] theorem State.setReply_draws (s : State) (v : Reply) : (s.setReply v).draws = s.draws := rfl
@[simp] theorem State.setReply_platform (s : State) (v : Reply) : (s.setReply v).platform = s.platform := rfl

/-! setSchedule -/
@[simp] theorem State.setSchedule_cmd (s : State) (v : List Agent) : (s.setSchedule v).cmd = s.cmd := rfl
@[simp] theorem State.setSchedule_status (s : State) (v : List Agent) : (s.setSchedule v).status = s.status := rfl
@[simp] theorem State.setSchedule_cap (s : State) (v : List Agent) : (s.setSchedule v).cap = s.cap := rfl
@[simp] theorem State.setSchedule_errAddr (s : State) (v : List Agent) : (s.setSchedule v).errAddr = s.errAddr := rfl
@[simp] theorem State.setSchedule_elem (s : State) (v : List Agent) : (s.setSchedule v).elem = s.elem := rfl
@[simp] theorem State.setSchedule_planes (s : State) (v : List Agent) : (s.setSchedule v).planes = s.planes := rfl
@[simp] theorem State.setSchedule_result (s : State) (v : List Agent) : (s.setSchedule v).result = s.result := rfl
@[simp] theorem State.setSchedule_count (s : State) (v : List Agent) : (s.setSchedule v).count = s.count := rfl
@[simp] theorem State.setSchedule_len (s : State) (v : List Agent) : (s.setSchedule v).len = s.len := rfl
@[simp] theorem State.setSchedule_ebuf (s : State) (v : List Agent) : (s.setSchedule v).ebuf = s.ebuf := rfl
@[simp] theorem State.setSchedule_pb0 (s : State) (v : List Agent) : (s.setSchedule v).pb0 = s.pb0 := rfl
@[simp] theorem State.setSchedule_pb1 (s : State) (v : List Agent) : (s.setSchedule v).pb1 = s.pb1 := rfl
@[simp] theorem State.setSchedule_pb2 (s : State) (v : List Agent) : (s.setSchedule v).pb2 = s.pb2 := rfl
@[simp] theorem State.setSchedule_pb3 (s : State) (v : List Agent) : (s.setSchedule v).pb3 = s.pb3 := rfl
@[simp] theorem State.setSchedule_run (s : State) (v : List Agent) : (s.setSchedule v).run = s.run := rfl
@[simp] theorem State.setSchedule_unseen (s : State) (v : List Agent) : (s.setSchedule v).unseen = s.unseen := rfl
@[simp] theorem State.setSchedule_inReset (s : State) (v : List Agent) : (s.setSchedule v).inReset = s.inReset := rfl
@[simp] theorem State.setSchedule_mem (s : State) (v : List Agent) : (s.setSchedule v).mem = s.mem := rfl
@[simp] theorem State.setSchedule_program (s : State) (v : List Agent) : (s.setSchedule v).program = s.program := rfl
@[simp] theorem State.setSchedule_reply (s : State) (v : List Agent) : (s.setSchedule v).reply = s.reply := rfl
@[simp] theorem State.setSchedule_schedule (s : State) (v : List Agent) : (s.setSchedule v).schedule = v := rfl
@[simp] theorem State.setSchedule_draws (s : State) (v : List Agent) : (s.setSchedule v).draws = s.draws := rfl
@[simp] theorem State.setSchedule_platform (s : State) (v : List Agent) : (s.setSchedule v).platform = s.platform := rfl

/-! addDraws -/
@[simp] theorem State.addDraws_cmd (s : State) (v : Nat) : (s.addDraws v).cmd = s.cmd := rfl
@[simp] theorem State.addDraws_status (s : State) (v : Nat) : (s.addDraws v).status = s.status := rfl
@[simp] theorem State.addDraws_cap (s : State) (v : Nat) : (s.addDraws v).cap = s.cap := rfl
@[simp] theorem State.addDraws_errAddr (s : State) (v : Nat) : (s.addDraws v).errAddr = s.errAddr := rfl
@[simp] theorem State.addDraws_elem (s : State) (v : Nat) : (s.addDraws v).elem = s.elem := rfl
@[simp] theorem State.addDraws_planes (s : State) (v : Nat) : (s.addDraws v).planes = s.planes := rfl
@[simp] theorem State.addDraws_result (s : State) (v : Nat) : (s.addDraws v).result = s.result := rfl
@[simp] theorem State.addDraws_count (s : State) (v : Nat) : (s.addDraws v).count = s.count := rfl
@[simp] theorem State.addDraws_len (s : State) (v : Nat) : (s.addDraws v).len = s.len := rfl
@[simp] theorem State.addDraws_ebuf (s : State) (v : Nat) : (s.addDraws v).ebuf = s.ebuf := rfl
@[simp] theorem State.addDraws_pb0 (s : State) (v : Nat) : (s.addDraws v).pb0 = s.pb0 := rfl
@[simp] theorem State.addDraws_pb1 (s : State) (v : Nat) : (s.addDraws v).pb1 = s.pb1 := rfl
@[simp] theorem State.addDraws_pb2 (s : State) (v : Nat) : (s.addDraws v).pb2 = s.pb2 := rfl
@[simp] theorem State.addDraws_pb3 (s : State) (v : Nat) : (s.addDraws v).pb3 = s.pb3 := rfl
@[simp] theorem State.addDraws_run (s : State) (v : Nat) : (s.addDraws v).run = s.run := rfl
@[simp] theorem State.addDraws_unseen (s : State) (v : Nat) : (s.addDraws v).unseen = s.unseen := rfl
@[simp] theorem State.addDraws_inReset (s : State) (v : Nat) : (s.addDraws v).inReset = s.inReset := rfl
@[simp] theorem State.addDraws_mem (s : State) (v : Nat) : (s.addDraws v).mem = s.mem := rfl
@[simp] theorem State.addDraws_program (s : State) (v : Nat) : (s.addDraws v).program = s.program := rfl
@[simp] theorem State.addDraws_reply (s : State) (v : Nat) : (s.addDraws v).reply = s.reply := rfl
@[simp] theorem State.addDraws_schedule (s : State) (v : Nat) : (s.addDraws v).schedule = s.schedule := rfl
@[simp] theorem State.addDraws_draws (s : State) (v : Nat) : (s.addDraws v).draws = s.draws + v := rfl
@[simp] theorem State.addDraws_platform (s : State) (v : Nat) : (s.addDraws v).platform = s.platform := rfl

end Sys2Proof.Machine
end

