-- ==== Sys2Proof/Laws/Ops.lean ====
section
/-! SUPPORT. One lemma per shared operation of a CMD write: everything it can do. -/

namespace Sys2Proof.Machine

open Sys2Proof.Config

theorem acceptWord_busy (w : Word) (f : State → Host.Outcome State Fault Refusal) {s : State} (h : busy s = true) :
    acceptWord w f s = .next s := by
  simp [acceptWord, h]

theorem acceptWord_idle (w : Word) (f : State → Host.Outcome State Fault Refusal) {s : State} (h : busy s = false) :
    acceptWord w f s = f (s.setCmd w) := by
  simp [acceptWord, h]

theorem elementCommand_idle (w : Word) (f : State → State) {s : State} (h : busy s = false) :
    elementCommand w f s = .next ((f (s.setCmd w)).setStatus statusDone) :=
  acceptWord_idle w _ h

theorem rejectWord_idle (w : Word) (c : Cause) {s : State} (h : busy s = false) :
    rejectWord w c s = .next ((s.setCmd w).setStatus (statusInvalidInput c)) :=
  acceptWord_idle w _ h

/-! BUSY in each value STATUS is given. -/

@[simp] theorem statusBusyBit_done : statusBusyBit statusDone = false := by decide
@[simp] theorem statusBusyBit_busy : statusBusyBit statusBusy = true := by decide
@[simp] theorem statusBusyBit_reset : statusBusyBit 0 = false := by decide
@[simp] theorem statusBusyBit_invalidInput (c : Cause) : statusBusyBit (statusInvalidInput c) = false := by
  cases c <;> decide
@[simp] theorem statusBusyBit_busError (d : Dir) : statusBusyBit (statusBusError d) = false := by cases d <;> decide
@[simp] theorem busy_setStatus (s : State) (v : Word) : busy (s.setStatus v) = statusBusyBit v := rfl

/-! The writable data registers (10_state R23). -/

theorem writeRegister_elem (s : State) (v : Word) : writeRegister s 0x10 v = s.setElem v := rfl
theorem writeRegister_planes (s : State) (v : Word) : writeRegister s 0x14 v = s.setPlanes v := rfl
theorem writeRegister_count (s : State) (v : Word) : writeRegister s 0x1C v = s.setCount v := rfl
theorem writeRegister_len (s : State) (v : Word) : writeRegister s 0x20 v = s.setLen v := rfl
theorem writeRegister_ebuf (s : State) (v : Word) : writeRegister s 0x24 v = s.setEbuf v := rfl
theorem writeRegister_pb0 (s : State) (v : Word) : writeRegister s 0x28 v = s.setPb0 v := rfl
theorem writeRegister_pb1 (s : State) (v : Word) : writeRegister s 0x2C v = s.setPb1 v := rfl
theorem writeRegister_pb2 (s : State) (v : Word) : writeRegister s 0x30 v = s.setPb2 v := rfl
theorem writeRegister_pb3 (s : State) (v : Word) : writeRegister s 0x34 v = s.setPb3 v := rfl

/-- All that a register write can do: one data register takes the value, or nothing changes. -/
theorem writeRegister_cases (s : State) (offset : BitVec 8) (v : Word) :
    writeRegister s offset v = s ∨ writeRegister s offset v = s.setElem v
    ∨ (offset = 0x14 ∧ writeRegister s offset v = s.setPlanes v) ∨ writeRegister s offset v = s.setCount v
    ∨ writeRegister s offset v = s.setLen v ∨ writeRegister s offset v = s.setEbuf v ∨ writeRegister s offset v = s.setPb0 v
    ∨ writeRegister s offset v = s.setPb1 v ∨ writeRegister s offset v = s.setPb2 v
    ∨ writeRegister s offset v = s.setPb3 v := by
  unfold writeRegister
  split
  case h_2 h => exact .inr (.inr (.inl ⟨BitVec.eq_of_toNat_eq h, rfl⟩))
  all_goals simp

@[simp] theorem busy_setCmd (s : State) (w : Word) : busy (s.setCmd w) = busy s := rfl

/-- The operand checks let a command through exactly when its operands are those of 42_transform_engine R120. -/
theorem operandCheck_eq_none (op : BufferOp) (d : DType) (s : State) :
    operandCheck op d s = none ↔ s.count.toNat * elemBytes d = s.len.toNat
      ∧ (∀ q ∈ commandRegions d s, regionEnd q ≤ spaceSize) ∧ overlapForbidden op d s = false := by
  unfold operandCheck
  by_cases h1 : s.count.toNat * elemBytes d = s.len.toNat
  · by_cases h2 : (commandRegions d s).any (fun r => decide (spaceSize < regionEnd r)) = true
    · have : ¬ ∀ q ∈ commandRegions d s, regionEnd q ≤ spaceSize := by
        rw [List.any_eq_true] at h2
        obtain ⟨q, hq, hlt⟩ := h2
        intro h
        have := h q hq
        simp only [decide_eq_true_eq] at hlt
        omega
      simp [h1, h2, this]
    · have h3 : ∀ q ∈ commandRegions d s, regionEnd q ≤ spaceSize := by
        intro q hq
        by_contra hc
        exact h2 (List.any_eq_true.2 ⟨q, hq, by simpa using hc⟩)
      simp only [h1, ne_eq, not_true_eq_false, if_false, h2, true_and]
      by_cases h4 : overlapForbidden op d s = true
      · simp [h4]
      · simp [h4]
        exact h3
  · simp [h1]

/-- All that the host step of a buffer command can do. -/
theorem startBuffer_cases (op : BufferOp) (d : DType) (s : State) :
    (∃ c, operandCheck op d s = some c ∧ startBuffer op d s = .next (s.setStatus (statusInvalidInput c)))
    ∨ (operandCheck op d s = none ∧ s.count = 0 ∧ startBuffer op d s = .next (s.setStatus statusDone))
    ∨ (∃ f, startBuffer op d s = .refused f)
    ∨ (operandCheck op d s = none ∧ s.count ≠ 0
        ∧ (∀ q ∈ commandRegions d s, intersects (window s.platform) q = false)
        ∧ (∀ q ∈ commandRegions d s, ∀ v ∈ s.platform.devices, intersects q v = false)
        ∧ startBuffer op d s = .next ((s.setRun (some (latch op d s))).setStatus statusBusy)) := by
  unfold startBuffer
  cases hc : operandCheck op d s with
  | some c => exact .inl ⟨c, rfl, rfl⟩
  | none =>
    dsimp only
    by_cases h0 : s.count = 0
    · exact .inr (.inl ⟨rfl, h0, by rw [if_pos h0]⟩)
    · rw [if_neg h0]
      by_cases h1 : (commandRegions d s).any (intersects (window s.platform)) = true
      · exact .inr (.inr (.inl ⟨_, by rw [if_pos h1]⟩))
      · rw [if_neg h1]
        by_cases h2 : (commandRegions d s).any (fun r => s.platform.devices.any (intersects r)) = true
        · exact .inr (.inr (.inl ⟨_, by rw [if_pos h2]⟩))
        · refine .inr (.inr (.inr ⟨rfl, h0, ?_, ?_, by rw [if_neg h2]⟩))
          · simpa using h1
          · simpa using h2

/-- The operand checks do not read CMD. -/
@[simp] theorem operandCheck_setCmd (op : BufferOp) (d : DType) (s : State) (w : Word) :
    operandCheck op d (s.setCmd w) = operandCheck op d s := by
  cases d <;> rfl

@[simp] theorem commandRegions_setCmd (d : DType) (s : State) (w : Word) :
    commandRegions d (s.setCmd w) = commandRegions d s := by
  cases d <;> rfl

theorem startBuffer_of_reject {op : BufferOp} {d : DType} {s : State} {c : Cause} (h : operandCheck op d s = some c) :
    startBuffer op d s = .next (s.setStatus (statusInvalidInput c)) := by
  unfold startBuffer
  rw [h]
  rfl

theorem startBuffer_of_zero {op : BufferOp} {d : DType} {s : State} (h : operandCheck op d s = none) (h0 : s.count = 0) :
    startBuffer op d s = .next (s.setStatus statusDone) := by
  unfold startBuffer
  rw [h]
  exact if_pos h0

theorem startBuffer_of_plain {op : BufferOp} {d : DType} {s : State} (h : operandCheck op d s = none) (h0 : s.count ≠ 0)
    (hw : ∀ q ∈ commandRegions d s, intersects (window s.platform) q = false)
    (hd : ∀ q ∈ commandRegions d s, ∀ v ∈ s.platform.devices, intersects q v = false) :
    startBuffer op d s = .next ((s.setRun (some (latch op d s))).setStatus statusBusy) := by
  unfold startBuffer
  rw [h]
  dsimp only
  rw [if_neg h0, if_neg, if_neg]
  · simpa using hd
  · simpa using hw

theorem runningRegions_latch (op : BufferOp) (d : DType) (s : State)
    (h : s.count.toNat * elemBytes d = s.len.toNat) : runningRegions (latch op d s) = commandRegions d s := by
  unfold runningRegions commandRegions
  have h1 : latchedElem (latch op d s) = elemRegion s := by
    simp only [latchedElem, latch, elemRegion, h]
  have h2 : latchedPlanes (latch op d s) = planeRegions d s := by
    cases d <;> rfl
  rw [h1, h2]

/-- The hidden state of a command just accepted is in order. -/
theorem latch_runningOk {op : BufferOp} {d : DType} {s : State} (hm : Memory.wf s.mem = true)
    (hc : operandCheck op d s = none) (h0 : s.count ≠ 0)
    (hw : ∀ q ∈ commandRegions d s, intersects (window s.platform) q = false)
    (hd : ∀ q ∈ commandRegions d s, ∀ v ∈ s.platform.devices, intersects q v = false) :
    runningOk s.platform (latch op d s) = true := by
  obtain ⟨hlen, hfit, hov⟩ := (operandCheck_eq_none op d s).1 hc
  have hreg := runningRegions_latch op d s hlen
  have hpos : 0 < (latch op d s).count.toNat := by
    have : s.count.toNat ≠ 0 := fun h => h0 (BitVec.eq_of_toNat_eq h)
    simp only [latch]
    omega
  rw [runningOk_iff, operandsOk_iff, progressOk_iff, racesOk_iff, hreg]
  refine ⟨⟨hpos, length_planeBases d s, hfit, ?_, hw, hd⟩, ⟨?_, ?_, ?_⟩, ⟨hm, ?_⟩⟩
  · unfold regionsApart
    have h1 : latchedElem (latch op d s) = elemRegion s := by simp only [latchedElem, latch, elemRegion, hlen]
    have h2 : latchedPlanes (latch op d s) = planeRegions d s := by cases d <;> rfl
    rw [hreg, h1, h2]
    unfold overlapForbidden at hov
    cases op <;> simp only [latch, Bool.not_eq_true'] <;> exact hov
  · simp [latch]
  · simp [latch]
  · simp only [latch, List.length_nil, pairTotal]
    exact Nat.mul_pos hpos (planeCount_pos _)
  · simp [latch]

end Sys2Proof.Machine
end

