-- ==== Sys2Proof/Laws/Race.lean ====
section
/-! SUPPORT. What settling races and the host's memory accesses can do (20_memory R63). -/

namespace Sys2Proof.Machine

open Sys2Proof.Config

theorem choose_mem (n : Nat) (c : Byte) (cs : List Byte) : choose n c cs ∈ c :: cs := by
  unfold choose
  have h : n % (cs.length + 1) < (c :: cs).length := Nat.mod_lt _ (Nat.succ_pos _)
  rw [List.getD_eq_getElem _ _ h]
  exact List.getElem_mem h

/-- The values one raced byte is settled among. -/
def settleValues (cutShort : Bool) (r : Running) (d : Nat) : List Byte :=
  if cutShort then readByte r.before d :: finalValues r d else finalValues r d

/-- All that settling one byte can do. -/
theorem settleByte_cases (cutShort : Bool) (r : Running) (s : State) (d : Nat) :
    (settleValues cutShort r d = [] ∧ settleByte cutShort r s d = s)
    ∨ ∃ v ∈ settleValues cutShort r d, settleByte cutShort r s d = (s.setMem (writeByte s.mem d v)).addDraws 1 := by
  have h : settleByte cutShort r s d = (match settleValues cutShort r d with
      | [] => s
      | c :: cs => (s.setMem (writeByte s.mem d (choose (drawAt s 0) c cs))).addDraws 1) := rfl
  rw [h]
  cases settleValues cutShort r d with
  | nil => exact .inl ⟨rfl, rfl⟩
  | cons c cs => exact .inr ⟨_, choose_mem _ c cs, rfl⟩

/-- Settling changes memory and the count of draws, and nothing else. -/
theorem settleRaces_frame (cutShort : Bool) (r : Running) (s : State) :
    ∃ m n, settleRaces cutShort r s = (s.setMem m).addDraws n := by
  unfold settleRaces
  generalize racedBytes r = l
  induction l generalizing s with
  | nil => exact ⟨s.mem, 0, rfl⟩
  | cons d l ih =>
    rw [List.foldl_cons]
    obtain ⟨m, n, h⟩ := ih (settleByte cutShort r s d)
    rcases settleByte_cases cutShort r s d with ⟨_, he⟩ | ⟨v, _, he⟩
    · exact ⟨m, n, by rw [h, he]⟩
    · refine ⟨m, 1 + n, ?_⟩
      rw [h, he]
      simp only [State.addDraws, State.setMem, Nat.add_assoc]

/-- What memory reads after races are settled: a byte no host write raced with is as it was, and a raced one holds one of
the values it is settled among. -/
theorem readByte_settleRaces (cutShort : Bool) (r : Running) (s : State) (a : Nat) :
    (a ∉ racedBytes r → readByte (settleRaces cutShort r s).mem a = readByte s.mem a)
    ∧ (a ∈ racedBytes r → settleValues cutShort r a ≠ [] →
        readByte (settleRaces cutShort r s).mem a ∈ settleValues cutShort r a) := by
  have key : ∀ (l : List Nat) (s : State),
      (a ∉ l → readByte (l.foldl (settleByte cutShort r) s).mem a = readByte s.mem a)
      ∧ (settleValues cutShort r a ≠ [] → (a ∈ l ∨ readByte s.mem a ∈ settleValues cutShort r a) →
          readByte (l.foldl (settleByte cutShort r) s).mem a ∈ settleValues cutShort r a) := by
    intro l
    induction l with
    | nil => exact fun s => ⟨fun _ => rfl, fun _ h => by simpa using h⟩
    | cons d l ih =>
      intro s
      rw [List.foldl_cons]
      have hi := ih (settleByte cutShort r s d)
      constructor
      · intro ha
        simp only [List.mem_cons, not_or] at ha
        rw [hi.1 ha.2]
        rcases settleByte_cases cutShort r s d with ⟨_, he⟩ | ⟨v, _, he⟩
        · rw [he]
        · rw [he]
          exact readByte_writeByte_other _ _ ha.1
      · intro hne ha
        refine hi.2 hne ?_
        by_cases hd : a = d
        · subst hd
          right
          rcases settleByte_cases cutShort r s a with ⟨hnil, _⟩ | ⟨v, hv, he⟩
          · exact absurd hnil hne
          · rw [he]
            simpa using hv
        · rcases ha with ha | ha
          · exact .inl ((List.mem_cons.1 ha).resolve_left hd)
          · right
            rcases settleByte_cases cutShort r s d with ⟨_, he⟩ | ⟨v, _, he⟩
            · rw [he]; exact ha
            · rw [he]
              simpa [readByte_writeByte_other _ _ hd] using ha
  exact ⟨(key _ s).1, fun ha hne => (key _ s).2 hne (.inl ha)⟩

/-- Without a race there is nothing to settle. -/
theorem settleRaces_of_no_race (cutShort : Bool) {r : Running} (h : r.hostWrites = []) (s : State) :
    settleRaces cutShort r s = s := by
  simp [settleRaces, racedBytes, h]

/-- Every byte a host write races with is a destination of the command. -/
theorem racedBy_isDestination {r : Running} {a d : Nat} (h : d ∈ racedBy r a) : isDestination r d = true := by
  unfold racedBy at h
  split at h
  · rename_i hc
    rw [List.mem_singleton] at h
    rw [h]
    exact hc
  · obtain ⟨t, ht, rfl⟩ := List.mem_map.1 h
    exact (isDestination_iff r _).2 ⟨t, ((mem_pairsReading r _ t).1 ht).1, rfl⟩

/-- Every raced byte is a destination of the command. -/
theorem racedBytes_isDestination {r : Running} {d : Nat} (h : d ∈ racedBytes r) : isDestination r d = true :=
  let ⟨_, _, hd⟩ := List.mem_flatMap.1 h
  racedBy_isDestination hd

/-- A write outside a command's regions races with none of its bytes. -/
theorem racedBy_eq_nil {r : Running} {a : Nat} (h1 : isDestination r a = false) (h2 : isSource r a = false) :
    racedBy r a = [] := by
  have : pairsReading r a = [] := by simpa [isSource] using h2
  simp [racedBy, h1, this]

/-- A destination has a final value. -/
theorem finalValues_ne_nil {r : Running} {d : Nat} (h : isDestination r d = true) : finalValues r d ≠ [] := by
  obtain ⟨t, ht, hd⟩ := (isDestination_iff r d).1 h
  intro hn
  have hmem : readByte r.before (pairSrc r t) ∈ finalValues r d := by
    unfold finalValues
    refine List.mem_append_left _ (List.mem_flatMap.2 ⟨t, (mem_pairsWriting r d t).2 ⟨ht, hd⟩, ?_⟩)
    simp [heldValues]
  rw [hn] at hmem
  simp at hmem

theorem settleValues_ne_nil (cutShort : Bool) {r : Running} {d : Nat} (h : isDestination r d = true) :
    settleValues cutShort r d ≠ [] := by
  unfold settleValues
  split
  · simp
  · exact finalValues_ne_nil h

/-- Settling keeps the canonical form of memory. -/
theorem settleRaces_wf (cutShort : Bool) {p : Platform} {r : Running} {s : State} (hr : operandsOk p r = true)
    (h : Memory.wf s.mem = true) : Memory.wf (settleRaces cutShort r s).mem = true := by
  have key : ∀ (l : List Nat) (s : State), (∀ d ∈ l, d < spaceSize) → Memory.wf s.mem = true →
      Memory.wf (l.foldl (settleByte cutShort r) s).mem = true := by
    intro l
    induction l with
    | nil => exact fun s _ h => h
    | cons d l ih =>
      intro s hl hs
      rw [List.foldl_cons]
      refine ih _ (fun x hx => hl x (List.mem_cons_of_mem _ hx)) ?_
      rcases settleByte_cases cutShort r s d with ⟨_, he⟩ | ⟨v, _, he⟩
      · rw [he]; exact hs
      · rw [he]
        exact writeByte_wf v hs (hl d (by simp))
  refine key _ s (fun d hd => ?_) h
  obtain ⟨t, ht, rfl⟩ := (isDestination_iff r d).1 (racedBytes_isDestination hd)
  exact (pair_lt_space hr ht).2

/-! Host writes. -/

/-- q is r with more writes into r's regions noted, each of them one of P, and nothing else changed. -/
def notesTo (P : Host.Cell → Prop) (r q : Running) : Prop :=
  ∃ l, q = { r with hostWrites := l ++ r.hostWrites }
    ∧ ∀ c ∈ l, P c ∧ (isDestination r c.1 = true ∨ isSource r c.1 = true)

theorem notesTo.refl (P : Host.Cell → Prop) (r : Running) : notesTo P r r := ⟨[], rfl, fun _ h => by cases h⟩

theorem notesTo.mono {P Q : Host.Cell → Prop} (hPQ : ∀ c, P c → Q c) {r q : Running} (h : notesTo P r q) : notesTo Q r q :=
  let ⟨l, he, hl⟩ := h
  ⟨l, he, fun c hc => ⟨hPQ c (hl c hc).1, (hl c hc).2⟩⟩

theorem notesTo.trans {P : Host.Cell → Prop} {r q x : Running} (h : notesTo P r q) (g : notesTo P q x) : notesTo P r x := by
  obtain ⟨l, rfl, hl⟩ := h
  obtain ⟨k, rfl, hk⟩ := g
  refine ⟨k ++ l, by simp, fun c hc => ?_⟩
  rcases List.mem_append.1 hc with hc | hc
  · exact hk c hc
  · exact hl c hc

theorem noteWrite_notesTo (a : Nat) (v : Byte) (r : Running) : notesTo (fun c => c = (a, v)) r (noteWrite a v r) := by
  unfold noteWrite
  split
  · rename_i h
    refine ⟨[(a, v)], rfl, fun c hc => ?_⟩
    rw [List.mem_singleton.1 hc]
    exact ⟨rfl, by simpa using h⟩
  · exact notesTo.refl _ r

/-- A write into a command's regions is noted. -/
theorem mem_noteWrite {a : Nat} (v : Byte) {r : Running} (h : isDestination r a = true ∨ isSource r a = true) :
    (a, v) ∈ (noteWrite a v r).hostWrites := by
  simp [noteWrite, h]

/-- One more note adds the value written to the final values a byte may have, and no other. -/
theorem mem_finalValues_noteWrite {a b : Nat} {v w : Byte} {r : Running} (h : w ∈ finalValues (noteWrite a v r) b) :
    w = v ∨ w ∈ finalValues r b := by
  have hv : ∀ x y, y ∈ hostValues (noteWrite a v r) x → y = v ∨ y ∈ hostValues r x := by
    intro x y hy
    unfold noteWrite at hy
    split at hy
    · simp only [hostValues, List.filter_cons] at hy
      split at hy
      · exact List.mem_cons.1 hy
      · exact .inr hy
    · exact .inr hy
  have hp : pairsWriting (noteWrite a v r) b = pairsWriting r b ∧ pairSrc (noteWrite a v r) = pairSrc r
      ∧ (noteWrite a v r).before = r.before := by
    unfold noteWrite
    split <;> exact ⟨rfl, rfl, rfl⟩
  unfold finalValues heldValues at h ⊢
  rw [hp.1, hp.2.1, hp.2.2] at h
  rcases List.mem_append.1 h with h | h
  · obtain ⟨t, ht, hw⟩ := List.mem_flatMap.1 h
    rcases List.mem_append.1 hw with hw | hw
    · rcases hv _ _ hw with hw | hw
      · exact .inl hw
      · exact .inr (List.mem_append_left _ (List.mem_flatMap.2 ⟨t, ht, List.mem_append_left _ hw⟩))
    · exact .inr (List.mem_append_left _ (List.mem_flatMap.2 ⟨t, ht, List.mem_append_right _ hw⟩))
  · rcases hv _ _ h with h | h
    · exact .inl h
    · exact .inr (List.mem_append_right _ h)

theorem noteWrite_of_outside {a : Nat} (v : Byte) {r : Running} (h1 : isDestination r a = false) (h2 : isSource r a = false) :
    noteWrite a v r = r := by
  simp [noteWrite, h1, h2]

@[simp] theorem racedBy_noteWrite (a b : Nat) (v : Byte) (r : Running) : racedBy (noteWrite a v r) b = racedBy r b := by
  unfold noteWrite
  split <;> rfl

@[simp] theorem isDestination_noteWrite (a b : Nat) (v : Byte) (r : Running) :
    isDestination (noteWrite a v r) b = isDestination r b := by
  unfold noteWrite
  split <;> rfl

/-- More notes keep in order what the invariant says of a command. -/
theorem notesTo.racesOk {P : Host.Cell → Prop} {r q : Running} (h : notesTo P r q) (hr : racesOk r = true) :
    racesOk q = true := by
  obtain ⟨l, rfl, hl⟩ := h
  rw [racesOk_iff] at hr ⊢
  refine ⟨hr.1, fun c hc => ?_⟩
  rcases List.mem_append.1 hc with hc | hc
  · exact (hl c hc).2
  · exact hr.2 c hc

theorem notesTo.operandsOk {P : Host.Cell → Prop} {p : Platform} {r q : Running} (h : notesTo P r q)
    (hr : operandsOk p r = true) : operandsOk p q = true := by
  obtain ⟨l, rfl, _⟩ := h
  exact hr

theorem notesTo.progressOk {P : Host.Cell → Prop} {r q : Running} (h : notesTo P r q) (hr : progressOk r = true) :
    progressOk q = true := by
  obtain ⟨l, rfl, _⟩ := h
  exact hr

/-- Memory, the count of draws and the notes of the commands that own their regions have changed, by notes of P, and nothing else. -/
def writeFrame (P : Host.Cell → Prop) (s u : State) : Prop :=
  ∃ m n f, (∀ r, notesTo P r (f r)) ∧ u = (((s.setMem m).setRun (s.run.map f)).setUnseen (s.unseen.map f)).addDraws n

theorem putByte_frame (a : Nat) (v : Byte) (s : State) : writeFrame (fun c => c = (a, v)) s (putByte a v s) :=
  ⟨writeByte s.mem a v, 0, noteWrite a v, noteWrite_notesTo a v, rfl⟩

theorem addDraws_frame (P : Host.Cell → Prop) (n : Nat) (s : State) : writeFrame P s (s.addDraws n) :=
  ⟨s.mem, n, id, notesTo.refl P, by
    simp only [Option.map_id, List.map_id, id, State.setMem, State.setRun, State.setUnseen, State.addDraws]⟩

theorem writeFrame.mono {P Q : Host.Cell → Prop} (hPQ : ∀ c, P c → Q c) {s u : State} (h : writeFrame P s u) :
    writeFrame Q s u :=
  let ⟨m, n, f, hf, he⟩ := h
  ⟨m, n, f, fun r => (hf r).mono hPQ, he⟩

theorem writeFrame.trans {P : Host.Cell → Prop} {s u x : State} (h : writeFrame P s u) (g : writeFrame P u x) :
    writeFrame P s x := by
  obtain ⟨m, n, f, hf, rfl⟩ := h
  obtain ⟨m', n', f', hf', rfl⟩ := g
  refine ⟨m', n + n', fun r => f' (f r), fun r => (hf r).trans (hf' _), ?_⟩
  simp [State.setMem, State.setRun, State.setUnseen, State.addDraws, Nat.add_assoc, Function.comp_def]

theorem readByte_putByte (d : Nat) (w : Byte) (s : State) (b : Nat) :
    readByte (putByte d w s).mem b = if b = d then w else readByte s.mem b := by
  show readByte (writeByte s.mem d w) b = _
  split
  · rename_i h; rw [h]; simp
  · rename_i h; exact readByte_writeByte_other _ _ h

/-- All that settling one byte after the end can do. -/
theorem settleLate_eq (m : List Host.Cell) (values : Nat → List Byte) (s : State) (d : Nat) :
    ∃ w ∈ readByte m d :: values d, settleLate m values s d = (putByte d w s).addDraws 1 :=
  ⟨_, choose_mem _ _ _, rfl⟩

/-- All that settling some bytes, each once, can do: a byte that is not among them keeps its value, one that is keeps the value it had in m
or takes one of its values, and what is noted is the bytes' new values. -/
theorem settleLate_all (m : List Host.Cell) (values : Nat → List Byte) : ∀ (l : List Nat) (s : State), l.Nodup →
    (∀ b, b ∉ l → readByte (l.foldl (settleLate m values) s).mem b = readByte s.mem b)
    ∧ (∀ b ∈ l, readByte (l.foldl (settleLate m values) s).mem b ∈ readByte m b :: values b)
    ∧ writeFrame (fun c => c.1 ∈ l ∧ c.2 = readByte (l.foldl (settleLate m values) s).mem c.1) s
        (l.foldl (settleLate m values) s) := by
  intro l
  induction l with
  | nil => exact fun s _ => ⟨fun _ _ => rfl, fun _ h => absurd h (by simp), addDraws_frame _ 0 s⟩
  | cons d l ih =>
    intro s hn
    obtain ⟨hd, hn⟩ := List.nodup_cons.1 hn
    obtain ⟨w, hw, he⟩ := settleLate_eq m values s d
    rw [List.foldl_cons, he]
    obtain ⟨h1, h2, h3⟩ := ih ((putByte d w s).addDraws 1) hn
    have hm : ∀ b, readByte ((putByte d w s).addDraws 1).mem b = if b = d then w else readByte s.mem b := readByte_putByte d w s
    refine ⟨fun b hb => ?_, fun b hb => ?_, ?_⟩
    · rw [h1 b (fun h => hb (List.mem_cons_of_mem _ h)), hm, if_neg (fun h => hb (by simp [h]))]
    · by_cases hbd : b = d
      · rw [hbd, h1 d hd, hm, if_pos rfl]
        exact hw
      · exact h2 b ((List.mem_cons.1 hb).resolve_left hbd)
    · refine ((putByte_frame d w s).mono ?_).trans ((addDraws_frame _ 1 _).trans (h3.mono ?_))
      · rintro c rfl
        exact ⟨by simp, by dsimp only; rw [h1 d hd, hm, if_pos rfl]⟩
      · exact fun c hc => ⟨List.mem_cons_of_mem _ hc.1, hc.2⟩

/-- The bytes that a write races with after the end of commands. -/
theorem mem_lateBytes (a : Nat) (v : Byte) (s : State) (b : Nat) :
    b ∈ lateBytes a (putByte a v s) ↔ ∃ r ∈ s.unseen, b ∈ racedBy r a := by
  simp [lateBytes, putByte]

theorem mem_lateValues {a : Nat} {v w : Byte} {s : State} {b : Nat} (h : w ∈ lateValues a (putByte a v s) b) :
    ∃ r ∈ s.unseen, b ∈ racedBy r a ∧ (w = v ∨ w ∈ finalValues r b) := by
  unfold lateValues putByte at h
  simp only [State.setUnseen_unseen] at h
  obtain ⟨q, hq, hw⟩ := List.mem_flatMap.1 h
  obtain ⟨r, hr, rfl⟩ := List.mem_map.1 hq
  rw [racedBy_noteWrite] at hw
  split at hw
  · rename_i hb
    exact ⟨r, hr, hb, mem_finalValues_noteWrite hw⟩
  · cases hw

/-- A host write is noted, and then the bytes it races with after a command's end are settled, each once. -/
theorem hostMemWrite_settles (a : Nat) (v : Byte) (s : State) :
    (∀ b, b ∉ lateBytes a (putByte a v s) → readByte (hostMemWrite a v s).mem b = readByte (putByte a v s).mem b)
    ∧ (∀ b ∈ lateBytes a (putByte a v s),
        readByte (hostMemWrite a v s).mem b ∈ readByte s.mem b :: lateValues a (putByte a v s) b)
    ∧ writeFrame (fun c => c.1 ∈ lateBytes a (putByte a v s) ∧ c.2 = readByte (hostMemWrite a v s).mem c.1) (putByte a v s)
        (hostMemWrite a v s) :=
  settleLate_all s.mem (lateValues a (putByte a v s)) (lateBytes a (putByte a v s)) (putByte a v s) (List.nodup_dedup _)

/-- What a host write of a byte changes, and what it notes: the value written, and the value of each byte it races with after a command's
end. -/
theorem hostMemWrite_frame (a : Nat) (v : Byte) (s : State) :
    writeFrame (fun c => c = (a, v)
      ∨ ((∃ r ∈ s.unseen, c.1 ∈ racedBy r a) ∧ c.2 = readByte (hostMemWrite a v s).mem c.1)) s (hostMemWrite a v s) :=
  ((putByte_frame a v s).mono fun _ hc => .inl hc).trans
    ((hostMemWrite_settles a v s).2.2.mono fun c hc => .inr ⟨(mem_lateBytes a v s c.1).1 hc.1, hc.2⟩)

/-- A write outside the regions of the commands that have ended is settled by nothing but a running command's end. -/
theorem hostMemWrite_of_not_late {a : Nat} (v : Byte) {s : State}
    (h : ∀ r ∈ s.unseen, isDestination r a = false ∧ isSource r a = false) : hostMemWrite a v s = putByte a v s := by
  have : lateBytes a (putByte a v s) = [] := by
    rw [List.eq_nil_iff_forall_not_mem]
    intro x hx
    obtain ⟨r, hr, hd⟩ := (mem_lateBytes a v s x).1 hx
    rw [racedBy_eq_nil (h r hr).1 (h r hr).2] at hd
    cases hd
  unfold hostMemWrite
  dsimp only
  rw [this]
  rfl

theorem map_noteWrite_of_outside {a : Nat} (v : Byte) {l : List Running}
    (h : ∀ r ∈ l, isDestination r a = false ∧ isSource r a = false) : l.map (noteWrite a v) = l := by
  conv => rhs; rw [← List.map_id l]
  exact List.map_congr_left (fun r hr => noteWrite_of_outside v (h r hr).1 (h r hr).2)

/-- A write outside the regions of every command that owns its regions is a plain one. -/
theorem hostMemWrite_plain {a : Nat} (v : Byte) {s : State}
    (h : ∀ r ∈ owners s, isDestination r a = false ∧ isSource r a = false) :
    hostMemWrite a v s = s.setMem (writeByte s.mem a v) := by
  have hu : ∀ r ∈ s.unseen, isDestination r a = false ∧ isSource r a = false := fun r hr => h r (by simp [owners, hr])
  rw [hostMemWrite_of_not_late v hu]
  unfold putByte
  rw [map_noteWrite_of_outside v hu]
  cases hr : s.run with
  | none => simp only [State.setMem, State.setRun, State.setUnseen, Option.map_none, hr]
  | some r =>
    have := h r (by simp [owners, hr])
    simp only [State.setMem, State.setRun, State.setUnseen, Option.map_some, noteWrite_of_outside v this.1 this.2, hr]

/-- What memory reads after a host write: a byte that it races with in no ended command is as a plain write leaves it, and any other keeps
its value or takes the value written or a final value of such a command. -/
theorem readByte_hostMemWrite (a : Nat) (v : Byte) (s : State) (b : Nat) :
    ((∀ r ∈ s.unseen, b ∉ racedBy r a) → readByte (hostMemWrite a v s).mem b = if b = a then v else readByte s.mem b)
    ∧ ((∃ r ∈ s.unseen, b ∈ racedBy r a) → readByte (hostMemWrite a v s).mem b = readByte s.mem b
        ∨ ∃ r ∈ s.unseen, b ∈ racedBy r a
          ∧ (readByte (hostMemWrite a v s).mem b = v ∨ readByte (hostMemWrite a v s).mem b ∈ finalValues r b)) := by
  obtain ⟨h1, h2, _⟩ := hostMemWrite_settles a v s
  constructor
  · intro h
    refine (h1 b (fun hb => ?_)).trans (readByte_putByte a v s b)
    obtain ⟨r, hr, hd⟩ := (mem_lateBytes a v s b).1 hb
    exact h r hr hd
  · intro h
    rcases List.mem_cons.1 (h2 b ((mem_lateBytes a v s b).2 h)) with hw | hw
    · exact .inl hw
    · exact .inr (mem_lateValues hw)

/-- A host write keeps the canonical form of memory. -/
theorem hostMemWrite_wf {a : Nat} (v : Byte) {p : Platform} {s : State} (ha : a < spaceSize) (h : Memory.wf s.mem = true)
    (hu : ∀ r ∈ s.unseen, operandsOk p r = true) : Memory.wf (hostMemWrite a v s).mem = true := by
  have key : ∀ (values : Nat → List Byte) (l : List Nat) (t : State), (∀ d ∈ l, d < spaceSize) → Memory.wf t.mem = true →
      Memory.wf (l.foldl (settleLate s.mem values) t).mem = true := by
    intro values l
    induction l with
    | nil => exact fun _ _ h => h
    | cons x l ih =>
      intro t hl ht
      rw [List.foldl_cons]
      exact ih _ (fun y hy => hl y (List.mem_cons_of_mem _ hy)) (writeByte_wf _ ht (hl x (by simp)))
  unfold hostMemWrite
  refine key _ _ _ (fun x hx => ?_) (writeByte_wf v h ha)
  obtain ⟨r, hr, hd⟩ := (mem_lateBytes a v s x).1 hx
  obtain ⟨t, ht, he⟩ := (isDestination_iff r x).1 (racedBy_isDestination hd)
  have := (pair_lt_space (hu r hr) ht).2
  omega

/-! Host reads. -/

theorem mem_racedReadValues (a : Nat) (s : State) (v : Byte) :
    v ∈ racedReadValues a s ↔ ∃ r ∈ owners s, isDestination r a = true ∧ (v = readByte r.before a ∨ v ∈ finalValues r a) := by
  unfold racedReadValues
  rw [List.mem_flatMap]
  refine exists_congr fun r => and_congr_right fun _ => ?_
  cases isDestination r a <;> simp

/-- On a coherent platform a host read of a byte that some command owns as a destination is a draw among the values it may return; any
other read returns what memory holds. -/
theorem hostMemRead_of_coherent {a : Nat} {s : State} (hc : s.platform.memCoherent = true) :
    ((∀ r ∈ owners s, isDestination r a = false) → hostMemRead a s = s.setReply (.byte (readByte s.mem a)))
    ∧ ((∃ r ∈ owners s, isDestination r a = true) →
        ∃ v ∈ racedReadValues a s, hostMemRead a s = (s.setReply (.byte v)).addDraws 1) := by
  unfold hostMemRead
  rw [if_neg (by simp [hc])]
  cases hv : racedReadValues a s with
  | nil =>
    refine ⟨fun _ => rfl, fun ⟨r, hr, hd⟩ => ?_⟩
    have := (mem_racedReadValues a s (readByte r.before a)).2 ⟨r, hr, hd, .inl rfl⟩
    rw [hv] at this
    cases this
  | cons c cs =>
    refine ⟨fun h => ?_, fun _ => ⟨_, choose_mem _ c cs, rfl⟩⟩
    obtain ⟨r, hr, hd, _⟩ := (mem_racedReadValues a s c).1 (by rw [hv]; simp)
    rw [h r hr] at hd
    cases hd

/-- All that a host read of a byte can do. -/
theorem hostMemRead_cases (a : Nat) (s : State) :
    ∃ v n, hostMemRead a s = (s.setReply (.byte v)).addDraws n := by
  unfold hostMemRead
  split
  · exact ⟨_, 1, rfl⟩
  · split
    · exact ⟨_, 0, rfl⟩
    · exact ⟨_, 1, rfl⟩

end Sys2Proof.Machine
end

