-- ==== Sys2Proof/Laws/Engine.lean ====
section
/-! SUPPORT. Everything an engine step can do (42_transform_engine R126, R129, 60_exceptions R146). -/

namespace Sys2Proof.Machine

open Sys2Proof.Config

/-- r with pair t transferred. -/
def withPair (r : Running) (t : Nat) : Running := { r with done := addPair r.done t }

/-- Everything the transfer of a pair can do. -/
theorem transferPair_cases (t : Nat) (r : Running) (s : State) :
    (∃ a, spaceSize ≤ a ∧ (a = pairSrc r t ∨ a = pairDst r t) ∧ transferPair t r s = .fault (.addressOutsideSpace a))
    ∨ (∃ a d, a < spaceSize ∧ portAdmits s.platform a d = false ∧ a = pairAccess r t d
        ∧ transferPair t r s = .next (raiseBusError a d r s))
    ∨ (pairSrc r t < spaceSize ∧ pairDst r t < spaceSize ∧ portAdmits s.platform (pairSrc r t) .read = true
        ∧ portAdmits s.platform (pairDst r t) .write = true
        ∧ transferPair t r s = .next (completePair t (engineRead (pairSrc r t) s) r s)) := by
  unfold transferPair
  by_cases h1 : spaceSize ≤ pairSrc r t
  · exact .inl ⟨_, h1, .inl rfl, by rw [if_pos h1]⟩
  · rw [if_neg h1]
    by_cases h2 : portAdmits s.platform (pairSrc r t) .read = false
    · exact .inr (.inl ⟨_, .read, Nat.lt_of_not_le h1, h2, rfl, by rw [if_pos h2]⟩)
    · rw [if_neg h2]
      by_cases h3 : spaceSize ≤ pairDst r t
      · exact .inl ⟨_, h3, .inr rfl, by rw [if_pos h3]⟩
      · rw [if_neg h3]
        by_cases h4 : portAdmits s.platform (pairDst r t) .write = false
        · exact .inr (.inl ⟨_, .write, Nat.lt_of_not_le h3, h4, rfl, by rw [if_pos h4]⟩)
        · rw [if_neg h4]
          exact .inr (.inr ⟨Nat.lt_of_not_le h1, Nat.lt_of_not_le h3, by simpa using h2, by simpa using h4, rfl⟩)

/-- Everything that writing a pair's destination can do: go on with the pair in L.done, or end the command. -/
theorem completePair_cases (t : Nat) (v : Byte) (r : Running) (s : State) :
    ((withPair r t).done.length ≠ pairTotal r
      ∧ completePair t v r s
        = ((s.setMem (writeByte s.mem (pairDst r t) v)).setRun (some (withPair r t))).addDraws 1)
    ∨ ((withPair r t).done.length = pairTotal r
      ∧ completePair t v r s = endCommand (withPair r t)
          (((s.setMem (writeByte s.mem (pairDst r t) v)).setRun (some (withPair r t))).addDraws 1)) := by
  unfold completePair
  dsimp only
  split
  · rename_i h
    exact .inr ⟨h, rfl⟩
  · rename_i h
    exact .inl ⟨h, rfl⟩

/-- The end of a command changes memory, the hidden state, the commands not seen to have ended, STATUS and the count of draws, and
nothing else. -/
theorem endCommand_frame (r : Running) (s : State) :
    ∃ m n, endCommand r s
      = ((((s.setMem m).addDraws n).setRun none).setUnseen (forget r :: s.unseen)).setStatus statusDone := by
  obtain ⟨m, n, h⟩ := settleRaces_frame false r s
  exact ⟨m, n, by rw [endCommand, h]; rfl⟩

/-- The access that the bus error found at (a, d) reports in state s. -/
def reportIn (s : State) (r : Running) (a : Nat) (d : Dir) : Nat × Dir :=
  reportedAccess s.platform r (drawAt s 0) (drawAt s 1) (a, d)

/-- The report is the access found, or a refused access of one of the command's pairs. -/
theorem reportedAccess_cases (p : Platform) (r : Running) (n m : Nat) (found : Nat × Dir) :
    reportedAccess p r n m found = found
    ∨ ∃ t d, t < pairTotal r ∧ portAdmits p (pairAccess r t d) d = false
        ∧ reportedAccess p r n m found = (pairAccess r t d, d) := by
  unfold reportedAccess
  dsimp only
  split
  · rename_i h
    exact .inr ⟨_, _, h.1, h.2, rfl⟩
  · exact .inl rfl

/-- If the access found is a refused access of a pair, so is the one reported. -/
theorem reportedAccess_refused {p : Platform} {r : Running} {t : Nat} {d : Dir} (ht : t < pairTotal r)
    (h : portAdmits p (pairAccess r t d) d = false) (n m : Nat) :
    ∃ u e, u < pairTotal r ∧ portAdmits p (pairAccess r u e) e = false
      ∧ reportedAccess p r n m (pairAccess r t d, d) = (pairAccess r u e, e) := by
  rcases reportedAccess_cases p r n m (pairAccess r t d, d) with he | he
  · exact ⟨t, d, ht, h, he⟩
  · exact he

theorem drawnDir_surjective (d : Dir) : ∃ m, drawnDir m = d := by
  cases d
  · exact ⟨0, rfl⟩
  · exact ⟨1, rfl⟩

/-- A bus error changes memory (by settling races), the hidden state, the commands not seen to have ended, STATUS, ERRADDR and the count of draws, and nothing else. -/
theorem raiseBusError_frame (a : Nat) (d : Dir) (r : Running) (s : State) :
    ∃ m n, raiseBusError a d r s
      = (((((s.setMem m).addDraws n).setErrAddr (BitVec.ofNat 32 (reportIn s r a d).1)).setStatus
          (statusBusError (reportIn s r a d).2)).setRun none).setUnseen (forget r :: s.unseen) := by
  obtain ⟨m, n, h⟩ := settleRaces_frame true r (s.addDraws 2)
  refine ⟨m, 2 + n, ?_⟩
  unfold raiseBusError reportIn
  rw [h]
  simp only [retire, State.setMem, State.addDraws, State.setErrAddr, State.setStatus, State.setRun, State.setUnseen, Nat.add_assoc]

theorem endCommand_of_no_race {r : Running} (h : r.hostWrites = []) (s : State) :
    endCommand r s = ((s.setRun none).setUnseen (forget r :: s.unseen)).setStatus statusDone := by
  rw [endCommand, settleRaces_of_no_race false h]
  rfl

theorem raiseBusError_of_no_race {r : Running} (h : r.hostWrites = []) (a : Nat) (d : Dir) (s : State) :
    raiseBusError a d r s
      = ((((s.addDraws 2).setErrAddr (BitVec.ofNat 32 (reportIn s r a d).1)).setStatus
          (statusBusError (reportIn s r a d).2)).setRun none).setUnseen (forget r :: s.unseen) := by
  rw [raiseBusError, settleRaces_of_no_race true h]
  rfl

@[simp] theorem raiseBusError_status (a : Nat) (d : Dir) (r : Running) (s : State) :
    (raiseBusError a d r s).status = statusBusError (reportIn s r a d).2 := rfl
@[simp] theorem raiseBusError_errAddr (a : Nat) (d : Dir) (r : Running) (s : State) :
    (raiseBusError a d r s).errAddr = BitVec.ofNat 32 (reportIn s r a d).1 := rfl
@[simp] theorem raiseBusError_run (a : Nat) (d : Dir) (r : Running) (s : State) : (raiseBusError a d r s).run = none := rfl
@[simp] theorem endCommand_status (r : Running) (s : State) : (endCommand r s).status = statusDone := rfl
@[simp] theorem raiseBusError_unseen (a : Nat) (d : Dir) (r : Running) (s : State) :
    (raiseBusError a d r s).unseen = forget r :: s.unseen := by
  obtain ⟨m, n, h⟩ := raiseBusError_frame a d r s
  simp [h]
@[simp] theorem endCommand_unseen (r : Running) (s : State) : (endCommand r s).unseen = forget r :: s.unseen := by
  obtain ⟨m, n, h⟩ := endCommand_frame r s
  simp [h]
@[simp] theorem endCommand_run (r : Running) (s : State) : (endCommand r s).run = none := rfl
@[simp] theorem endCommand_errAddr (r : Running) (s : State) : (endCommand r s).errAddr = s.errAddr := by
  obtain ⟨m, n, h⟩ := endCommand_frame r s
  simp [h]

theorem engineStep_idle {s : State} (h : s.run = none) : engineStep s = .next s := by simp [engineStep, h]

/-- An engine step of a command in order transfers the pair it picks. -/
theorem engineStep_running {s : State} {r : Running} (h : s.run = some r) (hp : progressOk r = true) :
    engineStep s = transferPair (pickPair r s) r (s.addDraws 1) := by
  have := ((progressOk_iff r).1 hp).2.2
  simp [engineStep, h, Nat.not_le.2 this]

/-- One more pair keeps the hidden state in order, as long as some pair is left. -/
theorem withPair_runningOk {p : Platform} {r : Running} (h : runningOk p r = true) {t : Nat} (ht : t < pairTotal r)
    (hf : t ∉ r.done) (hl : (withPair r t).done.length ≠ pairTotal r) : runningOk p (withPair r t) = true := by
  rw [runningOk_iff] at h ⊢
  refine ⟨h.1, ?_, h.2.2⟩
  have hp := (progressOk_iff r).1 h.2.1
  have hlen := length_addPair hf
  rw [progressOk_iff]
  refine ⟨addPair_pairwise hp.1 t, fun x hx => ?_, ?_⟩
  · rcases (mem_addPair r.done t x).1 hx with hx | hx
    · rw [hx]; exact ht
    · exact hp.2.1 x hx
  · change (addPair r.done t).length ≠ pairTotal r at hl
    change (addPair r.done t).length < pairTotal r
    omega

end Sys2Proof.Machine
end

