-- ==== Sys2Proof/Laws/Step.lean ====
section
/-! SUPPORT. Everything a step can do: which agent moves, and what each operation of the host does. -/

namespace Sys2Proof.Machine

open Sys2Proof Sys2Proof.Config

/-- A step is an engine step, an idle turn of the host, or the host's next operation. -/
theorem step_cases (s : State) :
    (nextAgent s = .engine ∧ step s = engineStep (turnTaken s))
    ∨ (nextAgent s = .host ∧ s.program = [] ∧ step s = .next (turnTaken s))
    ∨ ∃ op, aboutTo op s ∧ step s = hostStep op (popped s) := by
  unfold step takeTurn aboutTo
  cases h : nextAgent s with
  | engine => exact .inl ⟨rfl, rfl⟩
  | host =>
    right
    cases hp : s.program with
    | nil =>
      left
      refine ⟨rfl, rfl, ?_⟩
      simp only [State.setSchedule_program, hp]
      rfl
    | cons op rest =>
      right
      refine ⟨op, ⟨rfl, rfl⟩, ?_⟩
      simp only [State.setSchedule_program, hp]
      have : popped s = (s.setSchedule s.schedule.tail).setProgram rest := by
        unfold popped State.setProgram State.setSchedule
        rw [hp]
        rfl
      rw [this]

/-- The host carries out the operation it is about to. -/
theorem step_of_aboutTo {op : HostOp} {s : State} (h : aboutTo op s) : step s = hostStep op (popped s) := by
  rcases step_cases s with ⟨ha, _⟩ | ⟨_, hp, _⟩ | ⟨o, ho, hs⟩
  · rw [h.1] at ha; simp at ha
  · have := h.2; rw [hp] at this; simp at this
  · have := h.2.symm.trans ho.2
    rw [Option.some.inj this]; exact hs

theorem step_of_engine {s : State} (h : nextAgent s = .engine) : step s = engineStep (turnTaken s) := by
  rcases step_cases s with ⟨_, hs⟩ | ⟨hh, _⟩ | ⟨o, ho, hs⟩
  · exact hs
  · rw [h] at hh; simp at hh
  · have := h.symm.trans ho.1; simp at this

@[simp] theorem popped_inReset (s : State) : (popped s).inReset = s.inReset := rfl
@[simp] theorem popped_run (s : State) : (popped s).run = s.run := rfl
@[simp] theorem popped_unseen (s : State) : (popped s).unseen = s.unseen := rfl
@[simp] theorem popped_mem (s : State) : (popped s).mem = s.mem := rfl
@[simp] theorem popped_platform (s : State) : (popped s).platform = s.platform := rfl
@[simp] theorem popped_status (s : State) : (popped s).status = s.status := rfl
@[simp] theorem busy_popped (s : State) : busy (popped s) = busy s := rfl
@[simp] theorem turnTaken_run (s : State) : (turnTaken s).run = s.run := rfl
@[simp] theorem turnTaken_unseen (s : State) : (turnTaken s).unseen = s.unseen := rfl
@[simp] theorem turnTaken_mem (s : State) : (turnTaken s).mem = s.mem := rfl
@[simp] theorem turnTaken_platform (s : State) : (turnTaken s).platform = s.platform := rfl

theorem hostStep_regRead (offset : BitVec 8) (width : Width) (s : State) : hostStep (.regRead offset width) s
    = windowAccess offset width s (fun t => .next (hostRegRead offset t)) := rfl
theorem hostStep_regWrite (offset : BitVec 8) (width : Width) (v : Word) (s : State) :
    hostStep (.regWrite offset width v) s = windowAccess offset width s (registerWrite offset v) := rfl
theorem hostStep_wait (s : State) :
    hostStep .wait s = windowAccess 0x04 .word s (fun t => .next (pollStatus t)) := rfl
theorem hostStep_memRead (a : Word) (s : State) :
    hostStep (.memRead a) s = memoryAccess a s (hostMemRead a.toNat) := rfl
theorem hostStep_memWrite (a : Word) (v : Byte) (s : State) :
    hostStep (.memWrite a v) s = memoryAccess a s (hostMemWrite a.toNat v) := rfl
theorem hostStep_assertReset (s : State) : hostStep .assertReset s = .next (assertReset s) := rfl
theorem hostStep_releaseReset (s : State) : hostStep .releaseReset s = .next (releaseReset s) := rfl

theorem aboutTo_unique {op op' : HostOp} {s : State} (h : aboutTo op s) (h' : aboutTo op' s) : op = op' :=
  Option.some.inj (h.2.symm.trans h'.2)

/-- The running command, and those not seen to have ended, own their regions. -/
theorem mem_owners (s : State) (r : Running) : r ∈ owners s ↔ s.run = some r ∨ r ∈ s.unseen := by
  unfold owners
  simp

/-- A register access that the spec defines is carried out. -/
theorem windowAccess_of_ok {offset : BitVec 8} {s : State} (f : State → Host.Outcome State Fault Refusal)
    (hr : s.inReset = false) (ho : offset.toNat % 4 = 0) : windowAccess offset .word s f = f s := by
  simp [windowAccess, hr, ho]

/-- A register access either is one the spec defines or is refused. -/
theorem windowAccess_cases (offset : BitVec 8) (width : Width) (s : State) (f : State → Host.Outcome State Fault Refusal) :
    (∃ e, windowAccess offset width s f = .refused e)
    ∨ (s.inReset = false ∧ width = .word ∧ offset.toNat % 4 = 0 ∧ windowAccess offset width s f = f s) := by
  unfold windowAccess
  by_cases h1 : s.inReset = true
  · exact .inl ⟨_, by rw [if_pos h1]⟩
  · rw [if_neg h1]
    by_cases h2 : width ≠ .word
    · exact .inl ⟨_, by rw [if_pos h2]⟩
    · rw [if_neg h2]
      by_cases h3 : offset.toNat % 4 ≠ 0
      · exact .inl ⟨_, by rw [if_pos h3]⟩
      · rw [if_neg h3]
        exact .inr ⟨by simpa using h1, by simpa using h2, by simpa using h3, rfl⟩

/-- A memory access either is outside the window or is refused. -/
theorem memoryAccess_cases (a : Word) (s : State) (f : State → State) :
    (∃ e, memoryAccess a s f = .refused e)
    ∨ (inRegion (window s.platform) a.toNat = false ∧ memoryAccess a s f = .next (f s)) := by
  unfold memoryAccess
  by_cases h1 : inRegion (window s.platform) a.toNat = true
  · rw [if_pos h1]
    by_cases h2 : s.inReset = true
    · exact .inl ⟨_, by rw [if_pos h2]⟩
    · exact .inl ⟨_, by rw [if_neg h2]⟩
  · rw [if_neg h1]
    exact .inr ⟨by simpa using h1, rfl⟩

/-- The meaning of a buffer command is one shared host step. -/
theorem exec_bufferCommand (op : BufferOp) (d : DType) (s : State) :
    exec (bufferCommand op d) s = acceptWord (encode (bufferCommand op d)) (startBuffer op d) s := by
  cases op <;> cases d <;> rfl

/-- Every command is an element command or a buffer command. -/
theorem instr_cases (i : Instr) : isElementCommand i = true ∨ ∃ op d, i = bufferCommand op d := by
  cases i <;>
    first
    | exact .inl rfl
    | exact .inr ⟨.forward, .dtype16, rfl⟩
    | exact .inr ⟨.forward, .dtype32, rfl⟩
    | exact .inr ⟨.inverse, .dtype16, rfl⟩
    | exact .inr ⟨.inverse, .dtype32, rfl⟩

/-- What an element command writes into its result register (40_element_codec R102 to R105, 41_field_extract R112 to R117). -/
def elementWrite : Instr → State → State
  | .split16, t => t.setPlanes (splitWord16 t.elem)
  | .split32, t => t.setPlanes (splitWord32 t.elem)
  | .join16, t => t.setResult (joinWord16 t.planes)
  | .join32, t => t.setResult (joinWord32 t.planes)
  | .fieldSign16, t => t.setResult (sign16 t.elem)
  | .fieldExp16, t => t.setResult (exponent16 t.platform.f16Fmt t.elem)
  | .fieldMant16, t => t.setResult (mantissa16 t.platform.f16Fmt t.elem)
  | .fieldSign32, t => t.setResult (sign32 t.elem)
  | .fieldExp32, t => t.setResult (exponent32 t.elem)
  | .fieldMant32, t => t.setResult (mantissa32 t.elem)
  | .forward16, t | .forward32, t | .inverse16, t | .inverse32, t => t

/-- The meaning of an element command is one shared host step. -/
theorem exec_element {i : Instr} (hi : isElementCommand i = true) (s : State) :
    exec i s = elementCommand (encode i) (elementWrite i) s := by
  cases i <;> first | rfl | simp [isElementCommand] at hi

/-- All that an element command can do: nothing while BUSY = 1; otherwise CMD, STATUS and one of PLANES (SPLIT) and RESULT (JOIN, FIELD). -/
theorem exec_element_cases {i : Instr} (hi : isElementCommand i = true) (s : State) :
    (busy s = true ∧ exec i s = .next s)
    ∨ (busy s = false ∧ ∃ p v, exec i s = .next ((((s.setCmd (encode i)).setPlanes p).setResult v).setStatus statusDone)
        ∧ ((i = .split16 ∨ i = .split32) → v = s.result) ∧ (¬ (i = .split16 ∨ i = .split32) → p = s.planes)) := by
  rw [exec_element hi]
  cases hb : busy s with
  | true => exact .inl ⟨rfl, acceptWord_busy _ _ hb⟩
  | false =>
    rw [elementCommand_idle _ _ hb]
    refine .inr ⟨rfl, (elementWrite i (s.setCmd (encode i))).planes, (elementWrite i (s.setCmd (encode i))).result, ?_⟩
    cases i <;> exact ⟨rfl, by simp [elementWrite], by simp [elementWrite]⟩

/-- All that a CMD write can do. -/
theorem writeCmd_cases (w : Word) (s : State) :
    (∃ c, decode w = .error c ∧ writeCmd w s = rejectWord w c s)
    ∨ ∃ i, decode w = .ok i ∧ writeCmd w s = exec i s := by
  unfold writeCmd
  cases h : decode w with
  | error c => exact .inl ⟨c, rfl, rfl⟩
  | ok i => exact .inr ⟨i, rfl, rfl⟩

end Sys2Proof.Machine
end

