-- ==== Sys2Proof/Laws/Frames.lean ====
section
/-! SUPPORT. What each kind of step leaves alone, and what the host's next operation can be when a step answers a next state. -/

namespace Sys2Proof.Machine

open Sys2Proof Sys2Proof.Config

/-- The fields neither the engine nor a CMD write touches. -/
def sameFixed (s u : State) : Prop :=
  u.platform = s.platform ∧ u.cap = s.cap ∧ u.inReset = s.inReset

theorem sameFixed.refl (s : State) : sameFixed s s := ⟨rfl, rfl, rfl⟩

/-- An engine step writes memory, hidden state, the commands not seen to have ended, STATUS, ERRADDR and the count of draws, and nothing else. -/
def engineFrame (s u : State) : Prop :=
  ∃ m r l st e n, u = (((((s.setMem m).setRun r).setUnseen l).setStatus st).setErrAddr e).addDraws n

theorem engineFrame.fields {s u : State} (h : engineFrame s u) :
    sameFixed s u ∧ u.result = s.result ∧ u.planes = s.planes ∧ u.elem = s.elem ∧ u.cmd = s.cmd ∧ u.program = s.program
      ∧ u.schedule = s.schedule ∧ u.reply = s.reply := by
  obtain ⟨m, r, l, st, e, n, rfl⟩ := h
  simp [sameFixed]

theorem transferPair_frame {t : Nat} {r : Running} {s u : State} (h : transferPair t r s = .next u) : engineFrame s u := by
  rcases transferPair_cases t r s with ⟨a, _, _, he⟩ | ⟨a, d, _, _, _, he⟩ | ⟨_, _, _, _, he⟩
  · rw [he] at h
    cases h
  · rw [he] at h
    cases h
    obtain ⟨m, n, hf⟩ := raiseBusError_frame a d r s
    refine ⟨m, none, forget r :: s.unseen, statusBusError (reportIn s r a d).2, BitVec.ofNat 32 (reportIn s r a d).1, n, ?_⟩
    rw [hf]
    simp only [State.setMem, State.setUnseen, State.setRun, State.setStatus, State.setErrAddr, State.addDraws]
  · rw [he] at h
    cases h
    rcases completePair_cases t (engineRead (pairSrc r t) s) r s with ⟨_, hc⟩ | ⟨_, hc⟩
    · refine ⟨writeByte s.mem (pairDst r t) (engineRead (pairSrc r t) s), some (withPair r t), s.unseen, s.status, s.errAddr, 1, ?_⟩
      rw [hc]
      simp only [State.setMem, State.setUnseen, State.setRun, State.setStatus, State.setErrAddr, State.addDraws]
    · obtain ⟨m, n, hf⟩ := endCommand_frame (withPair r t)
        (((s.setMem (writeByte s.mem (pairDst r t) (engineRead (pairSrc r t) s))).setRun (some (withPair r t))).addDraws 1)
      refine ⟨m, none, forget (withPair r t) :: s.unseen, statusDone, s.errAddr, 1 + n, ?_⟩
      rw [hc, hf]
      simp only [State.setMem, State.setUnseen, State.setRun, State.setStatus, State.setErrAddr, State.addDraws, Nat.add_assoc]

theorem engineStep_frame {s u : State} (h : engineStep s = .next u) : engineFrame s u := by
  unfold engineStep at h
  split at h
  · cases h
    refine ⟨s.mem, s.run, s.unseen, s.status, s.errAddr, 0, ?_⟩
    simp only [State.setMem, State.setUnseen, State.setRun, State.setStatus, State.setErrAddr, State.addDraws, Nat.add_zero]
  · rename_i r hr
    split at h
    · cases h
      obtain ⟨m, n, hf⟩ := endCommand_frame r s
      refine ⟨m, none, forget r :: s.unseen, statusDone, s.errAddr, n, ?_⟩
      rw [hf]
      simp only [State.setMem, State.setUnseen, State.setRun, State.setStatus, State.setErrAddr, State.addDraws]
    · obtain ⟨m, q, l, st, e, n, rfl⟩ := transferPair_frame h
      refine ⟨m, q, l, st, e, 1 + n, ?_⟩
      simp only [State.setMem, State.setUnseen, State.setRun, State.setStatus, State.setErrAddr, State.addDraws, Nat.add_assoc]

/-- A command writes no memory, no ERRADDR and none of the fixed fields; only JOIN and FIELD write RESULT, only SPLIT writes PLANES. -/
theorem exec_frame {i : Instr} {s u : State} (h : exec i s = .next u) :
    sameFixed s u ∧ u.mem = s.mem ∧ u.errAddr = s.errAddr ∧ u.program = s.program
      ∧ (u.result ≠ s.result → isElementCommand i = true ∧ i ≠ .split16 ∧ i ≠ .split32)
      ∧ (u.planes ≠ s.planes → i = .split16 ∨ i = .split32) := by
  rcases instr_cases i with hi | ⟨op, d, rfl⟩
  · rcases exec_element_cases hi s with ⟨_, he⟩ | ⟨_, p, v, he, h1, h2⟩
    · rw [he] at h
      cases h
      simp [sameFixed]
    · rw [he] at h
      cases h
      refine ⟨by simp [sameFixed], by simp, by simp, by simp, fun hne => ⟨hi, ?_, ?_⟩, fun hne => ?_⟩
      · exact fun hh => hne (h1 (.inl hh))
      · exact fun hh => hne (h1 (.inr hh))
      · by_contra hc
        exact hne (h2 hc)
  · rw [exec_bufferCommand] at h
    cases hb : busy s with
    | true =>
      rw [acceptWord_busy _ _ hb] at h
      cases h
      simp [sameFixed]
    | false =>
      rw [acceptWord_idle _ _ hb] at h
      rcases startBuffer_cases op d (s.setCmd (encode (bufferCommand op d)))
        with ⟨c, _, he⟩ | ⟨_, _, he⟩ | ⟨f, he⟩ | ⟨_, _, _, _, he⟩ <;>
        rw [he] at h <;> cases h <;> simp [sameFixed]

/-- A CMD write, of any word, in the same terms. -/
theorem writeCmd_frame {w : Word} {s u : State} (h : writeCmd w s = .next u) :
    sameFixed s u ∧ u.mem = s.mem ∧ u.errAddr = s.errAddr ∧ u.program = s.program
      ∧ (u.result ≠ s.result → ∃ i, decode w = .ok i ∧ isElementCommand i = true ∧ i ≠ .split16 ∧ i ≠ .split32)
      ∧ (u.planes ≠ s.planes → decode w = .ok .split16 ∨ decode w = .ok .split32) := by
  rcases writeCmd_cases w s with ⟨c, hd, he⟩ | ⟨i, hd, he⟩
  · rw [he] at h
    unfold rejectWord acceptWord at h
    split at h <;> cases h <;> simp [sameFixed, raiseInvalidInput]
  · rw [he] at h
    obtain ⟨a, b, c, d, f, g⟩ := exec_frame h
    refine ⟨a, b, c, d, fun hh => ⟨i, hd, f hh⟩, fun hh => ?_⟩
    rcases g hh with rfl | rfl <;> simp [hd]

/-- What an operation of the host is and does when it answers a next state. -/
theorem hostStep_next_cases {op : HostOp} {s u : State} (h : hostStep op s = .next u) :
    (∃ offset, op = .regRead offset .word ∧ s.inReset = false ∧ u = hostRegRead offset s)
    ∨ (op = .wait ∧ s.inReset = false ∧ u = pollStatus s)
    ∨ (∃ w, op = .regWrite 0 .word w ∧ s.inReset = false ∧ writeCmd w s = .next u)
    ∨ (∃ offset w, offset ≠ 0 ∧ op = .regWrite offset .word w ∧ s.inReset = false ∧ u = writeRegister s offset w)
    ∨ (∃ a, op = .memRead a ∧ u = hostMemRead a.toNat s)
    ∨ (∃ a v, op = .memWrite a v ∧ u = hostMemWrite a.toNat v s)
    ∨ (op = .assertReset ∧ u = assertReset s)
    ∨ (op = .releaseReset ∧ u = releaseReset s) := by
  cases op with
  | regRead offset width =>
    rw [hostStep_regRead] at h
    rcases windowAccess_cases offset width s (fun t => .next (hostRegRead offset t))
      with ⟨e, he⟩ | ⟨h1, rfl, h3, he⟩ <;> rw [he] at h <;> cases h
    exact .inl ⟨_, rfl, h1, rfl⟩
  | regWrite offset width v =>
    rw [hostStep_regWrite] at h
    rcases windowAccess_cases offset width s (registerWrite offset v) with ⟨e, he⟩ | ⟨h1, rfl, h3, he⟩ <;> rw [he] at h
    · cases h
    · unfold registerWrite at h
      split at h
      · rename_i h0
        subst h0
        exact .inr (.inr (.inl ⟨_, rfl, h1, h⟩))
      · rename_i h0
        cases h
        exact .inr (.inr (.inr (.inl ⟨_, _, h0, rfl, h1, rfl⟩)))
  | wait =>
    rw [hostStep_wait] at h
    rcases windowAccess_cases 0x04 .word s (fun t => .next (pollStatus t)) with ⟨e, he⟩ | ⟨h1, _, h3, he⟩ <;>
      rw [he] at h <;> cases h
    exact .inr (.inl ⟨rfl, h1, rfl⟩)
  | memRead a =>
    rw [hostStep_memRead] at h
    rcases memoryAccess_cases a s (hostMemRead a.toNat) with ⟨e, he⟩ | ⟨h1, he⟩ <;> rw [he] at h <;> cases h
    simp
  | memWrite a v =>
    rw [hostStep_memWrite] at h
    rcases memoryAccess_cases a s (hostMemWrite a.toNat v) with ⟨e, he⟩ | ⟨h1, he⟩ <;> rw [he] at h <;> cases h
    simp
  | assertReset => cases h; simp
  | releaseReset => cases h; simp

/-- All that a read of a register can do: give the host its word and, if it is a read of STATUS with BUSY = 0, the regions of the commands
that have ended. -/
theorem hostRegRead_cases (offset : BitVec 8) (s : State) :
    (¬ (offset = 0x04 ∧ busy s = false) ∧ hostRegRead offset s = s.setReply (.word (readRegister s offset)))
    ∨ (offset = 0x04 ∧ busy s = false
        ∧ hostRegRead offset s = (s.setReply (.word (readRegister s offset))).setUnseen []) := by
  unfold hostRegRead
  dsimp only
  split
  · rename_i h
    exact .inr ⟨h.1, h.2, rfl⟩
  · rename_i h
    exact .inl ⟨h, rfl⟩

/-- A host write of a byte touches no register of BPD, and nothing of the host but its memory. -/
theorem writeFrame.fields {P : Host.Cell → Prop} {s u : State} (h : writeFrame P s u) :
    sameFixed s u ∧ u.status = s.status ∧ u.errAddr = s.errAddr ∧ u.result = s.result ∧ u.planes = s.planes ∧ u.elem = s.elem
      ∧ u.cmd = s.cmd ∧ u.program = s.program ∧ u.schedule = s.schedule ∧ u.reply = s.reply := by
  obtain ⟨m, n, f, _, rfl⟩ := h
  simp [sameFixed]

/-- `wait` reads STATUS and, while BUSY = 1, stays in the program. -/
theorem pollStatus_cases (s : State) :
    (busy s = false ∧ pollStatus s = (s.setReply (.word s.status)).setUnseen [])
    ∨ (busy s = true ∧ pollStatus s = (s.setReply (.word s.status)).setProgram (.wait :: s.program)) := by
  unfold pollStatus hostRegRead
  cases h : busy s
  · exact .inl ⟨rfl, rfl⟩
  · exact .inr ⟨rfl, rfl⟩

/-- Asserting reset resets the registers; memory and the count of draws may change by settling races. -/
theorem assertReset_frame (s : State) :
    ∃ m n, assertReset s = { resetRegisters ((s.setMem m).addDraws n) with inReset := true } := by
  unfold assertReset
  cases s.run with
  | none => exact ⟨s.mem, 0, rfl⟩
  | some r =>
    obtain ⟨m, n, h⟩ := settleRaces_frame true r s
    exact ⟨m, n, by dsimp only; rw [h]⟩

/-- Releasing reset resets the registers, or does nothing where reset is not asserted. -/
theorem releaseReset_cases (s : State) :
    (s.inReset = false ∧ releaseReset s = s)
    ∨ (s.inReset = true ∧ releaseReset s = { resetRegisters s with inReset := false }) := by
  unfold releaseReset
  cases h : s.inReset <;> simp

end Sys2Proof.Machine
end

