-- ==== Sys2Proof/Laws/PerInstr.lean ====
section
/-! SUPPORT. The statements made per command. CommandWord: the fields of the command's word are well formed, the word cut into
fields gives them back, and they name the command (30_encoding R71 to R76). -/

namespace Sys2Proof.Laws.CommandWord

/-- What is said of each command. -/
def Statement (i : Instr) : Prop :=
  (encodeFields i).wellFormed = true ∧ fieldsOf (encode i) = encodeFields i ∧ commandOf (encodeFields i) = some i

theorem split16 : Statement .split16 := ⟨rfl, fieldsOf_wordOf _, rfl⟩
theorem split32 : Statement .split32 := ⟨rfl, fieldsOf_wordOf _, rfl⟩
theorem join16 : Statement .join16 := ⟨rfl, fieldsOf_wordOf _, rfl⟩
theorem join32 : Statement .join32 := ⟨rfl, fieldsOf_wordOf _, rfl⟩
theorem fieldSign16 : Statement .fieldSign16 := ⟨rfl, fieldsOf_wordOf _, rfl⟩
theorem fieldExp16 : Statement .fieldExp16 := ⟨rfl, fieldsOf_wordOf _, rfl⟩
theorem fieldMant16 : Statement .fieldMant16 := ⟨rfl, fieldsOf_wordOf _, rfl⟩
theorem fieldSign32 : Statement .fieldSign32 := ⟨rfl, fieldsOf_wordOf _, rfl⟩
theorem fieldExp32 : Statement .fieldExp32 := ⟨rfl, fieldsOf_wordOf _, rfl⟩
theorem fieldMant32 : Statement .fieldMant32 := ⟨rfl, fieldsOf_wordOf _, rfl⟩
theorem forward16 : Statement .forward16 := ⟨rfl, fieldsOf_wordOf _, rfl⟩
theorem forward32 : Statement .forward32 := ⟨rfl, fieldsOf_wordOf _, rfl⟩
theorem inverse16 : Statement .inverse16 := ⟨rfl, fieldsOf_wordOf _, rfl⟩
theorem inverse32 : Statement .inverse32 := ⟨rfl, fieldsOf_wordOf _, rfl⟩

end Sys2Proof.Laws.CommandWord
end

