-- ==== Sys2Proof/Laws/Run.lean ====
section
/-! SUPPORT. The invariant in pieces, the acceptance of a command, and what the engine does when it is led through a list of pairs. -/

namespace Sys2Proof.Machine

open Sys2Proof Sys2Proof.Config

/-! The invariant. -/

/-- The hidden state of a machine in order is in order. -/
theorem inv_runningOk {s : State} {r : Running} (hi : s.Inv) (hr : s.run = some r) : runningOk s.platform r = true := by
  have := hi.2.2.2.1
  rw [hr] at this
  simpa using this

/-- An idle machine in order has no hidden state. -/
theorem inv_run_eq_none {s : State} (hi : s.Inv) (hb : busy s = false) : s.run = none := by
  have := hi.2.2.1
  rw [hb] at this
  cases hh : s.run with
  | none => rfl
  | some x => rw [hh] at this; cases this

/-- No command runs while reset is asserted. -/
theorem inv_not_inReset {s : State} (hi : s.Inv) {r} (hr : s.run = some r) : s.inReset = false := by
  cases h : s.inReset with
  | false => rfl
  | true =>
    have := hi.2.2.2.2.2.2 h
    have h2 := congrArg State.run this
    rw [hr] at h2
    simp [resetRegisters] at h2

/-- An update that keeps STATUS, the hidden state, the platform and CAP keeps the invariant, if memory keeps its form. -/
theorem inv_of_same {s u : State} (hi : s.Inv) (hm : Memory.wf u.mem = true) (h1 : u.status = s.status)
    (h2 : u.run = s.run) (h7 : u.unseen = s.unseen) (h3 : u.platform = s.platform) (h4 : u.cap = s.cap)
    (h5 : u.inReset = false ∨ (resetRegisters s = s → resetRegisters u = u)) (h6 : u.inReset = true → s.inReset = true) :
    u.Inv := by
  obtain ⟨a, b, c, d, g, e, f⟩ := hi
  refine ⟨hm, by rw [h1]; exact b, ?_, by rw [h2, h3]; exact d, by rw [h7, h3]; exact g, by rw [h4, h3]; exact e, ?_⟩
  · unfold busy at c ⊢; rw [h1, h2]; exact c
  · intro hh
    rcases h5 with h5 | h5
    · rw [h5] at hh; cases hh
    · exact h5 (f (h6 hh))

/-- A step that leaves no command running keeps the invariant. -/
theorem inv_of_stopped {s u : State} (hi : s.Inv) (hres : s.inReset = false) (hm : Memory.wf u.mem = true)
    (hst : u.status ∈ statusValues) (hb : statusBusyBit u.status = false) (hr : u.run = none)
    (hn : u.unseen.all (endedOk s.platform) = true) (hf : sameFixed s u) : u.Inv := by
  refine ⟨hm, hst, by unfold busy; rw [hb, hr]; rfl, by rw [hr]; rfl, by rw [hf.1]; exact hn,
    by rw [hf.2.1, hf.1]; exact hi.2.2.2.2.2.1, ?_⟩
  intro h; rw [hf.2.2, hres] at h; cases h

/-! Acceptance. -/

/-- What the acceptance of a buffer command leaves. -/
theorem exec_accepted {op : BufferOp} {d : DType} {s u : State} {r : Running} (hm : Memory.wf s.mem = true) (hrun : s.run = none)
    (hb : busy s = false) (h : exec (bufferCommand op d) s = .next u) (hr : u.run = some r) :
    ∃ w, u = ((s.setCmd w).setRun (some r)).setStatus statusBusy ∧ r = latch op d (s.setCmd w)
      ∧ runningOk s.platform r = true ∧ s.count.toNat * elemBytes d = s.len.toNat := by
  rw [exec_bufferCommand, acceptWord_idle _ _ hb] at h
  rcases startBuffer_cases op d (s.setCmd (encode (bufferCommand op d)))
          with ⟨c, _, he⟩ | ⟨_, _, he⟩ | ⟨f, he⟩ | ⟨h1, h2, h3, h4, he⟩ <;> rw [he] at h <;> cases h
  · simp [hrun] at hr
  · simp [hrun] at hr
  · have := latch_runningOk (s := s.setCmd (encode (bufferCommand op d))) (by simpa using hm) h1 h2 h3 h4
    have hr' : latch op d (s.setCmd (encode (bufferCommand op d))) = r := by simpa using hr
    rw [hr'] at this
    refine ⟨_, by rw [hr'], hr'.symm, by simpa using this, ?_⟩
    exact ((operandCheck_eq_none _ _ _).1 h1).1

/-! Runs. -/

/-- The regions of hidden state in order are apart. -/
theorem regionsApart_of_runningOk {p : Platform} {r : Running} (h : runningOk p r = true) : regionsApart r = true := by
  have := ((operandsOk_iff p r).1 ((runningOk_iff p r).1 h).1)
  tauto

/-- The transfer of an admitted pair completes. -/
theorem transferPair_of_admitted {s : State} {r : Running} {t : Nat} (hr : runningOk s.platform r = true) (ht : t < pairTotal r)
    (h1 : portAdmits s.platform (pairSrc r t) .read = true) (h2 : portAdmits s.platform (pairDst r t) .write = true) :
    transferPair t r s = .next (completePair t (engineRead (pairSrc r t) s) r s) := by
  have ho := ((runningOk_iff _ r).1 hr).1
  have hl := pair_lt_space ho ht
  unfold transferPair
  rw [if_neg (by omega), h1, h2, if_neg (by simp), if_neg (by omega), if_neg (by simp)]

theorem pairTotal_pos {p : Platform} {r : Running} (h : runningOk p r = true) : 0 < pairTotal r := by
  have := ((progressOk_iff r).1 ((runningOk_iff p r).1 h).2.1).2.2; omega

/-- Led through a list of pairs from s, the engine ends the command, and memory is then m. -/
structure RunEnds (ts : List Nat) (r : Running) (s : State) (m : List Host.Cell) : Prop where
  run : runPairs ts s
    = .next (((((s.setMem m).setRun none).setUnseen (forget r :: s.unseen)).setStatus statusDone).addDraws ts.length)
  wf : Memory.wf m = true
  dst : ∀ t ∈ ts, readByte m (pairDst r t) = readByte s.mem (pairSrc r t)
  other : ∀ a, (∀ t ∈ ts, a ≠ pairDst r t) → readByte m a = readByte s.mem a

/-- Led through the pairs that are left, without a race, on a coherent platform, the engine ends the command with every byte moved, or
ends it with a bus error because the port refuses one. -/
theorem runPairs_cases : ∀ (ts : List Nat) (r : Running) (s : State), runningOk s.platform r = true → s.run = some r →
    r.hostWrites = [] → s.platform.memCoherent = true → Memory.wf s.mem = true → ts.Nodup →
    (∀ t ∈ ts, t < pairTotal r ∧ t ∉ r.done) → r.done.length + ts.length = pairTotal r → ts ≠ [] →
    (∃ m, RunEnds ts r s m) ∨ (¬ allAdmitted s.platform r ∧ ∃ u d, runPairs ts s = .next u ∧ u.status = statusBusError d) := by
  intro ts
  induction ts with
  | nil => intro r s _ _ _ _ _ _ _ _ h; exact absurd rfl h
  | cons t ts ih =>
    intro r s hok hr hw hc hm hnd hfree hlen _
    have ht := (hfree t (by simp)).1
    have hnf := (hfree t (by simp)).2
    have ha := regionsApart_of_runningOk hok
    have hlsp := pair_lt_space ((runningOk_iff _ r).1 hok).1 ht
    have hread : engineRead (pairSrc r t) s = readByte s.mem (pairSrc r t) := by
      unfold engineRead; rw [if_pos hc]
    have hrp : runPairs (t :: ts) s = (match transferPair t r s with
      | .next s' => runPairs ts s'
      | .fault f => .fault f
      | .refused f => .refused f) := by
      conv => lhs; unfold runPairs
      rw [hr] <;> rfl
    rcases transferPair_cases t r s with ⟨x, h1, h2, he⟩ | ⟨x, d, hx, had, hxd, he⟩ | ⟨_, _, h3, h4, he⟩
    · rcases h2 with h2 | h2 <;> omega
    · refine .inr ⟨?_, raiseBusError x d r s, (reportIn s r x d).2, ?_, ?_⟩
      · intro hall
        have := hall t ht
        subst hxd
        cases d
        · rw [show portAdmits s.platform (pairAccess r t .read) .read = true from this.1] at had; cases had
        · rw [show portAdmits s.platform (pairAccess r t .write) .write = true from this.2] at had; cases had
      · rw [hrp, he]
        cases ts with
        | nil => rfl
        | cons => unfold runPairs; rw [raiseBusError_of_no_race hw]; simp
      · exact raiseBusError_status x d r s
    · rw [hread] at he
      have hwl : (withPair r t).done.length = r.done.length + 1 := length_addPair hnf
      have hnd' := List.nodup_cons.1 hnd
      rcases completePair_cases t (readByte s.mem (pairSrc r t)) r s with ⟨hl, hcp⟩ | ⟨hl, hcp⟩
      · rw [hcp] at he
        have hok' := withPair_runningOk hok ht hnf hl
        have hne : ts ≠ [] := by
          intro e; subst e
          rw [hwl] at hl; simp at hlen; exact hl hlen
        obtain ⟨s', hs'⟩ : ∃ s', s' =
            ((s.setMem (writeByte s.mem (pairDst r t) (readByte s.mem (pairSrc r t)))).setRun (some (withPair r t))).addDraws 1 := ⟨_, rfl⟩
        have hpl : s'.platform = s.platform := by rw [hs']; simp
        have hmem : s'.mem = writeByte s.mem (pairDst r t) (readByte s.mem (pairSrc r t)) := by rw [hs']; simp
        have := ih (withPair r t) s' (by rw [hpl]; exact hok') (by rw [hs']; simp) hw (by rw [hpl]; exact hc)
          (by rw [hmem]; exact writeByte_wf _ hm hlsp.2) hnd'.2 (fun u hu => ⟨(hfree u (by simp [hu])).1, fun hh => ?_⟩)
          (by rw [hwl]; simp at hlen; have : pairTotal (withPair r t) = pairTotal r := rfl
              omega) hne
        · rw [← hs'] at he
          rw [he] at hrp
          rcases this with ⟨m, g⟩ | ⟨hna, u, d, hu, hst⟩
          · refine .inl ⟨m, ?_, g.wf, ?_, ?_⟩
            · rw [hrp]
              show runPairs ts s' = _
              rw [g.run, hs']
              simp only [State.setMem, State.setRun, State.setUnseen, State.setStatus, State.addDraws, List.length_cons,
                Nat.add_assoc, Nat.add_comm 1]
              rfl
            · intro u hu
              rcases List.mem_cons.1 hu with rfl | hu
              · rw [g.other (pairDst r u), hmem]
                · simp
                · intro v hv e
                  have := pairDst_injective ha ht (hfree v (by simp [hv])).1 e
                  subst this
                  exact hnd'.1 hv
              · have := g.dst u hu
                rw [hmem, readByte_writeByte_other] at this
                · exact this
                · exact pairSrc_ne_pairDst ha (hfree u (by simp [hu])).1 ht
            · intro a h
              rw [g.other a (fun u hu => h u (by simp [hu])), hmem]
              exact readByte_writeByte_other _ _ (h t (by simp))
          · refine .inr ⟨fun h => hna (by rw [hpl]; exact h), u, d, ?_, hst⟩
            rw [hrp]; exact hu
        · rcases (mem_addPair _ _ _).1 hh with rfl | hh
          · exact hnd'.1 hu
          · exact (hfree u (by simp [hu])).2 hh
      · rw [hcp, endCommand_of_no_race (by exact hw)] at he
        have : ts = [] := by
          rw [hwl] at hl
          simp at hlen
          replace hl : r.done.length + 1 = pairTotal r := hl
          apply List.eq_nil_of_length_eq_zero; omega
        subst this
        refine .inl ⟨writeByte s.mem (pairDst r t) (readByte s.mem (pairSrc r t)), ?_, writeByte_wf _ hm hlsp.2, ?_, ?_⟩
        · rw [hrp, he]
          show Host.Outcome.next _ = _
          simp only [State.setMem, State.setRun, State.setUnseen, State.setStatus, State.addDraws, List.length_cons,
            List.length_nil]
          rfl
        · intro u hu
          simp at hu; subst hu; simp
        · intro a h
          exact readByte_writeByte_other _ _ (h t (by simp))

/-- The scalar path is the pairs in their order. -/
theorem scalarFrom_perm (r : Running) : (scalarFrom r 0).Perm (List.range (pairTotal r)) := by
  have : scalarFrom r 0 = List.range (pairTotal r) := by
    unfold scalarFrom pairTotal elementPairs pairNumber
    simp only [Nat.sub_zero, Nat.zero_add]
    generalize r.count.toNat = n
    induction n with
    | zero => simp
    | succ n ih =>
      rw [List.range_succ, List.flatMap_append, ih, Nat.succ_mul, List.range_add]
      simp
  rw [this]

theorem mem_scalarFrom (r : Running) (f t : Nat) : t ∈ scalarFrom r f ↔ f ≤ pairElem r t ∧ pairElem r t < r.count.toNat := by
  unfold scalarFrom
  simp only [List.mem_flatMap, List.mem_range, mem_elementPairs]
  constructor
  · rintro ⟨j, hj, h⟩; omega
  · rintro ⟨h1, h2⟩; exact ⟨pairElem r t - f, by omega, by omega⟩

theorem pairElem_lt_iff (r : Running) (t : Nat) : pairElem r t < r.count.toNat ↔ t < pairTotal r := by
  unfold pairElem pairTotal
  exact Nat.div_lt_iff_lt_mul (planeCount_pos _)

theorem mem_chunkPairs (r : Running) (w c t : Nat) : t ∈ chunkPairs r w c ↔ c * w ≤ pairElem r t ∧ pairElem r t < c * w + w := by
  unfold chunkPairs
  simp only [List.mem_flatMap, List.mem_range, List.mem_map]
  constructor
  · rintro ⟨p, hp, j, hj, rfl⟩
    rw [pairElem_pairNumber r hp]; omega
  · rintro ⟨h1, h2⟩
    refine ⟨pairPlane r t, pairPlane_lt r t, pairElem r t - c * w, by omega, ?_⟩
    rw [show c * w + (pairElem r t - c * w) = pairElem r t by omega]
    exact pairNumber_of r t

end Sys2Proof.Machine
end

