-- ==== Sys2Proof/Tests/Slice0.lean ====
section
/-! SUPPORT. Small tests, their expected results taken from 95_test_vectors or worked out by hand from the rules, and for each
statement with hypotheses a witness that meets them. -/

namespace Sys2Proof.Tests

open Sys2Proof Sys2Proof.Machine Sys2Proof.Config

/-! ## Words -/

theorem test_wellFormed_split16 : (Fields.mk 0 0 1 1).wellFormed = true := by decide

theorem test_illFormed_op : (Fields.mk 0 0 1 6).opOk = false ∧ (Fields.mk 0 0 1 6).wellFormed = false := by decide

theorem test_illFormed_rsvd : (Fields.mk 1 0 1 1).rsvdOk = false ∧ (Fields.mk 0 1 1 1).rsvdOk = false
    ∧ (Fields.mk 1 0 1 1).wellFormed = false := by decide

theorem test_illFormed_dt : (Fields.mk 0 0 3 1).dtOk = false ∧ (Fields.mk 0 0 3 1).wellFormed = false := by decide

theorem test_illFormed_fld : (Fields.mk 0 3 1 3).fldOk = false ∧ (Fields.mk 0 3 1 3).wellFormed = false := by decide

/-- 30_encoding R71 to R76: RSVD 31:8, FLD 7:6, DT 5:4, OP 3:0, written out bit by bit. -/
theorem test_decode_codec :
    decode 0b000000000000000000000000_00_01_0001#32 = .ok .split16
    ∧ decode 0b000000000000000000000000_00_10_0001#32 = .ok .split32
    ∧ decode 0b000000000000000000000000_00_01_0010#32 = .ok .join16
    ∧ decode 0b000000000000000000000000_00_10_0010#32 = .ok .join32 := ⟨rfl, rfl, rfl, rfl⟩

theorem test_decode_field :
    decode 0b000000000000000000000000_00_01_0011#32 = .ok .fieldSign16
    ∧ decode 0b000000000000000000000000_01_01_0011#32 = .ok .fieldExp16
    ∧ decode 0b000000000000000000000000_10_01_0011#32 = .ok .fieldMant16
    ∧ decode 0b000000000000000000000000_00_10_0011#32 = .ok .fieldSign32
    ∧ decode 0b000000000000000000000000_01_10_0011#32 = .ok .fieldExp32
    ∧ decode 0b000000000000000000000000_10_10_0011#32 = .ok .fieldMant32 := ⟨rfl, rfl, rfl, rfl, rfl, rfl⟩

theorem test_decode_transform :
    decode 0b000000000000000000000000_00_01_0100#32 = .ok .forward16
    ∧ decode 0b000000000000000000000000_00_10_0100#32 = .ok .forward32
    ∧ decode 0b000000000000000000000000_00_01_0101#32 = .ok .inverse16
    ∧ decode 0b000000000000000000000000_00_10_0101#32 = .ok .inverse32 := ⟨rfl, rfl, rfl, rfl⟩

/-- 95_test_vectors 2.1: the rejected words. -/
theorem test_decode_rejects :
    decode 0x00000000 = .error .badOp ∧ decode 0x0000000F = .error .badOp ∧ decode 0x00000106 = .error .badOp
    ∧ decode 0x00000121 = .error .rsvdBits ∧ decode 0x00000061 = .error .rsvdBits ∧ decode 0x000000E4 = .error .rsvdBits
    ∧ decode 0x00000001 = .error .badDtype ∧ decode 0x00000034 = .error .badDtype ∧ decode 0x000000C3 = .error .badDtype
    ∧ decode 0x000000D3 = .error .badField ∧ decode 0x000000E3 = .error .badField :=
  ⟨rfl, rfl, rfl, rfl, rfl, rfl, rfl, rfl, rfl, rfl, rfl⟩

theorem test_decodeTableWord : decodeTableWord 32 0x14 = some .forward16 ∧ decodeTableWord 32 0x6 = none := ⟨rfl, rfl⟩

/-! ## Concrete machines -/

/-- A platform with every parameter given. -/
def platform16 : Platform where
  f16Fmt := .binary16
  vlen := 8
  vminLessOne := 1
  capIn := true
  bpdBase := 0x80000000
  refused := []
  devices := [⟨0x9000, 16⟩]
  memCoherent := true

/-- The same with the other format and no vector unit. -/
def platformBf : Platform := { platform16 with f16Fmt := .bfloat16, vlen := 0 }

/-- The machine after reset on a given platform. -/
def board (p : Platform) : State := { State.reset with platform := p, cap := capAtReset p }

/-- A board with ELEM and PLANES given. -/
def codec (elem planes : Word) : State := { board platform16 with elem := elem, planes := planes }

/-- The base configuration of 95_test_vectors 2.5, with three elements of program P2 in the element buffer. -/
def base32 : State :=
  { board platform16 with
    count := 3, len := 12, ebuf := 0x1000, pb0 := 0x2000, pb1 := 0x2010, pb2 := 0x2020, pb3 := 0x2030
    mem := [(0x1002, 0x80), (0x1003, 0x3F), (0x1007, 0x80), (0x1008, 0x01), (0x100A, 0x80), (0x100B, 0x7F)] }

/-- One dtype16 element, 0xBBAA, at 0x1000, and a second buffer's address to come. -/
def base16 : State :=
  { board platform16 with
    count := 1, len := 2, ebuf := 0x1000, pb0 := 0x2000, pb1 := 0x2010, mem := [(0x1000, 0xAA), (0x1001, 0xBB)] }

/-- base32 with a command accepted. -/
def started (op : BufferOp) : State :=
  { base32 with cmd := encode (bufferCommand op .dtype32), status := 1, run := some (latch op .dtype32 base32) }

/-- s with one operation for the host, which moves next. -/
def asked (op : HostOp) (s : State) : State := { s with program := [op], schedule := [.host] }

/-- The state an outcome leads to. -/
def after (o : Host.Outcome State Fault Refusal) : State :=
  match o with
  | .next s => s
  | .fault _ => State.reset
  | .refused _ => State.reset

/-- One field of the state an outcome leads to. -/
def got {α : Type} (f : State → α) (o : Host.Outcome State Fault Refusal) : Option α :=
  match o with
  | .next s => some (f s)
  | .fault _ => none
  | .refused _ => none

/-- The refusal of an outcome. -/
def refusal (o : Host.Outcome State Fault Refusal) : Option Refusal :=
  match o with
  | .next _ => none
  | .fault _ => none
  | .refused r => some r

/-! ## Element commands (95_test_vectors 2.2 to 2.4) -/

theorem test_split16 : got State.planes (exec .split16 (codec 0xABCD1234 0)) = some 0x00001234 := by decide

theorem test_split32 : got State.planes (exec .split32 (codec 0x807FFFFF 0)) = some 0x807FFFFF := by decide

theorem test_join16 : got State.result (exec .join16 (codec 0 0xABCD8001)) = some 0x00008001 := by decide

theorem test_join32 : got State.result (exec .join32 (codec 0 0x7F800001)) = some 0x7F800001 := by decide

theorem test_fieldSign16 : got State.result (exec .fieldSign16 (codec 0xFF80 0)) = some 1
    ∧ got State.result (exec .fieldSign16 (codec 0xFFFF7E01 0)) = some 0 := by decide

theorem test_fieldExp16_binary16 : got State.result (exec .fieldExp16 (codec 0xFFFF7E01 0)) = some 0x1F := by decide

theorem test_fieldExp16_bfloat16 :
    got State.result (exec .fieldExp16 { codec 0xFFFF7E01 0 with platform := platformBf }) = some 0xFC := by decide

theorem test_fieldMant16_binary16 : got State.result (exec .fieldMant16 (codec 0x7FC1 0)) = some 0x3C1 := by decide

theorem test_fieldMant16_bfloat16 :
    got State.result (exec .fieldMant16 { codec 0x7FC1 0 with platform := platformBf }) = some 0x41 := by decide

theorem test_fieldSign32 : got State.result (exec .fieldSign32 (codec 0xC0490FDB 0)) = some 1 := by decide

theorem test_fieldExp32 : got State.result (exec .fieldExp32 (codec 0xC0490FDB 0)) = some 0x80 := by decide

theorem test_fieldMant32 : got State.result (exec .fieldMant32 (codec 0xC0490FDB 0)) = some 0x490FDB := by decide

/-! ## Buffer commands (95_test_vectors 2.5 to 2.7) -/

theorem test_forward32_accepted : got State.status (exec .forward32 base32) = some 0x00000001 := by decide

theorem test_forward32_checks :
    got State.status (exec .forward32 { base32 with len := 11, pb1 := 0x2002 }) = some 0x00000512
    ∧ got State.status (exec .forward32 { base32 with count := 0x40000000, len := 0 }) = some 0x00000512
    ∧ got State.status (exec .forward32 { base32 with count := 2, len := 8, ebuf := 0xFFFFFFF8 }) = some 0x00000001
    ∧ got State.status (exec .forward32 { base32 with count := 2, len := 8, ebuf := 0xFFFFFFFC, pb0 := 0xFFFFFFFC })
        = some 0x00000612
    ∧ got State.status (exec .forward32 { base32 with pb1 := 0x2002 }) = some 0x00000712
    ∧ got State.status (exec .forward32 { base32 with pb1 := 0x2003 }) = some 0x00000001 := by decide

theorem test_inverse32_checks :
    got State.status (exec .inverse32 { base32 with pb1 := 0x2000, pb2 := 0x2000, pb3 := 0x2000 }) = some 0x00000001
    ∧ got State.status (exec .inverse32 { base32 with pb2 := 0x1004 }) = some 0x00000712 := by decide

theorem test_forward16_ignores_pb2 :
    got State.status (exec .forward16 { base32 with len := 6, pb2 := 0x2000, pb3 := 0x2000 }) = some 0x00000001
    ∧ got State.status (exec .forward16 base32) = some 0x00000512 := by decide

theorem test_inverse16_zero :
    got State.status (exec .inverse16 { base32 with count := 0, len := 0 }) = some 0x00000002 := by decide

theorem test_forward32_over_window :
    refusal (exec .forward32 { base32 with pb3 := 0x800000FF }) = some .regionOverWindow
    ∧ refusal (exec .forward32 { base32 with pb3 := 0x8FFE }) = some .regionWithSideEffects := by decide

/-- Program P2: pair (2, 3), the top byte of the third element, goes to plane 3. -/
theorem test_forward32_pair :
    got (fun s => readByte s.mem 0x2032) (transferPair 11 (latch .forward .dtype32 base32) (started .forward)) = some 0x7F := by
  decide

/-- 95_test_vectors 2.6: INVERSE32 of one plane address four times writes its byte four times. -/
theorem test_inverse32_pair :
    got (fun s => readByte s.mem 0x1007) (transferPair 7
      { latch .inverse .dtype32 base32 with pb := [0x2000, 0x2000, 0x2000, 0x2000] }
      { started .inverse with mem := [(0x2000, 0x11), (0x2001, 0x22), (0x2002, 0x33)] }) = some 0x22 := by decide

/-- A port that refuses only the write of plane 2, byte 1. -/
def wall2021 : Platform := { platform16 with refused := [⟨⟨0x2021, 1⟩, .write⟩] }

/-- With one refused access there is one report, whatever the draw. -/
theorem report_wall2021 (r : Running) (n m : Nat) : reportedAccess wall2021 r n m (0x2021, .write) = (0x2021, .write) := by
  rcases reportedAccess_cases wall2021 r n m (0x2021, .write) with h | ⟨t, d, _, hd, h⟩
  · exact h
  · rw [h]
    generalize pairAccess r t d = a at hd ⊢
    cases d
    · simp [portAdmits, wall2021] at hd
    · have ha : inRegion ⟨0x2021, 1⟩ a = true := by simpa [portAdmits, wall2021] using hd
      have hr := (inRegion_iff _ a).1 ha
      rw [show a = 0x2021 by dsimp only at hr; omega]

/-- 95_test_vectors 2.7: the port refuses the write of plane 2, byte 1. -/
theorem test_bus_error :
    got (fun s => (s.status, s.errAddr)) (transferPair 6 (latch .forward .dtype32 base32)
      { started .forward with platform := wall2021 }) = some (0x00000222, 0x00002021) := by
  have h : transferPair 6 (latch .forward .dtype32 base32) { started .forward with platform := wall2021 }
      = .next (raiseBusError 0x2021 .write (latch .forward .dtype32 base32) { started .forward with platform := wall2021 }) := by
    rfl
  rw [h]
  simp only [got, raiseBusError_status, raiseBusError_errAddr, reportIn, report_wall2021]
  decide

/-- 60_exceptions R146 (b): a step that finds a read refused may report the write of another pair, whose source is refused as well. -/
theorem test_bus_error_reports_another :
    reportedAccess { platform16 with refused := [⟨⟨0x1000, 12⟩, .read⟩, ⟨⟨0x2021, 1⟩, .write⟩] }
      (latch .forward .dtype32 base32) 6 1 (0x1000, .read) = (0x2021, .write) := by decide

/-! ## Registers and reset (95_test_vectors 2.8, 10_state R22 to R26) -/

theorem test_hwcfg : readRegister (board platform16) 0x08 = 0x00000801 ∧ readRegister (board platformBf) 0x08 = 0x00000002 := by
  decide

theorem test_busy_ignores_cmd :
    got (fun s => (s.cmd, s.planes)) (step (asked (.regWrite 0 .word 0x21) (started .forward))) = some (0x24, 0) := by decide

theorem test_read_only_register :
    got State.result (step (asked (.regWrite 0x18 .word 0xFFFFFFFF) (board platform16))) = some 0
    ∧ got State.reply (step (asked (.regRead 0x3C .word) (board platform16))) = some (some (.word 0)) := by decide

theorem test_refused_accesses :
    refusal (step (asked (.regRead 0x04 .byte) (board platform16))) = some .registerAccessNotWord
    ∧ refusal (step (asked (.regRead 0x06 .word) (board platform16))) = some .registerAccessMisaligned
    ∧ refusal (step (asked .wait { board platform16 with inReset := true })) = some .accessDuringReset
    ∧ refusal (step (asked (.memRead 0x80000004) (board platform16))) = some .registerAccessNotWord := by decide

theorem test_wait_stays : got State.program (step (asked .wait (started .forward))) = some [.wait]
    ∧ got State.program (step (asked .wait (board platform16))) = some [] := by decide

theorem test_reset_abandons :
    got (fun s => (s.status, s.run, s.inReset)) (step (asked .assertReset (started .forward))) = some (0, none, true) := by decide

/-- base32 with its FORWARD32 ended and no STATUS read since. -/
def ended : State := { base32 with status := 2, unseen := [forget (latch .forward .dtype32 base32)] }

/-- 70_reset_and_hazards R176: a STATUS read with BUSY = 0 ends the ownership; a read of another register does not. -/
theorem test_status_read_hands_back :
    got State.unseen (step (asked (.regRead 0x04 .word) ended)) = some []
    ∧ got State.unseen (step (asked .wait ended)) = some []
    ∧ got (fun s => s.unseen.length) (step (asked (.regRead 0x18 .word) ended)) = some 1 := by decide

/-- 70_reset_and_hazards R176: what a host write of 0x55 to 0x1001, a source byte, after the end can make of 0x2010, which holds its byte, and what
a write to 0x2010 itself can: the values of 20_memory R63 (b) and (c). -/
theorem test_late_write_values :
    (lateBytes 0x1001 (putByte 0x1001 0x55 ended)).map (fun d => (d, lateValues 0x1001 (putByte 0x1001 0x55 ended) d))
      = [(0x2010, [0x55, 0x00])]
    ∧ (lateBytes 0x2010 (putByte 0x2010 0x55 ended)).map (fun d => (d, lateValues 0x2010 (putByte 0x2010 0x55 ended) d))
      = [(0x2010, [0x00, 0x55])] := by
  decide

theorem test_memory_write_keeps_form :
    writeByte [(3, 0x11), (7, 0x22)] 5 0x33 = [(3, 0x11), (5, 0x33), (7, 0x22)]
    ∧ writeByte [(3, 0x11), (7, 0x22)] 7 0x00 = [(3, 0x11)] := by decide

/-- The first step after reset runs the word withFetchWord places, on whatever platform. -/
theorem test_first_command :
    got (fun s => (s.cmd, s.status)) (step (State.reset.withFetchWord 32 0x21)) = some (0x21, 2)
    ∧ got (fun s => (s.cmd, s.status)) (step (State.reset.withFetchWord 32 0x24)) = some (0x24, 2)
    ∧ got (fun s => (s.cmd, s.status)) (step (State.reset.withFetchWord 32 0xD3)) = some (0xD3, 0x412) := by decide

/-! ## Witnesses: states and operands that meet the hypotheses of the statements -/

/-- BUSY = 0 and nothing else is asked of a state by the statements about element commands. -/
theorem witness_idle : busy (codec 0xABCD1234 0) = false := by decide

theorem witness_aboutTo : aboutTo (.regWrite 0 .word 0x21) (asked (.regWrite 0 .word 0x21) (board platform16))
    ∧ (asked (.regWrite 0 .word 0x21) (board platform16)).inReset = false
    ∧ busy (asked (.regWrite 0 .word 0x21) (board platform16)) = false ∧ decode 0x21 = .ok .split32 :=
  ⟨⟨rfl, rfl⟩, rfl, by decide, rfl⟩

/-- DecodeReportsTheFirstCheck: one word for each clause, at the boundaries of OP, DT and FLD. -/
theorem witness_DecodeReportsTheFirstCheck :
    ((0x00 : Word).toNat % 16 = 0 ∧ 5 < (0x06 : Word).toNat % 16)
    ∧ (1 ≤ (0x101 : Word).toNat % 16 ∧ (0x101 : Word).toNat / 256 ≠ 0)
    ∧ ((0x45 : Word).toNat % 16 = 5 ∧ (0x45 : Word).toNat / 64 % 4 ≠ 0)
    ∧ ((0x35 : Word).toNat % 16 = 5 ∧ (0x35 : Word).toNat / 256 = 0 ∧ (0x35 : Word).toNat / 64 % 4 = 0
      ∧ (0x35 : Word).toNat / 16 % 4 = 3)
    ∧ ((0xE3 : Word).toNat % 16 = 3 ∧ (0xE3 : Word).toNat / 256 = 0 ∧ (0xE3 : Word).toNat / 16 % 4 = 2
      ∧ (0xE3 : Word).toNat / 64 % 4 = 3)
    ∧ ((0xA3 : Word).toNat % 16 = 3 ∧ (0xA3 : Word).toNat / 256 = 0 ∧ (0xA3 : Word).toNat / 16 % 4 = 2
      ∧ (0xA3 : Word).toNat / 64 % 4 ≠ 3) := by decide

/-- CmdWriteIsGatedByBusy: a step that stores the word, one that ignores it, and one that reads it. -/
theorem witness_CmdWriteIsGatedByBusy : (after (step (asked (.regWrite 0 .word 0x21) (board platform16)))).cmd ≠ 0
    ∧ step (asked (.regWrite 0 .word 0x21) (board platform16))
      = .next (after (step (asked (.regWrite 0 .word 0x21) (board platform16))))
    ∧ aboutTo (.regWrite 0 .word 0x21) (asked (.regWrite 0 .word 0x21) (started .forward))
    ∧ (started .forward).inReset = false ∧ busy (asked (.regWrite 0 .word 0x21) (started .forward)) = true
    ∧ aboutTo (.regRead 0 .word) (asked (.regRead 0 .word) (started .forward)) :=
  ⟨by decide, rfl, ⟨rfl, rfl⟩, rfl, by decide, ⟨rfl, rfl⟩⟩

/-- InvalidInputChangesOnlyCmdAndStatus: each cause, from decode and from the operand checks. -/
theorem witness_InvalidInputChangesOnlyCmdAndStatus :
    decode 0x6 = .error .badOp ∧ decode 0x111 = .error .rsvdBits ∧ decode 0x1 = .error .badDtype
    ∧ decode 0xD3 = .error .badField
    ∧ operandCheck .forward .dtype32 { base32 with len := 11 } = some .lenMismatch
    ∧ operandCheck .inverse .dtype32 { base32 with pb3 := 0xFFFFFFFE } = some .range
    ∧ operandCheck .forward .dtype32 { base32 with pb1 := 0x2002 } = some .overlap
    ∧ busy { base32 with len := 11 } = false :=
  ⟨rfl, rfl, rfl, rfl, by decide, by decide, by decide, by decide⟩

theorem witness_OtherWordsAreInvalid : ∀ i, (0x00000025 + 0x100 : Word) ≠ encode i := by
  intro i
  cases i <;> decide

theorem witness_CommandsWaitForIdle : busy (started .inverse) = true := by decide

theorem witness_IdleAndWaitingKeepTheRegisters :
    (nextAgent (board platform16) = .host ∧ (board platform16).program = [])
    ∧ (nextAgent { board platform16 with schedule := [.engine] } = .engine ∧ (board platform16).run = none)
    ∧ (aboutTo .wait (asked .wait (started .forward)) ∧ (asked .wait (started .forward)).inReset = false
      ∧ busy (asked .wait (started .forward)) = true)
    ∧ (aboutTo .wait (asked .wait (board platform16)) ∧ busy (asked .wait (board platform16)) = false) :=
  ⟨⟨rfl, rfl⟩, ⟨rfl, rfl⟩, ⟨⟨rfl, rfl⟩, rfl, by decide⟩, ⟨rfl, rfl⟩, by decide⟩

theorem witness_PlaneIsTheByteAtItsOffset :
    exec .split16 (codec 0xABCD1234 0) = .next (after (exec .split16 (codec 0xABCD1234 0)))
    ∧ exec .split32 (codec 0xABCD1234 0) = .next (after (exec .split32 (codec 0xABCD1234 0))) := ⟨rfl, rfl⟩

theorem witness_ElementCommandsStayInTheirRegisters :
    (isElementCommand .split16 = true ∧ exec .split16 (codec 1 2) = .next (after (exec .split16 (codec 1 2))))
    ∧ (isElementCommand .join32 = true ∧ exec .join32 (codec 1 2) = .next (after (exec .join32 (codec 1 2))))
    ∧ (isElementCommand .fieldExp16 = true ∧ exec .fieldExp16 (codec 1 2) = .next (after (exec .fieldExp16 (codec 1 2)))) :=
  ⟨⟨rfl, rfl⟩, ⟨rfl, rfl⟩, ⟨rfl, rfl⟩⟩

/-- The operands of base32 and base16 are those of 42_transform_engine R120. -/
theorem operands_base32 : busy base32 = false ∧ base32.count.toNat * elemBytes .dtype32 = base32.len.toNat
    ∧ 0 < base32.count.toNat := by decide

theorem fits_base32 : commandFits .dtype32 base32 := by
  intro q hq
  simp only [commandRegions, planeRegions, planeBases, List.map_cons, List.map_nil, List.mem_cons, List.not_mem_nil,
    or_false] at hq
  rcases hq with rfl | rfl | rfl | rfl | rfl <;> decide

theorem not_share {r q : Region} (h : intersects r q = false) : ¬ shareAddress r q := by
  rintro ⟨a, h1, h2, h3, h4⟩
  rw [intersects_of_share ((inRegion_iff r a).2 ⟨h1, h2⟩) ((inRegion_iff q a).2 ⟨h3, h4⟩)] at h
  cases h

theorem apart_base32 (op : BufferOp) : commandApart op .dtype32 base32 := by
  cases op with
  | forward =>
    have h : (commandRegions .dtype32 base32).Pairwise (fun q r => intersects q r = false) := by decide
    exact h.imp not_share
  | inverse =>
    have h : ∀ q ∈ planeRegions .dtype32 base32, intersects (elemRegion base32) q = false := by decide
    exact fun q hq => not_share (h q hq)

theorem witness_AcceptedCommandLatchesItsOperands : commandOnPlainMemory .dtype32 base32 := by
  have h : ∀ q ∈ commandRegions .dtype32 base32, intersects (window base32.platform) q = false
      ∧ ∀ v ∈ base32.platform.devices, intersects q v = false := by decide
  exact fun q hq => ⟨not_share (h q hq).1, fun v hv => not_share ((h q hq).2 v hv)⟩

/-- The same for a dtype16 command. -/
theorem witness_AcceptedCommandLatchesItsOperands16 (op : BufferOp) : busy base16 = false
    ∧ base16.count.toNat * elemBytes .dtype16 = base16.len.toNat ∧ 0 < base16.count.toNat
    ∧ commandFits .dtype16 base16 ∧ commandApart op .dtype16 base16 ∧ commandOnPlainMemory .dtype16 base16 := by
  have h : ∀ q ∈ commandRegions .dtype16 base16, intersects (window base16.platform) q = false
      ∧ ∀ v ∈ base16.platform.devices, intersects q v = false := by decide
  refine ⟨by decide, by decide, by decide, ?_, ?_, fun q hq => ⟨not_share (h q hq).1, fun v hv => not_share ((h q hq).2 v hv)⟩⟩
  · intro q hq
    simp only [commandRegions, planeRegions, planeBases, List.map_cons, List.map_nil, List.mem_cons, List.not_mem_nil,
      or_false] at hq
    rcases hq with rfl | rfl | rfl <;> decide
  · cases op with
    | forward =>
      have h : (commandRegions .dtype16 base16).Pairwise (fun q r => intersects q r = false) := by decide
      exact h.imp not_share
    | inverse =>
      have h : ∀ q ∈ planeRegions .dtype16 base16, intersects (elemRegion base16) q = false := by decide
      exact fun q hq => not_share (h q hq)

/-- OperandChecksInOrder: a length off by one, a region that ends one past 2^32, and a plane on the last byte of E. -/
theorem witness_OperandChecksInOrder :
    ({ base32 with len := 11 } : State).count.toNat * elemBytes .dtype32 ≠ ({ base32 with len := 11 } : State).len.toNat
    ∧ ¬ commandFits .dtype32 { base32 with pb3 := 0xFFFFFFFE }
    ∧ ¬ commandApart .forward .dtype32 { base32 with pb0 := 0x100B } := by
  refine ⟨by decide, fun h => ?_, fun h => ?_⟩
  · have := h ⟨0xFFFFFFFE, 3⟩ (by decide)
    revert this
    decide
  · have := (List.pairwise_cons.1 h).1 ⟨0x100B, 3⟩ (by decide)
    exact this ⟨0x100B, by decide, by decide, by decide, by decide⟩

/-- The second clause's other hypothesis and the third's: base32 with those changes keeps its length and fits. -/
theorem witness_OperandChecksInOrder_rest :
    ({ base32 with pb3 := 0xFFFFFFFE } : State).count.toNat * elemBytes .dtype32
      = ({ base32 with pb3 := 0xFFFFFFFE } : State).len.toNat
    ∧ commandFits .dtype32 { base32 with pb0 := 0x100B } := by
  refine ⟨by decide, fun q hq => ?_⟩
  simp only [commandRegions, planeRegions, planeBases, List.map_cons, List.map_nil, List.mem_cons, List.not_mem_nil,
    or_false] at hq
  rcases hq with rfl | rfl | rfl | rfl | rfl <;> decide

theorem witness_CountZeroEndsAtOnce : ({ base32 with count := 0, len := 0 } : State).count = 0
    ∧ ({ base32 with count := 0, len := 0 } : State).len = 0 ∧ ({ base32 with count := 0 } : State).len ≠ 0 := by decide

/-- RegionsOffPlainMemoryAreRefused: the last plane on the first byte of the window, and on the first byte of a device. -/
theorem witness_RegionsOffPlainMemoryAreRefused :
    (∃ q ∈ commandRegions .dtype32 { base32 with pb3 := 0x7FFFFFFE },
      shareAddress (window ({ base32 with pb3 := 0x7FFFFFFE } : State).platform) q)
    ∧ (∃ q ∈ commandRegions .dtype32 { base32 with pb3 := 0x8FFE },
      ∃ v ∈ ({ base32 with pb3 := 0x8FFE } : State).platform.devices, shareAddress q v)
    ∧ (∀ q ∈ commandRegions .dtype32 { base32 with pb3 := 0x8FFE },
      ¬ shareAddress (window ({ base32 with pb3 := 0x8FFE } : State).platform) q) := by
  refine ⟨⟨⟨0x7FFFFFFE, 3⟩, by decide, 0x80000000, by decide, by decide, by decide, by decide⟩,
    ⟨⟨0x8FFE, 3⟩, by decide, ⟨0x9000, 16⟩, by decide, 0x9000, by decide, by decide, by decide, by decide⟩, ?_⟩
  have h : ∀ q ∈ commandRegions .dtype32 { base32 with pb3 := 0x8FFE },
      intersects (window ({ base32 with pb3 := 0x8FFE } : State).platform) q = false := by decide
  exact fun q hq => not_share (h q hq)

/-- RegionsOffPlainMemoryAreRefused: the commands with those addresses pass the checks of R120. -/
theorem witness_RegionsOffPlainMemoryAreRefused_rest :
    operandCheck .forward .dtype32 { base32 with pb3 := 0x7FFFFFFE } = none
    ∧ operandCheck .forward .dtype32 { base32 with pb3 := 0x8FFE } = none := by decide

/-! ### Running commands -/

theorem inv_started (op : BufferOp) : (started op).Inv := by
  refine ⟨?_, ?_, ?_, ?_, by cases op <;> rfl, rfl, fun h => ?_⟩
  · cases op <;> decide
  · cases op <;> decide
  · cases op <;> decide
  · cases op <;> decide
  · cases op <;> cases h

/-- What the statements about a fresh command on a quiet, coherent, admitting platform ask. -/
theorem witness_running (op : BufferOp) :
    (started op).run = some (latch op .dtype32 base32) ∧ (latch op .dtype32 base32).done = []
    ∧ (latch op .dtype32 base32).hostWrites = [] ∧ (started op).platform.memCoherent = true
    ∧ allAdmitted (started op).platform (latch op .dtype32 base32) ∧ (started op).schedule = []
    ∧ nextAgent (started op) = .engine := by
  cases op <;> exact ⟨rfl, rfl, rfl, rfl, fun _ _ => ⟨rfl, rfl⟩, rfl, rfl⟩

/-- A running command whose last pair is left. -/
def lastPair : Running := { latch .forward .dtype32 base32 with done := [0, 1, 2, 3, 4, 5, 6, 7, 8, 9, 10] }

/-- EngineMayPickAnyFreePair: the pair that is left is pair 11. -/
theorem witness_EngineMayPickAnyFreePair : ({ started .forward with run := some lastPair } : State).run = some lastPair
    ∧ ({ started .forward with run := some lastPair } : State).platform = platform16 ∧ runningOk platform16 lastPair = true
    ∧ 0 < pairTotal lastPair - lastPair.done.length ∧ 11 < pairTotal lastPair ∧ 11 ∉ lastPair.done := by decide

theorem witness_PairAddressesOfEachCommand :
    3 < planeCount (latch .forward .dtype32 base32).dt ∧ (latch .forward .dtype32 base32).op = .forward
    ∧ 1 < planeCount (latch .inverse .dtype16 base16).dt ∧ (latch .inverse .dtype16 base16).op = .inverse := by decide

/-- EngineMovesThePickedPair: with pairs left, and with one. -/
theorem witness_EngineMovesThePickedPair (t : Nat) :
    portAdmits (started .forward).platform (pairSrc (latch .forward .dtype32 base32) t) .read = true
    ∧ portAdmits (started .forward).platform (pairDst (latch .forward .dtype32 base32) t) .write = true
    ∧ (latch .forward .dtype32 base32).done.length + 1 < pairTotal (latch .forward .dtype32 base32)
    ∧ lastPair.done.length + 1 = pairTotal lastPair := ⟨rfl, rfl, by decide, by decide⟩

/-- started with a port that refuses every access in one direction. -/
def walled (d : Dir) : State :=
  { started .forward with platform := { platform16 with refused := [⟨⟨0, 2 ^ 32⟩, d⟩] } }

theorem inv_walled (d : Dir) : (walled d).Inv := by
  cases d <;> exact ⟨by decide, by decide, by decide, by decide, by decide, by decide, fun h => by cases h⟩

/-- RefusedAccessIsABusError: whatever pair is picked, its read, or else its write, is refused. -/
theorem witness_RefusedAccessIsABusError :
    portAdmits (walled .read).platform
      (pairSrc (latch .forward .dtype32 base32) (pickPair (latch .forward .dtype32 base32) (turnTaken (walled .read)))) .read
      = false
    ∧ portAdmits (walled .write).platform
      (pairSrc (latch .forward .dtype32 base32) (pickPair (latch .forward .dtype32 base32) (turnTaken (walled .write)))) .read
      = true
    ∧ portAdmits (walled .write).platform
      (pairDst (latch .forward .dtype32 base32) (pickPair (latch .forward .dtype32 base32) (turnTaken (walled .write)))) .write
      = false := by
  have hall : ∀ (d : Dir) (a : Nat), a < spaceSize → portAdmits (walled d).platform a d = false := by
    intro d a ha
    have : a < 0 + 2 ^ 32 := by simpa [spaceSize] using ha
    simp only [portAdmits, walled, List.any_cons, List.any_nil, inRegion, regionEnd]
    simp only [this, decide_true, Nat.zero_le, Bool.and_self, Bool.or_false, Bool.not_true]
  have hp : progressOk (latch .forward .dtype32 base32) = true := by decide
  have hl : ∀ s, _ := fun s => pair_lt_space (p := platform16) (r := latch .forward .dtype32 base32) (by decide)
    (pickPair_free hp s).2
  exact ⟨hall .read _ (hl _).1, rfl, hall .write _ (hl _).2⟩

/-- BusErrorMayReportAnyRefusedAccess: a port that refuses every read refuses the read of pair 3 and that of pair 11. -/
theorem witness_BusErrorMayReportAnyRefusedAccess :
    portAdmits (walled .read).platform (pairSrc (latch .forward .dtype32 base32) 3) .read = false
    ∧ portAdmits (walled .read).platform (pairSrc (latch .forward .dtype32 base32) 11) .read = false
    ∧ 11 < pairTotal (latch .forward .dtype32 base32) := by decide

/-- With a running command in order, the engine's step answers a next state. -/
theorem engine_answers {s : State} {r : Running} (hr : s.run = some r) (hok : runningOk s.platform r = true)
    (ha : nextAgent s = .engine) : ∃ u, step s = .next u := by
  have hp := ((runningOk_iff _ r).1 hok).2.1
  rw [step_of_engine ha, engineStep_running (s := turnTaken s) hr hp]
  have hl := pair_lt_space ((runningOk_iff _ r).1 hok).1 (pickPair_free hp (turnTaken s)).2
  rcases transferPair_cases (pickPair r (turnTaken s)) r ((turnTaken s).addDraws 1)
    with ⟨a, h1, h2, _⟩ | ⟨a, d, _, _, _, he⟩ | ⟨_, _, _, _, he⟩
  · rcases h2 with h2 | h2 <;> omega
  · exact ⟨_, he⟩
  · exact ⟨_, he⟩

/-- EngineWritesOnlyDestinations, LatchedOperandsStay, EveryStepKeepsTheInvariant: a state in order with a step that answers. -/
theorem witness_engine_step : (∃ u, step (started .inverse) = .next u) ∧ ∃ u, step (walled .read) = .next u :=
  ⟨engine_answers (r := latch .inverse .dtype32 base32) rfl (by decide) rfl,
    engine_answers (r := latch .forward .dtype32 base32) rfl (by decide) rfl⟩

/-- OnlyBusErrorsAndResetWriteErrAddr: a step that ends a command with a bus error. -/
theorem witness_OnlyBusErrorsAndResetWriteErrAddr : busy (walled .read) = true
    ∧ ∃ u, step (walled .read) = .next u ∧ statusErr u.status = 2 := by
  refine ⟨by decide, ?_⟩
  obtain ⟨r, hr⟩ : ∃ r, r = latch .forward .dtype32 base32 := ⟨_, rfl⟩
  have hp : progressOk r = true := by rw [hr]; decide
  have ha : nextAgent (walled .read) = .engine := rfl
  rw [step_of_engine ha, engineStep_running (s := turnTaken (walled .read)) (by rw [hr]; rfl) hp]
  rcases transferPair_cases (pickPair r (turnTaken (walled .read))) r ((turnTaken (walled .read)).addDraws 1)
    with ⟨a, h1, h2, _⟩ | ⟨a, d, _, hd, _, he⟩ | ⟨_, _, h3, _, _⟩
  · have hl := pair_lt_space (p := platform16) (r := r) (by rw [hr]; decide) (pickPair_free hp (turnTaken (walled .read))).2
    rcases h2 with h2 | h2 <;> omega
  · refine ⟨_, he, ?_⟩
    rw [raiseBusError_status]
    cases (reportIn ((turnTaken (walled .read)).addDraws 1) r a d).2 <;> decide
  · have hw := witness_RefusedAccessIsABusError.1
    rw [← hr] at hw
    exact absurd (hw.symm.trans h3) (by decide)

/-- EveryOrderEndsTheSame and VectorizedPathEqualsScalarPath: an order, and a chunk of two elements that leaves a remainder. -/
theorem witness_orders :
    [11, 3, 7, 0, 4, 8, 1, 5, 9, 2, 6, 10].Perm (List.range (pairTotal (latch .forward .dtype32 base32)))
    ∧ vectorizedOrder (latch .forward .dtype32 base32) 2 = [0, 4, 1, 5, 2, 6, 3, 7, 8, 9, 10, 11] := by decide

/-- NothingDependsOnThePath: a board with a vector unit and one without, both waiting. -/
theorem witness_NothingDependsOnThePath :
    erasePath (asked .wait (board platform16)) = erasePath (asked .wait (board { platform16 with vlen := 0, vminLessOne := 9 }))
    ∧ ¬ aboutTo (.regRead 0x08 .word) (asked .wait (board platform16)) := by
  refine ⟨rfl, fun h => ?_⟩
  have := h.2
  cases this

/-- The round trip of element 0xBBAA: FORWARD16 accepted, run, INVERSE16 into 0x3000 accepted, run. -/
def trip1 : State := after (exec .forward16 base16)
def trip2 : State := after (runPairs [1, 0] trip1)
def trip3 : State := after (exec .inverse16 { trip2 with ebuf := 0x3000 })
def trip4 : State := after (runPairs [0, 1] trip3)

theorem inv_base16 : base16.Inv := by
  refine ⟨by decide, by decide, by decide, rfl, rfl, rfl, fun h => ?_⟩
  cases h

/-- ForwardThenInverseRestoresTheBuffer. -/
theorem witness_ForwardThenInverseRestoresTheBuffer :
    exec (bufferCommand .forward .dtype16) base16 = .next trip1 ∧ trip1.run = some (latch .forward .dtype16 base16)
    ∧ [1, 0].Perm (List.range (pairTotal (latch .forward .dtype16 base16)))
    ∧ runPairs [1, 0] trip1 = .next trip2 ∧ trip2.status = 0x00000002
    ∧ exec (bufferCommand .inverse .dtype16) { trip2 with ebuf := 0x3000 } = .next trip3
    ∧ trip3.run = some (latch .inverse .dtype16 { trip2 with ebuf := 0x3000 })
    ∧ runPairs [0, 1] trip3 = .next trip4 ∧ trip4.status = 0x00000002
    ∧ readByte trip4.mem 0x3001 = 0xBB := by
  refine ⟨rfl, by decide, by decide, rfl, by decide, rfl, by decide, rfl, by decide, by decide⟩

/-- The other way round: INVERSE16 of two plane bytes, run, then FORWARD16 into planes at 0x4000 and 0x4100, run. -/
def planes16 : State := { base16 with mem := [(0x2000, 0x3C), (0x2010, 0xFC)] }
def back1 : State := after (exec .inverse16 planes16)
def back2 : State := after (runPairs [0, 1] back1)
def back3 : State := after (exec .forward16 { back2 with pb0 := 0x4000, pb1 := 0x4100, pb2 := 0, pb3 := 0 })
def back4 : State := after (runPairs [1, 0] back3)

theorem inv_planes16 : planes16.Inv := by
  refine ⟨by decide, by decide, by decide, rfl, rfl, rfl, fun h => ?_⟩
  cases h

/-- InverseThenForwardRestoresThePlanes. -/
theorem witness_InverseThenForwardRestoresThePlanes :
    exec (bufferCommand .inverse .dtype16) planes16 = .next back1 ∧ back1.run = some (latch .inverse .dtype16 planes16)
    ∧ runPairs [0, 1] back1 = .next back2 ∧ back2.status = 0x00000002
    ∧ exec (bufferCommand .forward .dtype16) { back2 with pb0 := 0x4000, pb1 := 0x4100, pb2 := 0, pb3 := 0 } = .next back3
    ∧ back3.run = some (latch .forward .dtype16 { back2 with pb0 := 0x4000, pb1 := 0x4100, pb2 := 0, pb3 := 0 })
    ∧ runPairs [1, 0] back3 = .next back4 ∧ back4.status = 0x00000002
    ∧ readByte back4.mem 0x4100 = 0xFC := by
  refine ⟨rfl, by decide, rfl, by decide, rfl, by decide, rfl, by decide, by decide⟩

/-- InverseAgreesWithJoin: the same run, and JOIN16 of the two bytes. -/
theorem witness_InverseAgreesWithJoin :
    planeBytesAt planes16.mem [0x2000, 0x2010] 0 = 0xFC3C
    ∧ got State.result (exec .join16 { planes16 with planes := 0xFC3C }) = some 0xFC3C := by decide

/-- ForwardAgreesWithSplit: the same run, and SPLIT16 of the element's value. -/
theorem witness_ForwardAgreesWithSplit :
    elemAt base16.mem 0x1000 2 0 = 0xBBAA
    ∧ exec .split16 { base16 with elem := BitVec.ofNat 32 (elemAt base16.mem base16.ebuf.toNat (elemBytes .dtype16) 0) }
      = .next (after (exec .split16
        { base16 with elem := BitVec.ofNat 32 (elemAt base16.mem base16.ebuf.toNat (elemBytes .dtype16) 0) })) :=
  ⟨by decide, rfl⟩

/-! ### Races -/

/-- started with the host about to read the first byte of plane 0, and the first of the element buffer; and the same after the end. -/
theorem witness_RacingReadDrawsOldOrFinal :
    aboutTo (.memRead 0x2000) (asked (.memRead 0x2000) (started .forward))
    ∧ (asked (.memRead 0x2000) (started .forward)).run = some (latch .forward .dtype32 base32)
    ∧ inRegion (window (started .forward).platform) (0x2000 : Word).toNat = false
    ∧ (∀ q ∈ (started .forward).platform.devices, inRegion q (0x2000 : Word).toNat = false)
    ∧ isDestination (latch .forward .dtype32 base32) (0x2000 : Word).toNat = true
    ∧ isDestination (latch .forward .dtype32 base32) (0x1000 : Word).toNat = false
    ∧ (started .forward).unseen = []
    ∧ aboutTo (.memRead 0x2000) (asked (.memRead 0x2000) ended)
    ∧ (∃ r ∈ (asked (.memRead 0x2000) ended).unseen, isDestination r (0x2000 : Word).toNat = true)
    ∧ (∀ r ∈ (asked (.memRead 0x1000) ended).unseen, isDestination r (0x1000 : Word).toNat = false) ∧ ended.run = none :=
  ⟨⟨rfl, rfl⟩, by decide, by decide, by decide, by decide, by decide, rfl, ⟨rfl, rfl⟩, by decide, by decide, rfl⟩

theorem inv_ended : ended.Inv := by
  refine ⟨by decide, by decide, by decide, rfl, by decide, rfl, fun h => ?_⟩
  cases h

/-- HostWritesAfterTheEndStillRace: a source byte, a destination byte, and the byte after the element buffer. -/
theorem witness_HostWritesAfterTheEndStillRace (v : Byte) :
    aboutTo (.memWrite 0x1001 v) (asked (.memWrite 0x1001 v) ended)
    ∧ inRegion (window ended.platform) (0x1001 : Word).toNat = false
    ∧ (∀ q ∈ ended.platform.devices, inRegion q (0x1001 : Word).toNat = false)
    ∧ (∃ r ∈ ended.unseen, isDestination r 0x1001 = false ∧ ∃ t, t < pairTotal r ∧ pairSrc r t = 0x1001 ∧ 0x2010 = pairDst r t)
    ∧ (∃ r ∈ ended.unseen, isDestination r 0x2010 = true)
    ∧ (∀ r ∈ ended.unseen, isDestination r 0x100C = false ∧ isSource r 0x100C = false) :=
  ⟨⟨rfl, rfl⟩, by decide, by decide, ⟨forget (latch .forward .dtype32 base32), by decide, by decide, 1, by decide, by decide, by decide⟩,
    ⟨forget (latch .forward .dtype32 base32), by decide, by decide⟩, by decide⟩

/-- OwnershipEndsAtTheStatusRead: a STATUS read and a `wait` with BUSY = 0, an assertion and a release of reset, and a step that is none of these. -/
theorem witness_OwnershipEndsAtTheStatusRead :
    State.Inv (asked .wait ended) ∧ aboutTo (.regRead 0x04 .word) (asked (.regRead 0x04 .word) ended)
    ∧ aboutTo .wait (asked .wait ended) ∧ busy (asked .wait ended) = false
    ∧ aboutTo .assertReset (asked .assertReset ended)
    ∧ aboutTo .releaseReset (asked .releaseReset { board platform16 with inReset := true })
    ∧ State.Inv (asked .releaseReset { board platform16 with inReset := true })
    ∧ step (asked .wait ended) = .next (after (step (asked .wait ended)))
    ∧ (∃ r, r ∈ owners (asked (.regRead 0x18 .word) ended))
    ∧ step (asked (.regRead 0x18 .word) ended) = .next (after (step (asked (.regRead 0x18 .word) ended)))
    ∧ ¬ aboutTo (.regRead 0x04 .word) (asked (.regRead 0x18 .word) ended) := by
  refine ⟨⟨by decide, by decide, by decide, rfl, by decide, rfl, fun h => by cases h⟩, ⟨rfl, rfl⟩, ⟨rfl, rfl⟩, by decide, ⟨rfl, rfl⟩,
    ⟨rfl, rfl⟩, ⟨by decide, by decide, by decide, rfl, rfl, rfl, fun _ => rfl⟩, rfl,
    ⟨forget (latch .forward .dtype32 base32), by simp [owners, asked, ended]⟩, rfl, fun h => ?_⟩
  have := h.2
  cases this

theorem witness_WithoutARaceTheFinalValueIsOne : runningOk platform16 (latch .forward .dtype32 base32) = true
    ∧ (latch .forward .dtype32 base32).hostWrites = [] ∧ 11 < pairTotal (latch .forward .dtype32 base32) := by decide

/-- A host write of 0x55 to the first byte of the element buffer races with the first byte of plane 0. -/
def raced : Running := { latch .forward .dtype32 base32 with hostWrites := [(0x1000, 0x55)] }

/-- RacingWritesAreSettledAtTheEnd: that race, with one pair left, which the port admits. -/
def racedLast : Running := { raced with done := lastPair.done }

theorem witness_RacingWritesAreSettledAtTheEnd (t : Nat) :
    0x2000 ∈ racedBytes racedLast ∧ 0x2001 ∉ racedBytes racedLast ∧ finalValues racedLast 0x2000 = [0x55, 0x00]
    ∧ racedLast.done.length + 1 = pairTotal racedLast
    ∧ nextAgent { started .forward with run := some racedLast } = .engine
    ∧ portAdmits (started .forward).platform (pairSrc racedLast t) .read = true
    ∧ portAdmits (started .forward).platform (pairDst racedLast t) .write = true :=
  ⟨by decide, by decide, by decide, by decide, rfl, rfl, rfl⟩

theorem inv_racedLast : State.Inv { started .forward with run := some racedLast } := by
  refine ⟨by decide, by decide, by decide, by decide, rfl, rfl, fun h => ?_⟩
  cases h

/-- EngineMovesThePickedPair: the race with pairs left, in a machine in order, and with one left; a byte it does not reach. -/
theorem witness_EngineMovesThePickedPair_raced (t : Nat) :
    portAdmits (started .forward).platform (pairSrc raced t) .read = true
    ∧ portAdmits (started .forward).platform (pairDst raced t) .write = true
    ∧ raced.done.length + 1 < pairTotal raced ∧ racedLast.done.length + 1 = pairTotal racedLast
    ∧ 0x2001 ∉ racedBytes racedLast := ⟨rfl, rfl, by decide, by decide, by decide⟩

/-- RacesCutShortLeaveOldOrFinal: the race with reset about to be asserted, and before a port that refuses every read. -/
theorem witness_RacesCutShortLeaveOldOrFinal :
    aboutTo .assertReset (asked .assertReset { started .forward with run := some raced })
    ∧ 0x2000 ∈ racedBytes raced
    ∧ nextAgent { walled .read with run := some raced } = .engine
    ∧ portAdmits (walled .read).platform
        (pairSrc raced (pickPair raced (turnTaken { walled .read with run := some raced }))) .read = false :=
  ⟨⟨rfl, rfl⟩, by decide, rfl, witness_RefusedAccessIsABusError.1⟩

theorem inv_raced_walled : State.Inv { walled .read with run := some raced } := by
  refine ⟨by decide, by decide, by decide, by decide, rfl, rfl, fun h => ?_⟩
  cases h

/-- HostWritesWhileACommandRuns: the byte after the element buffer, and its last byte. -/
theorem witness_HostWritesWhileACommandRuns (v : Byte) :
    aboutTo (.memWrite 0x100C v) (asked (.memWrite 0x100C v) (started .forward))
    ∧ (∀ q ∈ runningRegions (latch .forward .dtype32 base32), inRegion q (0x100C : Word).toNat = false)
    ∧ aboutTo (.memWrite 0x100B v) (asked (.memWrite 0x100B v) (started .forward))
    ∧ (∃ q ∈ runningRegions (latch .forward .dtype32 base32), inRegion q (0x100B : Word).toNat = true)
    ∧ inRegion (window (started .forward).platform) (0x100B : Word).toNat = false
    ∧ (∀ q ∈ (started .forward).platform.devices, inRegion q (0x100B : Word).toNat = false)
    ∧ (started .forward).unseen = [] :=
  ⟨⟨rfl, rfl⟩, by decide, ⟨rfl, rfl⟩, by decide, by decide, by decide, rfl⟩

/-- StatusFieldsAreLegal: machines in order that show each kind of error. -/
theorem witness_StatusFieldsAreLegal : State.Inv { base32 with status := 0x712 } ∧ statusErr 0x712 = 1
    ∧ State.Inv { base32 with status := 0x222 } ∧ statusErr 0x222 = 2 := by
  refine ⟨⟨by decide, by decide, by decide, rfl, rfl, rfl, fun h => ?_⟩, by decide,
    ⟨by decide, by decide, by decide, rfl, rfl, rfl, fun h => ?_⟩, by decide⟩ <;> cases h

theorem inv_raced : State.Inv { started .forward with run := some raced } := by
  refine ⟨by decide, by decide, by decide, by decide, rfl, rfl, fun h => ?_⟩
  cases h

/-- ConformingHostMakesNoRace: the host writes next to the regions while the command runs. -/
theorem witness_ConformingHostMakesNoRace :
    noRace (asked (.memWrite 0x100C 0x77) (started .forward)) = true
    ∧ (∀ op, aboutTo op (asked (.memWrite 0x100C 0x77) (started .forward)) →
        hostConforms (asked (.memWrite 0x100C 0x77) (started .forward)) op = true)
    ∧ step (asked (.memWrite 0x100C 0x77) (started .forward))
        = .next (after (step (asked (.memWrite 0x100C 0x77) (started .forward)))) := by
  refine ⟨by decide, fun op h => ?_, rfl⟩
  rw [← Option.some.inj h.2]
  decide

/-! ### Registers and reset -/

/-- The register statements: any offset, the last data register and the last offset among them. -/
theorem witness_registers (offset : BitVec 8) (v : Word) :
    aboutTo (.regRead offset .word) (asked (.regRead offset .word) (started .forward))
    ∧ aboutTo (.regWrite offset .word v) (asked (.regWrite offset .word v) (started .forward))
    ∧ (started .forward).inReset = false ∧ (0xFC : BitVec 8).toNat % 4 = 0 ∧ 0x38 ≤ (0x38 : BitVec 8).toNat :=
  ⟨⟨rfl, rfl⟩, ⟨rfl, rfl⟩, rfl, by decide, by decide⟩

theorem witness_OtherRegisterAccessesAreRefused (o : BitVec 8) (w : Width) :
    aboutTo (.regRead o w) (asked (.regRead o w) { board platform16 with inReset := true })
    ∧ (asked (.regRead o w) { board platform16 with inReset := true }).inReset = true
    ∧ aboutTo (.regRead o w) (asked (.regRead o w) (board platform16))
    ∧ (asked (.regRead o w) (board platform16)).inReset = false
    ∧ Width.byte ≠ .word ∧ (0x35 : BitVec 8).toNat % 4 ≠ 0 := ⟨⟨rfl, rfl⟩, rfl, ⟨rfl, rfl⟩, rfl, by decide, by decide⟩

/-- OtherRegisterAccessesAreRefused: `wait`, and the last byte of the window. -/
theorem witness_OtherRegisterAccessesAreRefused_rest (v : Byte) :
    aboutTo .wait (asked .wait { board platform16 with inReset := true })
    ∧ aboutTo (.memRead 0x800000FF) (asked (.memRead 0x800000FF) (board platform16))
    ∧ aboutTo (.memWrite 0x800000FF v) (asked (.memWrite 0x800000FF v) { board platform16 with inReset := true })
    ∧ (board platform16).platform.bpdBase.toNat ≤ (0x800000FF : Word).toNat
    ∧ (0x800000FF : Word).toNat < (board platform16).platform.bpdBase.toNat + 256 :=
  ⟨⟨rfl, rfl⟩, ⟨rfl, rfl⟩, ⟨rfl, rfl⟩, by decide, by decide⟩

theorem witness_HostMemoryAccessesArePlainWhileIdle (v : Byte) :
    inRegion (window base32.platform) (0x7FFFFFFF : Word).toNat = false
    ∧ (∀ r, base32.run = some r ∨ r ∈ base32.unseen → ∀ q ∈ runningRegions r, inRegion q (0x7FFFFFFF : Word).toNat = false)
    ∧ (∀ q ∈ base32.platform.devices, inRegion q (0x7FFFFFFF : Word).toNat = false)
    ∧ aboutTo (.memRead 0x7FFFFFFF) (asked (.memRead 0x7FFFFFFF) base32)
    ∧ aboutTo (.memWrite 0x7FFFFFFF v) (asked (.memWrite 0x7FFFFFFF v) base32)
    ∧ base32.platform.memCoherent = true := by
  refine ⟨by decide, fun r h => ?_, by decide, ⟨rfl, rfl⟩, ⟨rfl, rfl⟩, rfl⟩
  rcases h with h | h <;> cases h

/-- The same on a platform that is not coherent, for a byte that a running command owns. -/
theorem witness_HostMemoryAccessesArePlain_draw :
    aboutTo (.memRead 0x2000) (asked (.memRead 0x2000) { started .forward with platform := { platform16 with memCoherent := false } })
    ∧ inRegion (window platform16) (0x2000 : Word).toNat = false
    ∧ (∀ q ∈ platform16.devices, inRegion q (0x2000 : Word).toNat = false) := ⟨⟨rfl, rfl⟩, by decide, by decide⟩

/-- The same with a command that has ended and is not seen to have. -/
theorem witness_HostMemoryAccessesArePlain_ended :
    ∀ r ∈ ended.unseen, ∀ q ∈ runningRegions r, inRegion q (0x100C : Word).toNat = false := by decide

/-- ResetGivesTheResetValues, ResetAbandonsTheCommand, CapIsLatchedAtReset. -/
theorem witness_reset :
    (aboutTo .assertReset (asked .assertReset (started .forward)) ∧ noRace (asked .assertReset (started .forward)) = true)
    ∧ aboutTo .releaseReset (asked .releaseReset { board platform16 with inReset := true })
    ∧ (asked .releaseReset { board platform16 with inReset := true }).inReset = true :=
  ⟨⟨⟨rfl, rfl⟩, by decide⟩, ⟨rfl, rfl⟩, rfl⟩

/-- ResetAbandonsTheCommand: a machine in order with reset asserted and the engine to move. -/
theorem witness_ResetAbandonsTheCommand :
    State.Inv { board platform16 with inReset := true, schedule := [.engine] }
    ∧ nextAgent { board platform16 with inReset := true, schedule := [.engine] } = .engine := by
  refine ⟨⟨by decide, by decide, by decide, rfl, rfl, rfl, fun _ => ?_⟩, rfl⟩
  decide

/-- CapIsLatchedAtReset: a step that is no reset. -/
theorem witness_CapIsLatchedAtReset :
    ¬ aboutTo .assertReset (asked .wait (board platform16)) ∧ ¬ aboutTo .releaseReset (asked .wait (board platform16))
    ∧ step (asked .wait (board platform16)) = .next (after (step (asked .wait (board platform16)))) := by
  refine ⟨fun h => ?_, fun h => ?_, rfl⟩
  · have := h.2
    cases this
  · have := h.2
    cases this

/-- OnlyTheirCommandsWriteResultAndPlanes: steps that change PLANES and RESULT. -/
theorem witness_OnlyTheirCommandsWriteResultAndPlanes :
    got State.planes (step (asked (.regWrite 0 .word (encode .split32)) (codec 5 0))) = some 5
    ∧ got State.planes (step (asked (.regWrite 0x14 .word 7) (codec 5 0))) = some 7
    ∧ got State.result (step (asked (.regWrite 0 .word (encode .join32)) (codec 5 9))) = some 9 := by decide

end Sys2Proof.Tests
end

section
/-! The platform through every operation of the host, and through every step (00_scope R7). -/

namespace Sys2Proof.Machine

open Sys2Proof Sys2Proof.Config

@[simp] theorem writeRegister_platform (s : State) (offset : BitVec 8) (v : Word) :
    (writeRegister s offset v).platform = s.platform := by
  unfold writeRegister
  split <;> rfl

@[simp] theorem hostRegRead_platform (offset : BitVec 8) (s : State) :
    (hostRegRead offset s).platform = s.platform := by
  rcases hostRegRead_cases offset s with ⟨_, h⟩ | ⟨_, _, h⟩ <;> simp [h]

@[simp] theorem pollStatus_platform (s : State) : (pollStatus s).platform = s.platform := by
  rcases pollStatus_cases s with ⟨_, h⟩ | ⟨_, h⟩ <;> simp [h]

@[simp] theorem hostMemRead_platform (a : Nat) (s : State) : (hostMemRead a s).platform = s.platform := by
  obtain ⟨v, n, h⟩ := hostMemRead_cases a s
  simp [h]

@[simp] theorem hostMemWrite_platform (a : Nat) (v : Byte) (s : State) :
    (hostMemWrite a v s).platform = s.platform :=
  (hostMemWrite_frame a v s).fields.1.1

@[simp] theorem resetRegisters_platform (s : State) : (resetRegisters s).platform = s.platform := rfl

@[simp] theorem assertReset_platform (s : State) : (assertReset s).platform = s.platform := by
  obtain ⟨m, n, h⟩ := assertReset_frame s
  simp [h]

@[simp] theorem releaseReset_platform (s : State) : (releaseReset s).platform = s.platform := by
  rcases releaseReset_cases s with ⟨_, h⟩ | ⟨_, h⟩ <;> simp [h]

theorem hostStep_keeps_platform {op : HostOp} {s u : State} (h : hostStep op s = .next u) :
    u.platform = s.platform := by
  rcases hostStep_next_cases h with
    ⟨offset, _, _, rfl⟩ | ⟨_, _, rfl⟩ | ⟨w, _, _, hw⟩ | ⟨offset, w, _, _, _, rfl⟩ | ⟨a, _, rfl⟩ | ⟨a, v, _, rfl⟩
      | ⟨_, rfl⟩ | ⟨_, rfl⟩
  · exact hostRegRead_platform offset s
  · exact pollStatus_platform s
  · exact (writeCmd_frame hw).1.1
  · exact writeRegister_platform s offset w
  · exact hostMemRead_platform a.toNat s
  · exact hostMemWrite_platform a.toNat v s
  · exact assertReset_platform s
  · exact releaseReset_platform s

/-- Settles O55: an engine step has the engine's frame, an idle turn only takes the schedule on, and no operation of the host writes
the platform. -/
theorem noStepChangesThePlatform : Obligations.NoStepChangesThePlatform := by
  intro s t h
  rcases step_cases s with ⟨_, hs⟩ | ⟨_, _, hs⟩ | ⟨op, _, hs⟩ <;> rw [hs] at h
  · exact (engineStep_frame h).fields.1.1.trans (turnTaken_platform s)
  · cases h
    exact turnTaken_platform s
  · exact (hostStep_keeps_platform h).trans (popped_platform s)

end Sys2Proof.Machine
end

section
/-! The invariant of the machine through every operation, and through every step (10_state R26, R36, R40). -/

namespace Sys2Proof.Machine

open Sys2Proof Sys2Proof.Config

/-! The values STATUS is given are legal (10_state R26). -/

theorem statusDone_mem : statusDone ∈ statusValues := by decide
theorem statusReset_mem : (0 : Word) ∈ statusValues := by decide
theorem statusBusy_mem : statusBusy ∈ statusValues := by decide
theorem statusInvalidInput_mem (c : Cause) : statusInvalidInput c ∈ statusValues := by cases c <;> decide
theorem statusBusError_mem (d : Dir) : statusBusError d ∈ statusValues := by cases d <;> decide

/-! Updates outside what the invariant speaks of. -/

theorem inv_unseen {s : State} (hi : s.Inv) : s.unseen.all (endedOk s.platform) = true :=
  let ⟨_, _, _, _, hu, _, _⟩ := hi
  hu

theorem inv_turnTaken {s : State} (hi : s.Inv) : (turnTaken s).Inv :=
  inv_of_same hi hi.1 rfl rfl rfl rfl rfl (.inr fun h => congrArg turnTaken h) id

theorem inv_popped {s : State} (hi : s.Inv) : (popped s).Inv :=
  inv_of_same hi hi.1 rfl rfl rfl rfl rfl (.inr fun h => congrArg popped h) id

theorem inv_setReply {s : State} (hi : s.Inv) (v : Reply) : (s.setReply v).Inv :=
  inv_of_same hi hi.1 rfl rfl rfl rfl rfl (.inr fun h => congrArg (State.setReply · v) h) id

theorem inv_setProgram {s : State} (hi : s.Inv) (p : List HostOp) : (s.setProgram p).Inv :=
  inv_of_same hi hi.1 rfl rfl rfl rfl rfl (.inr fun h => congrArg (State.setProgram · p) h) id

theorem inv_addDraws {s : State} (hi : s.Inv) (n : Nat) : (s.addDraws n).Inv :=
  inv_of_same hi hi.1 rfl rfl rfl rfl rfl (.inr fun h => congrArg (State.addDraws · n) h) id

theorem inv_setUnseen_nil {s : State} (hi : s.Inv) : (s.setUnseen []).Inv := by
  obtain ⟨hm, hst, hb, hr, _, hc, hreset⟩ := hi
  exact ⟨hm, hst, hb, hr, rfl, hc, fun h => congrArg (State.setUnseen · []) (hreset h)⟩

theorem inv_setCmd {s : State} (hi : s.Inv) (hres : s.inReset = false) (w : Word) : (s.setCmd w).Inv :=
  inv_of_same hi hi.1 rfl rfl rfl rfl rfl (.inl hres) id

/-- An idle machine stays in order when STATUS takes a legal value with BUSY = 0. -/
theorem inv_setStatus_of_idle {s : State} (hi : s.Inv) (hres : s.inReset = false) (hb : busy s = false) {v : Word}
    (hv : v ∈ statusValues) (hvb : statusBusyBit v = false) : (s.setStatus v).Inv := by
  have hrun := inv_run_eq_none hi hb
  have hu := inv_unseen hi
  exact inv_of_stopped hi hres hi.1 hv hvb hrun hu ⟨rfl, rfl, rfl⟩

/-! The engine. -/

/-- A command whose operands and notes are in order is kept in order after its end. -/
theorem endedOk_forget {p : Platform} {r : Running} (ho : operandsOk p r = true) (hn : racesOk r = true) :
    endedOk p (forget r) = true := by
  rw [endedOk, Bool.and_eq_true]
  exact ⟨ho, hn⟩

/-- The end of a running command, normal or by a bus error, keeps the invariant. -/
theorem inv_of_ended {s u : State} {r q : Running} (hi : s.Inv) (hr : s.run = some r) (hm : Memory.wf u.mem = true)
    (hst : u.status ∈ statusValues) (hb : statusBusyBit u.status = false) (hrun : u.run = none)
    (hq : endedOk s.platform q = true) (hu : u.unseen = q :: s.unseen) (hf : sameFixed s u) : u.Inv := by
  refine inv_of_stopped hi (inv_not_inReset hi hr) hm hst hb hrun ?_ hf
  rw [hu, List.all_cons, hq, inv_unseen hi, Bool.and_self]

/-- One more pair of the running command moved, with pairs left. -/
theorem inv_withPair {s : State} {r : Running} {t : Nat} {m : List Host.Cell} (hi : s.Inv) (hr : s.run = some r)
    (hm : Memory.wf m = true) (hok : runningOk s.platform (withPair r t) = true) :
    (((s.setMem m).setRun (some (withPair r t))).addDraws 1).Inv := by
  have hres := inv_not_inReset hi hr
  obtain ⟨_, hst, hb, _, hu, hc, _⟩ := hi
  rw [hr] at hb
  refine ⟨hm, hst, hb, hok, hu, hc, fun h => ?_⟩
  cases hres.symm.trans h

theorem transferPair_keeps_inv {t : Nat} {r : Running} {s u : State} (hi : s.Inv) (hr : s.run = some r)
    (ht : t < pairTotal r) (hfree : t ∉ r.done) (h : transferPair t r s = .next u) : u.Inv := by
  have hok := inv_runningOk hi hr
  obtain ⟨ho, _, hn⟩ := (runningOk_iff _ r).1 hok
  have hfix := (transferPair_frame h).fields.1
  rcases transferPair_cases t r s with ⟨a, _, _, he⟩ | ⟨a, d, _, _, _, he⟩ | ⟨_, hdst, _, _, he⟩ <;> rw [he] at h <;> cases h
  · have hm : Memory.wf (raiseBusError a d r s).mem = true := settleRaces_wf true (s := s.addDraws 2) ho hi.1
    exact inv_of_ended hi hr hm (statusBusError_mem _) (statusBusyBit_busError _) rfl (endedOk_forget ho hn)
      (raiseBusError_unseen a d r s) hfix
  · have hm : Memory.wf (writeByte s.mem (pairDst r t) (engineRead (pairSrc r t) s)) = true := writeByte_wf _ hi.1 hdst
    rcases completePair_cases t (engineRead (pairSrc r t) s) r s with ⟨hl, hc⟩ | ⟨hl, hc⟩
    · rw [hc]
      exact inv_withPair hi hr hm (withPair_runningOk hok ht hfree hl)
    · rw [hc] at hfix ⊢
      exact inv_of_ended (q := forget (withPair r t)) hi hr (settleRaces_wf false (r := withPair r t) ho hm) statusDone_mem
        statusBusyBit_done rfl (endedOk_forget ho hn) (by simp) hfix

theorem engineStep_keeps_inv {s u : State} (hi : s.Inv) (h : engineStep s = .next u) : u.Inv := by
  cases hr : s.run with
  | none =>
    rw [engineStep_idle hr] at h
    cases h
    exact hi
  | some r =>
    have hp := ((runningOk_iff _ r).1 (inv_runningOk hi hr)).2.1
    obtain ⟨hfree, ht⟩ := pickPair_free hp s
    rw [engineStep_running hr hp] at h
    exact transferPair_keeps_inv (inv_addDraws hi 1) hr ht hfree h

/-! CMD writes. -/

theorem elementWrite_keeps_inv {s : State} (hi : s.Inv) (hres : s.inReset = false) (i : Instr) :
    (elementWrite i s).Inv := by
  have hp : ∀ v, (s.setPlanes v).Inv := fun v => inv_of_same hi hi.1 rfl rfl rfl rfl rfl (.inl hres) id
  have hr : ∀ v, (s.setResult v).Inv := fun v => inv_of_same hi hi.1 rfl rfl rfl rfl rfl (.inl hres) id
  cases i
  case split16 | split32 => exact hp _
  case forward16 | forward32 | inverse16 | inverse32 => exact hi
  all_goals exact hr _

theorem startBuffer_keeps_inv {op : BufferOp} {d : DType} {s u : State} (hi : s.Inv) (hres : s.inReset = false)
    (hb : busy s = false) (h : startBuffer op d s = .next u) : u.Inv := by
  rcases startBuffer_cases op d s with ⟨c, _, he⟩ | ⟨_, _, he⟩ | ⟨f, he⟩ | ⟨hc, h0, hw, hd, he⟩ <;> rw [he] at h <;> cases h
  · exact inv_setStatus_of_idle hi hres hb (statusInvalidInput_mem c) (statusBusyBit_invalidInput c)
  · exact inv_setStatus_of_idle hi hres hb statusDone_mem statusBusyBit_done
  · obtain ⟨hm, _, _, _, hu, hcap, _⟩ := hi
    refine ⟨hm, statusBusy_mem, statusBusyBit_busy, latch_runningOk hm hc h0 hw hd, hu, hcap, fun h => ?_⟩
    cases hres.symm.trans h

/-- A command is ignored while BUSY = 1 (60_exceptions R150). -/
theorem exec_of_busy (i : Instr) {s : State} (hb : busy s = true) : exec i s = .next s := by
  rcases instr_cases i with hel | ⟨op, d, rfl⟩
  · rw [exec_element hel]
    exact acceptWord_busy _ _ hb
  · rw [exec_bufferCommand]
    exact acceptWord_busy _ _ hb

/-- Every CMD write is. -/
theorem writeCmd_of_busy (w : Word) {s : State} (hb : busy s = true) : writeCmd w s = .next s := by
  rcases writeCmd_cases w s with ⟨c, _, he⟩ | ⟨i, _, he⟩ <;> rw [he]
  · exact acceptWord_busy _ _ hb
  · exact exec_of_busy i hb

theorem exec_keeps_inv {i : Instr} {s u : State} (hi : s.Inv) (hres : s.inReset = false) (hb : busy s = false)
    (h : exec i s = .next u) : u.Inv := by
  rcases instr_cases i with hel | ⟨op, d, rfl⟩
  · rw [exec_element hel, elementCommand_idle _ _ hb] at h
    cases h
    refine inv_setStatus_of_idle (elementWrite_keeps_inv (inv_setCmd hi hres (encode i)) hres i) ?_ ?_ statusDone_mem
      statusBusyBit_done
    · cases i <;> exact hres
    · cases i <;> exact hb
  · rw [exec_bufferCommand, acceptWord_idle _ _ hb] at h
    exact startBuffer_keeps_inv (inv_setCmd hi hres (encode (bufferCommand op d))) hres hb h

theorem writeCmd_keeps_inv {w : Word} {s u : State} (hi : s.Inv) (hres : s.inReset = false)
    (h : writeCmd w s = .next u) : u.Inv := by
  cases hb : busy s with
  | true =>
    rw [writeCmd_of_busy w hb] at h
    cases h
    exact hi
  | false =>
    rcases writeCmd_cases w s with ⟨c, _, he⟩ | ⟨i, _, he⟩ <;> rw [he] at h
    · rw [rejectWord_idle _ _ hb] at h
      cases h
      exact inv_setStatus_of_idle (inv_setCmd hi hres w) hres hb (statusInvalidInput_mem c) (statusBusyBit_invalidInput c)
    · exact exec_keeps_inv hi hres hb h

/-! The other operations of the host. -/

/-- A write of a register other than CMD changes at most the data registers, and PLANES only at its own offset. -/
theorem writeRegister_frame (s : State) (offset : BitVec 8) (v : Word) :
    ∃ e p c l b p0 p1 p2 p3, writeRegister s offset v
      = { s with elem := e, planes := p, count := c, len := l, ebuf := b, pb0 := p0, pb1 := p1, pb2 := p2, pb3 := p3 }
      ∧ (p = s.planes ∨ (offset = 0x14 ∧ p = v)) := by
  rcases writeRegister_cases s offset v with h | h | ⟨ho, h⟩ | h | h | h | h | h | h | h
  case inr.inr.inl => exact ⟨_, _, _, _, _, _, _, _, _, h, .inr ⟨ho, rfl⟩⟩
  all_goals exact ⟨_, _, _, _, _, _, _, _, _, h, .inl rfl⟩

theorem writeRegister_keeps_inv {s : State} (hi : s.Inv) (hres : s.inReset = false) (offset : BitVec 8) (v : Word) :
    (writeRegister s offset v).Inv := by
  obtain ⟨e, p, c, l, b, p0, p1, p2, p3, h, _⟩ := writeRegister_frame s offset v
  rw [h]
  exact inv_of_same hi hi.1 rfl rfl rfl rfl rfl (.inl hres) id

theorem hostRegRead_keeps_inv {s : State} (hi : s.Inv) (offset : BitVec 8) : (hostRegRead offset s).Inv := by
  rcases hostRegRead_cases offset s with ⟨_, h⟩ | ⟨_, _, h⟩ <;> rw [h]
  · exact inv_setReply hi _
  · exact inv_setUnseen_nil (inv_setReply hi _)

theorem pollStatus_keeps_inv {s : State} (hi : s.Inv) : (pollStatus s).Inv := by
  rcases pollStatus_cases s with ⟨_, h⟩ | ⟨_, h⟩ <;> rw [h]
  · exact inv_setUnseen_nil (inv_setReply hi _)
  · exact inv_setProgram (inv_setReply hi _) _

theorem hostMemRead_keeps_inv {s : State} (hi : s.Inv) (a : Nat) : (hostMemRead a s).Inv := by
  obtain ⟨v, n, h⟩ := hostMemRead_cases a s
  rw [h]
  exact inv_addDraws (inv_setReply hi _) n

/-- More notes keep the hidden state in order. -/
theorem notesTo.runningOk {P : Host.Cell → Prop} {p : Platform} {r q : Running} (h : notesTo P r q)
    (hr : runningOk p r = true) : runningOk p q = true := by
  rw [runningOk_iff] at hr ⊢
  obtain ⟨ho, hp, hn⟩ := hr
  exact ⟨h.operandsOk ho, h.progressOk hp, h.racesOk hn⟩

theorem notesTo.endedOk {P : Host.Cell → Prop} {p : Platform} {r q : Running} (h : notesTo P r q)
    (hr : endedOk p r = true) : endedOk p q = true := by
  unfold Machine.endedOk at hr ⊢
  rw [Bool.and_eq_true] at hr ⊢
  exact ⟨h.operandsOk hr.1, h.racesOk hr.2⟩

/-- A host write of a byte keeps the invariant, if memory keeps its form. -/
theorem writeFrame.keeps_inv {P : Host.Cell → Prop} {s u : State} (h : writeFrame P s u) (hi : s.Inv)
    (hm : Memory.wf u.mem = true) : u.Inv := by
  obtain ⟨⟨hplat, hcap, hin⟩, hstatus, _⟩ := h.fields
  obtain ⟨m, n, f, hf, he⟩ := h
  have hrun : u.run = s.run.map f := by simp [he]
  have hunseen : u.unseen = s.unseen.map f := by simp [he]
  obtain ⟨_, hst, hb, hr, hu, hc, hreset⟩ := hi
  refine ⟨hm, hstatus ▸ hst, ?_, ?_, ?_, by rw [hcap, hplat, hc], fun hres => ?_⟩
  · unfold busy at hb ⊢
    rw [hstatus, hrun, hb, Option.isSome_map]
  · rw [hrun, hplat]
    rw [Option.all_eq_true] at hr ⊢
    intro q hq
    obtain ⟨r, hr', rfl⟩ := Option.map_eq_some_iff.1 hq
    exact (hf r).runningOk (hr r hr')
  · rw [hunseen, hplat]
    rw [List.all_eq_true] at hu ⊢
    intro q hq
    obtain ⟨r, hr', rfl⟩ := List.mem_map.1 hq
    exact (hf r).endedOk (hu r hr')
  · rw [he]
    exact congrArg (fun t : State => (((t.setMem m).setRun (t.run.map f)).setUnseen (t.unseen.map f)).addDraws n)
      (hreset (hin ▸ hres))

theorem hostMemWrite_keeps_inv {s : State} (hi : s.Inv) (a : Word) (v : Byte) : (hostMemWrite a.toNat v s).Inv := by
  refine (hostMemWrite_frame a.toNat v s).keeps_inv hi (hostMemWrite_wf (p := s.platform) v a.isLt hi.1 fun r hr => ?_)
  have := List.all_eq_true.1 (inv_unseen hi) r hr
  rw [endedOk, Bool.and_eq_true] at this
  exact this.1

/-! Reset. -/

/-- The machine at its reset values is in order. -/
theorem inv_resetRegisters {s : State} (hm : Memory.wf s.mem = true) (b : Bool) :
    State.Inv { resetRegisters s with inReset := b } :=
  ⟨hm, statusReset_mem, statusBusyBit_reset, rfl, rfl, rfl, fun _ => rfl⟩

theorem assertReset_keeps_inv {s : State} (hi : s.Inv) : (assertReset s).Inv := by
  unfold assertReset
  cases hr : s.run with
  | none => exact inv_resetRegisters hi.1 true
  | some r =>
    have ho := ((runningOk_iff _ r).1 (inv_runningOk hi hr)).1
    exact inv_resetRegisters (settleRaces_wf true ho hi.1) true

theorem releaseReset_keeps_inv {s : State} (hi : s.Inv) : (releaseReset s).Inv := by
  rcases releaseReset_cases s with ⟨_, h⟩ | ⟨_, h⟩ <;> rw [h]
  · exact hi
  · exact inv_resetRegisters hi.1 false

theorem hostStep_keeps_inv {op : HostOp} {s u : State} (hi : s.Inv) (h : hostStep op s = .next u) : u.Inv := by
  rcases hostStep_next_cases h with
    ⟨offset, _, _, rfl⟩ | ⟨_, _, rfl⟩ | ⟨w, _, hres, hw⟩ | ⟨offset, w, _, _, hres, rfl⟩ | ⟨a, _, rfl⟩ | ⟨a, v, _, rfl⟩
      | ⟨_, rfl⟩ | ⟨_, rfl⟩
  · exact hostRegRead_keeps_inv hi offset
  · exact pollStatus_keeps_inv hi
  · exact writeCmd_keeps_inv hi hres hw
  · exact writeRegister_keeps_inv hi hres offset w
  · exact hostMemRead_keeps_inv hi a.toNat
  · exact hostMemWrite_keeps_inv hi a v
  · exact assertReset_keeps_inv hi
  · exact releaseReset_keeps_inv hi

/-- Settles O49: the engine transfers a free pair of a command in order or ends it, an idle turn writes nothing the invariant speaks of,
and each operation of the host keeps it. -/
theorem everyStepKeepsTheInvariant : Obligations.EveryStepKeepsTheInvariant := by
  intro s t hi h
  rcases step_cases s with ⟨_, hs⟩ | ⟨_, _, hs⟩ | ⟨op, _, hs⟩ <;> rw [hs] at h
  · exact engineStep_keeps_inv (inv_turnTaken hi) h
  · cases h
    exact inv_turnTaken hi
  · exact hostStep_keeps_inv (inv_popped hi) h

/-- Settles O50: State.reset has every register at its reset value and lists no memory. -/
theorem invariantHoldsAtReset : Obligations.InvariantHoldsAtReset :=
  inv_resetRegisters (s := State.reset) Memory.wf_nil false

end Sys2Proof.Machine
end

section
/-! The register window: what a read returns, what a write does, which accesses are refused, and the reset values
(10_state R21 to R26, R35, R40). -/

namespace Sys2Proof.Machine

open Sys2Proof Sys2Proof.Config

/-! HWCFG (10_state R25). -/

/-- The high part of two words put together weighs `2 ^ m`. -/
theorem toNat_append_add {n m : Nat} (x : BitVec n) (y : BitVec m) : (x ++ y).toNat = 2 ^ m * x.toNat + y.toNat := by
  rw [BitVec.toNat_append, ← Nat.shiftLeft_add_eq_or_of_lt y.isLt, Nat.shiftLeft_eq, Nat.mul_comm]

theorem hwcfgWord_toNat (p : Platform) (cap : Bool) :
    (hwcfgWord p cap).toNat = cap.toNat + 2 * (f16FmtBit p.f16Fmt).toNat + 256 * p.vlen.toNat := by
  simp only [hwcfgWord, toNat_append_add, BitVec.toNat_ofNat, BitVec.toNat_ofBool, Nat.zero_mod]
  omega

/-- Settles O42: the fields of HWCFG are its bits put together, F16FMT at weight 2. -/
theorem hwcfgReportsTheParameters : Obligations.HwcfgReportsTheParameters := by
  intro p cap
  rw [hwcfgWord_toNat]
  cases cap <;> cases p.f16Fmt <;> rfl

/-! Reads. -/

/-- A 32-bit register read gives the host the register, and a read of STATUS with BUSY = 0 empties the note of commands not seen to
have ended. -/
theorem step_of_regRead {s : State} {offset : BitVec 8} (h : aboutTo (.regRead offset .word) s) (hres : s.inReset = false)
    (ho : offset.toNat % 4 = 0) :
    step s = .next { popped s with
      reply := some (.word (readRegister s offset))
      unseen := if offset.toNat = 0x04 ∧ busy s = false then [] else s.unseen } := by
  rw [step_of_aboutTo h, hostStep_regRead, windowAccess_of_ok (s := popped s) _ hres ho]
  have hstatus : offset = 0x04 ↔ offset.toNat = 0x04 := BitVec.toNat_inj.symm
  rcases hostRegRead_cases offset (popped s) with ⟨hn, he⟩ | ⟨rfl, hb, he⟩ <;> rw [he]
  · rw [hstatus, busy_popped] at hn
    rw [if_neg hn]
    rfl
  · rw [if_pos ⟨rfl, hb⟩]
    rfl

/-- The registers by their offsets (10_state R23). -/
def registerMap (s : State) : List (Nat × Word) :=
  [(0x00, s.cmd), (0x04, s.status), (0x08, hwcfgWord s.platform s.cap), (0x0C, s.errAddr), (0x10, s.elem),
   (0x14, s.planes), (0x18, s.result), (0x1C, s.count), (0x20, s.len), (0x24, s.ebuf), (0x28, s.pb0),
   (0x2C, s.pb1), (0x30, s.pb2), (0x34, s.pb3)]

theorem readRegister_of_mem {s : State} {offset : BitVec 8} {v : Word} (h : (offset.toNat, v) ∈ registerMap s) :
    readRegister s offset = v ∧ offset.toNat % 4 = 0 := by
  simp only [registerMap, List.mem_cons, Prod.mk.injEq, List.not_mem_nil, or_false] at h
  rcases h with h | h | h | h | h | h | h | h | h | h | h | h | h | h <;> obtain ⟨ho, rfl⟩ := h <;>
    simp [readRegister, ho]

/-- A reserved offset reads 0 (10_state R22). -/
theorem readRegister_reserved (s : State) {offset : BitVec 8} (h : 0x38 ≤ offset.toNat) : readRegister s offset = 0 := by
  unfold readRegister
  split
  case h_15 => rfl
  all_goals omega

/-- Settles O41: the register at an offset of the map, and 0 at a reserved one. -/
theorem registerReadsFollowTheMap : Obligations.RegisterReadsFollowTheMap := by
  intro s offset h hres
  refine ⟨fun v hv => ?_, fun ho hge => ?_⟩
  · obtain ⟨hread, ho⟩ := readRegister_of_mem hv
    rw [step_of_regRead h hres ho, hread]
  · have hne : ¬ (offset.toNat = 0x04 ∧ busy s = false) := by omega
    rw [step_of_regRead h hres ho, readRegister_reserved s hge, if_neg hne]
    rfl

/-! Writes. -/

/-- A 32-bit write at offset 0 is a CMD write. -/
theorem step_of_cmdWrite {s : State} {w : Word} (h : aboutTo (.regWrite 0 .word w) s) (hres : s.inReset = false) :
    step s = writeCmd w (popped s) := by
  rw [step_of_aboutTo h, hostStep_regWrite, windowAccess_of_ok (s := popped s) _ hres (by decide)]
  rfl

/-- A 32-bit write at any other offset that is a multiple of 4 writes that register. -/
theorem step_of_regWrite {s : State} {offset : BitVec 8} {v : Word} (h : aboutTo (.regWrite offset .word v) s)
    (hres : s.inReset = false) (ho : offset.toNat % 4 = 0) (h0 : offset ≠ 0) :
    step s = .next (writeRegister (popped s) offset v) := by
  rw [step_of_aboutTo h, hostStep_regWrite, windowAccess_of_ok (s := popped s) _ hres ho, registerWrite, if_neg h0]

/-- A write at a reserved offset is ignored (10_state R22). -/
theorem writeRegister_reserved (s : State) {offset : BitVec 8} (v : Word) (h : 0x38 ≤ offset.toNat) :
    writeRegister s offset v = s := by
  unfold writeRegister
  split
  case h_10 => rfl
  all_goals omega

/-- Settles O43: one register takes the value, or, at a read-only or reserved offset, none. -/
theorem registerWritesFollowTheMap : Obligations.RegisterWritesFollowTheMap := by
  intro s offset v h hres
  have hwrite := step_of_regWrite h hres
  refine ⟨?_, ?_, ?_, ?_, ?_, ?_, ?_, ?_, ?_, ?_, fun ho hge => ?_⟩
  case refine_10 => rintro (rfl | rfl | rfl | rfl) <;> exact hwrite (by decide) (by decide)
  case refine_11 =>
    have h0 : offset ≠ 0 := by
      rintro rfl
      simp at hge
    rw [hwrite ho h0, writeRegister_reserved _ _ hge]
  all_goals
    rintro rfl
    exact hwrite (by decide) (by decide)

/-! Refused accesses (10_state R21, 70_reset_and_hazards R174). -/

/-- The three refusals of a register access, in their order. -/
theorem windowAccess_refused (offset : BitVec 8) (width : Width) (s : State) (f : State → Host.Outcome State Fault Refusal) :
    (s.inReset = true → windowAccess offset width s f = .refused .accessDuringReset)
    ∧ (s.inReset = false → width ≠ .word → windowAccess offset width s f = .refused .registerAccessNotWord)
    ∧ (s.inReset = false → width = .word → offset.toNat % 4 ≠ 0 →
        windowAccess offset width s f = .refused .registerAccessMisaligned) := by
  unfold windowAccess
  refine ⟨fun hr => if_pos hr, fun hr hw => ?_, fun hr hw ho => ?_⟩
  · rw [if_neg (by simp [hr]), if_pos hw]
  · rw [if_neg (by simp [hr]), if_neg (not_not_intro hw), if_pos ho]

/-- The two refusals of a memory access of one byte inside the window. -/
theorem memoryAccess_refused {a : Word} {s : State} (f : State → State) (ha : inRegion (window s.platform) a.toNat = true) :
    (s.inReset = true → memoryAccess a s f = .refused .accessDuringReset)
    ∧ (s.inReset = false → memoryAccess a s f = .refused .registerAccessNotWord) := by
  unfold memoryAccess
  rw [if_pos ha]
  exact ⟨fun hr => if_pos hr, fun hr => if_neg (by simp [hr])⟩

/-- Settles O44: a register access is one to the window, the read of `wait` too, and so is a byte of memory inside the window. -/
theorem otherRegisterAccessesAreRefused : Obligations.OtherRegisterAccessesAreRefused := by
  refine ⟨fun s offset width v h => ?_, fun s h hres => ?_, fun s a v h hlo hhi => ?_⟩
  · rcases h with h | h
    · rw [step_of_aboutTo h, hostStep_regRead]
      exact windowAccess_refused offset width (popped s) _
    · rw [step_of_aboutTo h, hostStep_regWrite]
      exact windowAccess_refused offset width (popped s) _
  · rw [step_of_aboutTo h, hostStep_wait]
    exact (windowAccess_refused 0x04 .word (popped s) _).1 hres
  · have ha : inRegion (window (popped s).platform) a.toNat = true := (inRegion_iff _ _).2 ⟨hlo, hhi⟩
    rcases h with h | h <;> rw [step_of_aboutTo h]
    · exact memoryAccess_refused _ ha
    · exact memoryAccess_refused _ ha

/-! Reset values (10_state R40). -/

/-- CAP at reset, as a number (70_reset_and_hazards R172). -/
theorem capAtReset_toNat (p : Platform) :
    (capAtReset p).toNat = if p.capIn = true ∧ 0 < p.vlen.toNat then 1 else 0 := by
  unfold capAtReset
  cases p.capIn <;> by_cases h : 0 < p.vlen.toNat <;> simp [h]

/-- Settles O46: every register is set at a reset, and HWCFG reads the latched CAP and the platform's constants. -/
theorem resetGivesTheResetValues : Obligations.ResetGivesTheResetValues := by
  unfold Obligations.ResetGivesTheResetValues
  intro atReset
  have key : ∀ (s : State) (b : Bool), atReset { resetRegisters s with inReset := b } := by
    intro s b
    refine ⟨rfl, rfl, rfl, rfl, rfl, rfl, rfl, rfl, rfl, rfl, rfl, rfl, rfl, rfl, ?_⟩
    refine (hwcfgWord_toNat s.platform (capAtReset s.platform)).trans ?_
    rw [capAtReset_toNat]
    dsimp only [resetRegisters]
    cases s.platform.f16Fmt <;> rfl
  refine ⟨⟨key State.reset false, rfl⟩, fun s h => ?_, fun s h hres => ?_⟩
  · obtain ⟨m, n, he⟩ := assertReset_frame (popped s)
    exact ⟨_, step_of_aboutTo h, he ▸ key _ true, he ▸ rfl⟩
  · rcases releaseReset_cases (popped s) with ⟨hn, _⟩ | ⟨_, he⟩
    · cases hres.symm.trans hn
    · exact ⟨_, step_of_aboutTo h, he ▸ key _ false, he ▸ rfl⟩

/-! STATUS (10_state R26). -/

/-- What each legal value of STATUS stands for (60_exceptions R144). -/
theorem status_cases {v : Word} (h : v ∈ statusValues) :
    v = 0 ∨ v = statusBusy ∨ v = statusDone ∨ (∃ c, v = statusInvalidInput c) ∨ ∃ d, v = statusBusError d := by
  simp only [statusValues, List.mem_cons, List.not_mem_nil, or_false] at h
  rcases h with h | h | h | h | h | h | h | h | h | h | h | h
  · exact .inl h
  · exact .inr (.inl h)
  · exact .inr (.inr (.inl h))
  · exact .inr (.inr (.inr (.inl ⟨.badOp, h⟩)))
  · exact .inr (.inr (.inr (.inl ⟨.rsvdBits, h⟩)))
  · exact .inr (.inr (.inr (.inl ⟨.badDtype, h⟩)))
  · exact .inr (.inr (.inr (.inl ⟨.badField, h⟩)))
  · exact .inr (.inr (.inr (.inl ⟨.lenMismatch, h⟩)))
  · exact .inr (.inr (.inr (.inl ⟨.range, h⟩)))
  · exact .inr (.inr (.inr (.inl ⟨.overlap, h⟩)))
  · exact .inr (.inr (.inr (.inr ⟨.read, h⟩)))
  · exact .inr (.inr (.inr (.inr ⟨.write, h⟩)))

/-- Settles O52: each legal value of STATUS has legal fields, and BUSY = 1 exactly while there is hidden state. -/
theorem statusFieldsAreLegal : Obligations.StatusFieldsAreLegal := by
  rintro s ⟨_, hst, hb, _⟩
  have hrun : s.status.getLsbD 0 = true ↔ ∃ r, s.run = some r := by
    rw [← Option.isSome_iff_exists, ← hb]
    rfl
  refine ⟨?_, ?_, ?_, ?_, ?_, ?_, ?_, hrun⟩
  all_goals
    rcases status_cases hst with h | h | h | ⟨c, h⟩ | ⟨d, h⟩ <;> rw [h]
    case inr.inr.inr.inl => cases c <;> decide
    case inr.inr.inr.inr => cases d <;> decide
    all_goals decide

end Sys2Proof.Machine
end

section
/-! Which steps write CMD, RESULT, PLANES, ERRADDR and the hidden state (10_state R24, R27, R29, R30, R36). -/

namespace Sys2Proof.Machine

open Sys2Proof Sys2Proof.Config

/-! The steps that write them, and the others. -/

/-- A step that is none of an engine step, a CMD write and a reset: it writes none of CMD, STATUS, ERRADDR and RESULT, PLANES only as
the host's write of it, and of the hidden state only the notes of host writes. -/
structure QuietStep (s t : State) : Prop where
  cmd : t.cmd = s.cmd
  status : t.status = s.status
  errAddr : t.errAddr = s.errAddr
  result : t.result = s.result
  planes : t.planes = s.planes ∨ aboutTo (.regWrite 0x14 .word t.planes) s
  run : ∃ f, (∀ r, notesTo (fun _ => True) r (f r)) ∧ t.run = s.run.map f

@[simp] theorem popped_cmd (s : State) : (popped s).cmd = s.cmd := rfl
@[simp] theorem popped_errAddr (s : State) : (popped s).errAddr = s.errAddr := rfl
@[simp] theorem popped_result (s : State) : (popped s).result = s.result := rfl
@[simp] theorem popped_planes (s : State) : (popped s).planes = s.planes := rfl

/-- A step that leaves those registers and the hidden state as they are is quiet. -/
theorem QuietStep.of_same {s t : State}
    (h : t.cmd = s.cmd ∧ t.status = s.status ∧ t.errAddr = s.errAddr ∧ t.result = s.result ∧ t.run = s.run)
    (hp : t.planes = s.planes ∨ aboutTo (.regWrite 0x14 .word t.planes) s) : QuietStep s t := by
  obtain ⟨hc, hs, he, hr, hrun⟩ := h
  exact ⟨hc, hs, he, hr, hp, id, notesTo.refl _, by rw [hrun, Option.map_id]; rfl⟩

theorem quietStep_turnTaken (s : State) : QuietStep s (turnTaken s) := .of_same ⟨rfl, rfl, rfl, rfl, rfl⟩ (.inl rfl)

theorem quietStep_hostRegRead (offset : BitVec 8) (s : State) : QuietStep s (hostRegRead offset (popped s)) := by
  rcases hostRegRead_cases offset (popped s) with ⟨_, h⟩ | ⟨_, _, h⟩ <;>
    exact .of_same (by simp [h]) (.inl (by simp [h]))

theorem quietStep_pollStatus (s : State) : QuietStep s (pollStatus (popped s)) := by
  rcases pollStatus_cases (popped s) with ⟨_, h⟩ | ⟨_, h⟩ <;>
    exact .of_same (by simp [h]) (.inl (by simp [h]))

theorem quietStep_writeRegister {s : State} {offset : BitVec 8} {v : Word} (h : aboutTo (.regWrite offset .word v) s) :
    QuietStep s (writeRegister (popped s) offset v) := by
  obtain ⟨e, p, c, l, b, p0, p1, p2, p3, he, hp⟩ := writeRegister_frame (popped s) offset v
  refine .of_same (by simp [he]) ?_
  rcases hp with hp | ⟨rfl, rfl⟩
  · exact .inl (by simp [he, hp])
  · exact .inr (by rwa [he])

theorem quietStep_hostMemRead (a : Nat) (s : State) : QuietStep s (hostMemRead a (popped s)) := by
  obtain ⟨v, n, h⟩ := hostMemRead_cases a (popped s)
  exact .of_same (by simp [h]) (.inl (by simp [h]))

theorem writeFrame.quietStep {P : Host.Cell → Prop} {s u : State} (h : writeFrame P (popped s) u) : QuietStep s u := by
  obtain ⟨_, hst, herr, hres, hpl, _, hcmd, _⟩ := h.fields
  obtain ⟨m, n, f, hf, hu⟩ := h
  exact ⟨hcmd, hst, herr, hres, .inl hpl, f, fun r => (hf r).mono fun _ _ => trivial, by simp [hu]⟩

/-- Every step is an engine step, a CMD write, a reset, or quiet. -/
theorem step_writes_cases {s t : State} (h : step s = .next t) :
    (nextAgent s = .engine ∧ engineStep (turnTaken s) = .next t)
    ∨ (∃ w, aboutTo (.regWrite 0 .word w) s ∧ writeCmd w (popped s) = .next t)
    ∨ (aboutTo .assertReset s ∧ t = assertReset (popped s))
    ∨ (aboutTo .releaseReset s ∧ t = releaseReset (popped s))
    ∨ QuietStep s t := by
  rcases step_cases s with ⟨ha, hs⟩ | ⟨_, _, hs⟩ | ⟨op, ho, hs⟩ <;> rw [hs] at h
  · exact .inl ⟨ha, h⟩
  · cases h
    exact .inr (.inr (.inr (.inr (quietStep_turnTaken s))))
  · rcases hostStep_next_cases h with
      ⟨offset, _, _, rfl⟩ | ⟨_, _, rfl⟩ | ⟨w, rfl, _, hw⟩ | ⟨offset, w, _, rfl, _, rfl⟩ | ⟨a, _, rfl⟩ | ⟨a, v, _, rfl⟩
        | ⟨rfl, rfl⟩ | ⟨rfl, rfl⟩
    · exact .inr (.inr (.inr (.inr (quietStep_hostRegRead offset s))))
    · exact .inr (.inr (.inr (.inr (quietStep_pollStatus s))))
    · exact .inr (.inl ⟨w, ho, hw⟩)
    · exact .inr (.inr (.inr (.inr (quietStep_writeRegister ho))))
    · exact .inr (.inr (.inr (.inr (quietStep_hostMemRead _ s))))
    · exact .inr (.inr (.inr (.inr (hostMemWrite_frame a.toNat v (popped s)).quietStep)))
    · exact .inr (.inr (.inl ⟨ho, rfl⟩))
    · exact .inr (.inr (.inr (.inl ⟨ho, rfl⟩)))

/-! CMD (10_state R24). -/

/-- A word that decodes to a command is that command's word. -/
theorem eq_encode_of_decode {w : Word} {i : Instr} (h : decode w = .ok i) : w = encode i := by
  rcases decode_cases w with ⟨_, hd⟩ | ⟨_, _, hd⟩ | ⟨_, _, _, hd⟩ | ⟨_, _, _, _, hd⟩ | ⟨_, j, hj, hd⟩ <;>
    cases h.symm.trans hd
  rw [encode, ← hj, wordOf_fieldsOf]

/-- A command run while idle leaves its word in CMD. -/
theorem exec_cmd {i : Instr} {s u : State} (hb : busy s = false) (h : exec i s = .next u) : u.cmd = encode i := by
  rcases instr_cases i with hel | ⟨op, d, rfl⟩
  · rcases exec_element_cases hel s with ⟨hb', _⟩ | ⟨_, p, v, he, _⟩
    · cases hb.symm.trans hb'
    · cases h.symm.trans he
      rfl
  · rw [exec_bufferCommand, acceptWord_idle _ _ hb] at h
    rcases startBuffer_cases op d (s.setCmd (encode (bufferCommand op d)))
      with ⟨c, _, he⟩ | ⟨_, _, he⟩ | ⟨f, he⟩ | ⟨_, _, _, _, he⟩ <;> cases h.symm.trans he <;> rfl

/-- A CMD write while idle leaves the word in CMD, whatever it decodes to. -/
theorem writeCmd_cmd {w : Word} {s u : State} (hb : busy s = false) (h : writeCmd w s = .next u) : u.cmd = w := by
  rcases writeCmd_cases w s with ⟨c, _, he⟩ | ⟨i, hd, he⟩ <;> rw [he] at h
  · rw [rejectWord_idle _ _ hb] at h
    cases h
    rfl
  · exact (exec_cmd hb h).trans (eq_encode_of_decode hd).symm

/-! Reset clears the registers (70_reset_and_hazards R170, R172). -/

@[simp] theorem assertReset_cmd (s : State) : (assertReset s).cmd = 0 := rfl
@[simp] theorem assertReset_status (s : State) : (assertReset s).status = 0 := rfl
@[simp] theorem assertReset_errAddr (s : State) : (assertReset s).errAddr = 0 := rfl
@[simp] theorem assertReset_run (s : State) : (assertReset s).run = none := rfl

/-- Settles O5: a CMD write is the one step that stores a word in CMD, and it does so exactly while idle. -/
theorem cmdWriteIsGatedByBusy : Obligations.CmdWriteIsGatedByBusy := by
  refine ⟨fun s t w h hres hb ht => ?_, fun s w h hres hb => ?_, fun s w h hres hb => ?_, fun s h hres => ?_,
    fun s t ht hne => ?_, rfl, by decide, rfl, rfl⟩
  · rw [step_of_cmdWrite h hres] at ht
    exact writeCmd_cmd (s := popped s) hb ht
  · rw [step_of_cmdWrite h hres]
    rcases writeCmd_cases w (popped s) with ⟨c, hd, he⟩ | ⟨i, hd, he⟩ <;> rw [he, hd]
    exact rejectWord_idle w c hb
  · rw [step_of_cmdWrite h hres]
    exact writeCmd_of_busy w hb
  · rw [step_of_regRead h hres (by decide), if_neg fun h0 => absurd h0.1 (by decide)]
    rfl
  · rcases step_writes_cases ht with ⟨_, he⟩ | ⟨w, ho, hw⟩ | ⟨ho, rfl⟩ | ⟨ho, rfl⟩ | hq
    · obtain ⟨_, _, _, _, hc, _⟩ := (engineStep_frame he).fields
      exact absurd hc hne
    · cases hb : busy s with
      | true =>
        rw [writeCmd_of_busy (s := popped s) w hb] at hw
        cases hw
        exact absurd rfl hne
      | false => exact .inl ⟨by rwa [writeCmd_cmd (s := popped s) hb hw], rfl⟩
    · exact .inr ⟨.inl ho, assertReset_cmd _⟩
    · rcases releaseReset_cases (popped s) with ⟨_, he⟩ | ⟨_, he⟩
      · exact absurd (by rw [he]; rfl) hne
      · exact .inr ⟨.inr ho, by rw [he]; rfl⟩
    · exact absurd hq.cmd hne

/-! RESULT and PLANES (10_state R29, R30). -/

/-- Settles O54: RESULT and PLANES are written by a CMD write of their commands' words, PLANES by its own register write too. -/
theorem onlyTheirCommandsWriteResultAndPlanes : Obligations.OnlyTheirCommandsWriteResultAndPlanes := by
  intro s t h hassert hrelease
  rcases step_writes_cases h with ⟨_, he⟩ | ⟨w, ho, hw⟩ | ⟨ho, _⟩ | ⟨ho, _⟩ | hq
  · obtain ⟨_, hr, hp, _⟩ := (engineStep_frame he).fields
    exact ⟨fun hne => absurd hr hne, fun hne => absurd hp hne⟩
  · obtain ⟨_, _, _, _, hr, hp⟩ := writeCmd_frame hw
    refine ⟨fun hne => ?_, fun hne => ?_⟩
    · obtain ⟨i, hd, hi⟩ := hr hne
      exact ⟨i, eq_encode_of_decode hd ▸ ho, hi⟩
    · rcases hp hne with hd | hd
      · exact .inl (eq_encode_of_decode hd ▸ ho)
      · exact .inr (.inl (eq_encode_of_decode hd ▸ ho))
  · exact absurd ho hassert
  · exact absurd ho hrelease
  · exact ⟨fun hne => absurd hq.result hne, fun hne => .inr (.inr (hq.planes.resolve_left hne))⟩

/-! The hidden state (10_state R36). -/

theorem inv_busy_of_running {s : State} {r : Running} (hi : s.Inv) (hr : s.run = some r) : busy s = true := by
  obtain ⟨_, _, hb, _⟩ := hi
  rw [hb, hr]
  rfl

/-- The transfer of a pair ends the command or puts the pair into L.done. -/
theorem transferPair_run {x : Nat} {r : Running} {s u : State} (h : transferPair x r s = .next u) :
    u.run = none ∨ u.run = some (withPair r x) := by
  rcases transferPair_cases x r s with ⟨a, _, _, he⟩ | ⟨a, d, _, _, _, he⟩ | ⟨_, _, _, _, he⟩ <;> rw [he] at h <;> cases h
  · exact .inl rfl
  · rcases completePair_cases x (engineRead (pairSrc r x) s) r s with ⟨_, hc⟩ | ⟨_, hc⟩ <;> rw [hc]
    · exact .inr rfl
    · exact .inl rfl

/-- q is the same command as r, with no fewer pairs done. -/
def SameCommand (r q : Running) : Prop :=
  q.op = r.op ∧ q.dt = r.dt ∧ q.count = r.count ∧ q.ebuf = r.ebuf ∧ q.pb = r.pb ∧ q.path = r.path ∧ q.before = r.before
    ∧ ∀ x ∈ r.done, x ∈ q.done

theorem SameCommand.refl (r : Running) : SameCommand r r := ⟨rfl, rfl, rfl, rfl, rfl, rfl, rfl, fun _ hx => hx⟩

theorem sameCommand_withPair (r : Running) (t : Nat) : SameCommand r (withPair r t) :=
  ⟨rfl, rfl, rfl, rfl, rfl, rfl, rfl, fun x hx => (mem_addPair r.done t x).2 (.inr hx)⟩

theorem notesTo.sameCommand {P : Host.Cell → Prop} {r q : Running} (h : notesTo P r q) : SameCommand r q := by
  obtain ⟨l, rfl, _⟩ := h
  exact SameCommand.refl r

/-- Settles O36: the engine adds a pair or ends the command, a CMD write is ignored, a reset abandons the command, and any other step
only notes host writes. -/
theorem latchedOperandsStay : Obligations.LatchedOperandsStay := by
  intro s t r hi hr h
  show t.run = none ∨ ∃ q, t.run = some q ∧ SameCommand r q
  have hb := inv_busy_of_running hi hr
  rcases step_writes_cases h with ⟨_, he⟩ | ⟨w, ho, hw⟩ | ⟨_, rfl⟩ | ⟨_, rfl⟩ | hq
  · have hp := ((runningOk_iff _ r).1 (inv_runningOk hi hr)).2.1
    rw [engineStep_running (s := turnTaken s) hr hp] at he
    rcases transferPair_run he with hrun | hrun
    · exact .inl hrun
    · exact .inr ⟨_, hrun, sameCommand_withPair r _⟩
  · rw [writeCmd_of_busy (s := popped s) w hb] at hw
    cases hw
    exact .inr ⟨r, hr, SameCommand.refl r⟩
  · exact .inl (assertReset_run _)
  · rcases releaseReset_cases (popped s) with ⟨_, he⟩ | ⟨_, he⟩ <;> rw [he]
    · exact .inr ⟨r, hr, SameCommand.refl r⟩
    · exact .inl rfl
  · obtain ⟨f, hf, hrun⟩ := hq.run
    exact .inr ⟨f r, by rw [hrun, hr]; rfl, (hf r).sameCommand⟩

/-! ERRADDR (10_state R27). -/

theorem statusErr_busError (d : Dir) : statusErr (statusBusError d) = 2 := by cases d <;> decide

/-- STATUS shows no error while BUSY = 1. -/
theorem inv_statusErr_of_busy {s : State} (hi : s.Inv) (hb : busy s = true) : statusErr s.status = 0 :=
  ((statusFieldsAreLegal s hi).1 hb).2.1

/-- The transfer of a pair of the command raises a bus error, which records a refused access of one of its pairs, or leaves ERRADDR as it
is and reports no error. -/
theorem transferPair_errAddr {x : Nat} {r : Running} {s u : State} (hx : x < pairTotal r) (h : transferPair x r s = .next u) :
    (∃ y d, y < pairTotal r ∧ portAdmits s.platform (pairAccess r y d) d = false
      ∧ u.errAddr = BitVec.ofNat 32 (pairAccess r y d) ∧ u.status = statusBusError d)
    ∨ (u.errAddr = s.errAddr ∧ (u.status = s.status ∨ u.status = statusDone)) := by
  rcases transferPair_cases x r s with ⟨a, _, _, he⟩ | ⟨a, d, _, had, rfl, he⟩ | ⟨_, _, _, _, he⟩ <;> rw [he] at h <;> cases h
  · obtain ⟨y, e, hy, hye, hrep⟩ := reportedAccess_refused hx had (drawAt s 0) (drawAt s 1)
    refine .inl ⟨y, e, hy, hye, ?_, ?_⟩
    · rw [raiseBusError_errAddr, reportIn, hrep]
    · rw [raiseBusError_status, reportIn, hrep]
  · rcases completePair_cases x (engineRead (pairSrc r x) s) r s with ⟨_, hc⟩ | ⟨_, hc⟩ <;> rw [hc]
    · exact .inr ⟨by simp, .inl (by simp)⟩
    · exact .inr ⟨by simp, .inr (by simp)⟩

/-- The address of a pair's access fits in ERRADDR. -/
theorem pairAccess_toNat {p : Platform} {r : Running} (ho : operandsOk p r = true) {x : Nat} (hx : x < pairTotal r) (d : Dir) :
    (BitVec.ofNat 32 (pairAccess r x d)).toNat = pairAccess r x d := by
  obtain ⟨hsrc, hdst⟩ := pair_lt_space ho hx
  rw [BitVec.toNat_ofNat]
  cases d
  · exact Nat.mod_eq_of_lt hsrc
  · exact Nat.mod_eq_of_lt hdst

/-- An engine step leaves ERRADDR and shows no error, unless it is the bus error of a running command. -/
theorem engineStep_errAddr {s u : State} (hi : s.Inv) (h : engineStep s = .next u) :
    (∃ r y d, s.run = some r ∧ y < pairTotal r ∧ portAdmits s.platform (pairAccess r y d) d = false
      ∧ u.errAddr.toNat = pairAccess r y d ∧ u.status = statusBusError d)
    ∨ (u.errAddr = s.errAddr ∧ (busy s = true → statusErr u.status = 0)) := by
  have hquiet := inv_statusErr_of_busy hi
  cases hr : s.run with
  | none =>
    rw [engineStep_idle hr] at h
    cases h
    exact .inr ⟨rfl, hquiet⟩
  | some r =>
    obtain ⟨hops, hp, _⟩ := (runningOk_iff _ r).1 (inv_runningOk hi hr)
    rw [engineStep_running hr hp] at h
    rcases transferPair_errAddr (pickPair_free hp s).2 h with ⟨y, d, hy, hyd, herr, hst⟩ | ⟨herr, hst | hst⟩
    · exact .inl ⟨r, y, d, rfl, hy, hyd, by rw [herr, pairAccess_toNat hops hy], hst⟩
    · exact .inr ⟨herr, fun hb => by rw [hst]; exact hquiet hb⟩
    · exact .inr ⟨herr, fun _ => by rw [hst]; rfl⟩

/-- What a step writes into ERRADDR. -/
theorem step_errAddr_cases {s t : State} (hi : s.Inv) (h : step s = .next t) :
    (∃ r y d, s.run = some r ∧ nextAgent s = .engine ∧ y < pairTotal r
      ∧ portAdmits s.platform (pairAccess r y d) d = false ∧ t.errAddr.toNat = pairAccess r y d ∧ t.status = statusBusError d)
    ∨ (t.errAddr = s.errAddr ∧ (busy s = true → statusErr t.status = 0))
    ∨ ((aboutTo .assertReset s ∨ aboutTo .releaseReset s) ∧ t.errAddr = 0 ∧ t.status = 0) := by
  have hquiet := inv_statusErr_of_busy hi
  rcases step_writes_cases h with ⟨ha, he⟩ | ⟨w, ho, hw⟩ | ⟨ho, rfl⟩ | ⟨ho, rfl⟩ | hq
  · rcases engineStep_errAddr (inv_turnTaken hi) he with ⟨r, y, d, hr, hy, hyd, herr, hst⟩ | hsame
    · exact .inl ⟨r, y, d, hr, ha, hy, hyd, herr, hst⟩
    · exact .inr (.inl hsame)
  · obtain ⟨_, _, herr, _⟩ := writeCmd_frame hw
    refine .inr (.inl ⟨herr, fun hb => ?_⟩)
    rw [writeCmd_of_busy (s := popped s) w hb] at hw
    cases hw
    exact hquiet hb
  · exact .inr (.inr ⟨.inl ho, assertReset_errAddr _, assertReset_status _⟩)
  · rcases releaseReset_cases (popped s) with ⟨_, he⟩ | ⟨_, he⟩ <;> rw [he]
    · exact .inr (.inl ⟨rfl, hquiet⟩)
    · exact .inr (.inr ⟨.inr ho, rfl, rfl⟩)
  · exact .inr (.inl ⟨hq.errAddr, fun hb => by rw [hq.status]; exact hquiet hb⟩)

/-- Settles O53: the bus error of an engine step records a refused access, a reset clears ERRADDR, and every other step leaves it. -/
theorem onlyBusErrorsAndResetWriteErrAddr : Obligations.OnlyBusErrorsAndResetWriteErrAddr := by
  refine ⟨fun s t hi h hb herr => ?_, fun s t hi h hn => ?_, rfl⟩
  · rcases step_errAddr_cases hi h with ⟨r, y, d, hr, ha, hy, hyd, hat, hst⟩ | ⟨_, h0⟩ | ⟨_, _, h0⟩
    · refine ⟨r, y, d, hr, ha, hy, ?_, by rwa [hat], hst⟩
      cases d
      · exact .inl ⟨rfl, hat⟩
      · exact .inr ⟨rfl, hat⟩
    · rw [h0 hb] at herr
      cases herr
    · rw [h0] at herr
      cases herr
  · rcases step_errAddr_cases hi h with ⟨r, y, d, hr, _, _, _, _, hst⟩ | ⟨hsame, _⟩ | ⟨ho, h0, _⟩
    · exact absurd ⟨inv_busy_of_running hi hr, by rw [hst, statusErr_busError]⟩ hn
    · exact .inl hsame
    · exact .inr ⟨ho, h0⟩

end Sys2Proof.Machine
end

section
/-! No step of a machine in order faults (20_memory R58): only the transfer of a pair can fault, and a running command's pairs have
their addresses in the space. -/

namespace Sys2Proof.Machine

open Sys2Proof Sys2Proof.Config

theorem startBuffer_ne_fault (op : BufferOp) (d : DType) (s : State) (f : Fault) : startBuffer op d s ≠ .fault f := by
  rcases startBuffer_cases op d s with ⟨_, _, he⟩ | ⟨_, _, he⟩ | ⟨_, he⟩ | ⟨_, _, _, _, he⟩ <;> simp [he]

/-- Accepting a word faults only where what it runs does. -/
theorem acceptWord_ne_fault {w : Word} {run : State → Host.Outcome State Fault Refusal} {f : Fault}
    (h : ∀ t, run t ≠ .fault f) (s : State) : acceptWord w run s ≠ .fault f := by
  cases hb : busy s with
  | true => simp [acceptWord_busy w run hb]
  | false => simpa [acceptWord_idle w run hb] using h _

theorem exec_ne_fault (i : Instr) (s : State) (f : Fault) : exec i s ≠ .fault f := by
  rcases instr_cases i with hel | ⟨op, d, rfl⟩
  · rw [exec_element hel]
    exact acceptWord_ne_fault (fun _ h => by cases h) s
  · rw [exec_bufferCommand]
    exact acceptWord_ne_fault (fun t => startBuffer_ne_fault op d t f) s

theorem writeCmd_ne_fault (w : Word) (s : State) (f : Fault) : writeCmd w s ≠ .fault f := by
  rcases writeCmd_cases w s with ⟨c, _, he⟩ | ⟨i, _, he⟩ <;> rw [he]
  · exact acceptWord_ne_fault (fun _ h => by cases h) s
  · exact exec_ne_fault i s f

/-- A register access faults only where the access it carries out does. -/
theorem windowAccess_ne_fault {access : State → Host.Outcome State Fault Refusal} {s : State} {f : Fault}
    (h : access s ≠ .fault f) (offset : BitVec 8) (width : Width) : windowAccess offset width s access ≠ .fault f := by
  rcases windowAccess_cases offset width s access with ⟨_, he⟩ | ⟨_, _, _, he⟩ <;> rw [he]
  · simp
  · exact h

theorem registerWrite_ne_fault (offset : BitVec 8) (v : Word) (s : State) (f : Fault) :
    registerWrite offset v s ≠ .fault f := by
  unfold registerWrite
  split
  · exact writeCmd_ne_fault v s f
  · simp

theorem memoryAccess_ne_fault (a : Word) (s : State) (access : State → State) (f : Fault) :
    memoryAccess a s access ≠ .fault f := by
  rcases memoryAccess_cases a s access with ⟨_, he⟩ | ⟨_, he⟩ <;> simp [he]

theorem hostStep_ne_fault (op : HostOp) (s : State) (f : Fault) : hostStep op s ≠ .fault f := by
  cases op with
  | regRead offset width =>
    rw [hostStep_regRead]
    exact windowAccess_ne_fault (by simp) offset width
  | regWrite offset width v => exact windowAccess_ne_fault (registerWrite_ne_fault offset v s f) offset width
  | wait =>
    rw [hostStep_wait]
    exact windowAccess_ne_fault (by simp) 0x04 .word
  | memRead a => exact memoryAccess_ne_fault a s _ f
  | memWrite a v => exact memoryAccess_ne_fault a s _ f
  | assertReset => simp [hostStep_assertReset]
  | releaseReset => simp [hostStep_releaseReset]

/-- The transfer of a pair of a command with operands in order stays inside the space. -/
theorem transferPair_ne_fault {p : Platform} {r : Running} (ho : operandsOk p r = true) {t : Nat} (ht : t < pairTotal r)
    (s : State) (f : Fault) : transferPair t r s ≠ .fault f := by
  obtain ⟨hsrc, hdst⟩ := pair_lt_space ho ht
  rcases transferPair_cases t r s with ⟨a, hle, ha, _⟩ | ⟨a, d, _, _, _, he⟩ | ⟨_, _, _, _, he⟩
  · rcases ha with rfl | rfl <;> omega
  · simp [he]
  · simp [he]

theorem engineStep_ne_fault {s : State} (hi : s.Inv) (f : Fault) : engineStep s ≠ .fault f := by
  cases hr : s.run with
  | none => simp [engineStep_idle hr]
  | some r =>
    obtain ⟨ho, hp, _⟩ := (runningOk_iff _ r).1 (inv_runningOk hi hr)
    rw [engineStep_running hr hp]
    exact transferPair_ne_fault ho (pickPair_free hp s).2 _ f

/-- Settles O51: the engine picks a pair of a command in order, whose addresses are in the space, and no operation of the host faults. -/
theorem noAccessLeavesTheSpace : Obligations.NoAccessLeavesTheSpace := by
  intro s f hi
  rcases step_cases s with ⟨_, hs⟩ | ⟨_, _, hs⟩ | ⟨op, _, hs⟩ <;> rw [hs]
  · exact engineStep_ne_fault (inv_turnTaken hi) f
  · simp
  · exact hostStep_ne_fault op _ f

end Sys2Proof.Machine
end

section
/-! The operand checks in terms of shared addresses, and the refusals of 20_memory R51 and R57. -/

namespace Sys2Proof.Machine

open Sys2Proof Sys2Proof.Config

/-- The interval test says whether two regions share an address (42_transform_engine R121). -/
theorem intersects_iff_shareAddress (q r : Region) : intersects q r = true ↔ shareAddress q r := by
  constructor
  · intro h
    simp only [intersects, Bool.and_eq_true, decide_eq_true_eq] at h
    unfold regionEnd at h
    obtain ⟨⟨⟨hq, hr⟩, hqr⟩, hrq⟩ := h
    exact ⟨max q.base r.base, by omega, by omega, by omega, by omega⟩
  · rintro ⟨a, hq, hq', hr, hr'⟩
    exact intersects_of_share ((inRegion_iff q a).2 ⟨hq, hq'⟩) ((inRegion_iff r a).2 ⟨hr, hr'⟩)

theorem intersects_eq_false_iff (q r : Region) : intersects q r = false ↔ ¬ shareAddress q r := by
  rw [← intersects_iff_shareAddress, Bool.not_eq_true]

/-- The overlap check lets a command through exactly when its regions are apart as it asks. -/
theorem overlapForbidden_eq_false (op : BufferOp) (d : DType) (s : State) :
    overlapForbidden op d s = false ↔ commandApart op d s := by
  cases op with
  | forward => simp only [overlapForbidden, commandApart, anyIntersect_eq_false, intersects_eq_false_iff]
  | inverse =>
    simp only [overlapForbidden, commandApart, List.any_eq_false, Bool.not_eq_true, intersects_eq_false_iff]

/-- The operand checks let a command through exactly when its length is that of its elements and its regions fit the space and are
apart (42_transform_engine R120). -/
theorem operandCheck_eq_none_iff (op : BufferOp) (d : DType) (s : State) :
    operandCheck op d s = none
      ↔ s.count.toNat * elemBytes d = s.len.toNat ∧ commandFits d s ∧ commandApart op d s := by
  rw [operandCheck_eq_none, overlapForbidden_eq_false]
  rfl

theorem startBuffer_over_window {op : BufferOp} {d : DType} {s : State} (hc : operandCheck op d s = none) (h0 : s.count ≠ 0)
    (hw : ∃ q ∈ commandRegions d s, shareAddress (window s.platform) q) :
    startBuffer op d s = .refused .regionOverWindow := by
  obtain ⟨q, hq, hshare⟩ := hw
  have hany : (commandRegions d s).any (intersects (window s.platform)) = true :=
    List.any_eq_true.2 ⟨q, hq, (intersects_iff_shareAddress _ _).2 hshare⟩
  simp only [startBuffer, hc, if_neg h0, if_pos hany]

theorem startBuffer_with_side_effects {op : BufferOp} {d : DType} {s : State} (hc : operandCheck op d s = none)
    (h0 : s.count ≠ 0) (hw : ∀ q ∈ commandRegions d s, ¬ shareAddress (window s.platform) q)
    (hd : ∃ q ∈ commandRegions d s, ∃ v ∈ s.platform.devices, shareAddress q v) :
    startBuffer op d s = .refused .regionWithSideEffects := by
  obtain ⟨q, hq, v, hv, hshare⟩ := hd
  have hwin : ¬ (commandRegions d s).any (intersects (window s.platform)) = true := by
    rw [List.any_eq_true]
    rintro ⟨x, hx, h⟩
    exact hw x hx ((intersects_iff_shareAddress _ _).1 h)
  have hdev : (commandRegions d s).any (fun r => s.platform.devices.any (intersects r)) = true :=
    List.any_eq_true.2 ⟨q, hq, List.any_eq_true.2 ⟨v, hv, (intersects_iff_shareAddress _ _).2 hshare⟩⟩
  simp only [startBuffer, hc, if_neg h0, if_neg hwin, if_pos hdev]

/-- Settles O22: the checks pass, CMD is no operand, and the window is asked before memory with side effects. -/
theorem regionsOffPlainMemoryAreRefused : Obligations.RegionsOffPlainMemoryAreRefused := by
  intro op d s hb hlen hpos hfit hapart
  have hc := (operandCheck_eq_none_iff op d s).2 ⟨hlen, hfit, hapart⟩
  have h0 : s.count ≠ 0 := by
    intro h
    simp [h] at hpos
  rw [exec_bufferCommand, acceptWord_idle _ _ hb]
  exact ⟨fun hw => startBuffer_over_window (by simpa using hc) h0 (by simpa using hw),
    fun hw hd => startBuffer_with_side_effects (by simpa using hc) h0 (by simpa using hw) (by simpa using hd)⟩

end Sys2Proof.Machine
end

section
/-! What the engine writes to memory: a destination byte of its pair and, at the end of a command, the raced bytes
(20_memory R63, R69). -/

namespace Sys2Proof.Machine

open Sys2Proof Sys2Proof.Config

/-- No source byte of a command is a destination of it. -/
theorem isDestination_of_isSource {r : Running} (h : regionsApart r = true) {a : Nat} (ha : isSource r a = true) :
    isDestination r a = false := by
  obtain ⟨t, ht, rfl⟩ := (isSource_iff r a).1 ha
  by_contra hc
  obtain ⟨x, hx, he⟩ := (isDestination_iff r _).1 (Bool.not_eq_false _ ▸ hc)
  exact pairSrc_ne_pairDst h ht hx he.symm

/-- Settling races leaves every byte that is no destination. -/
theorem readByte_settleRaces_of_not_destination (cutShort : Bool) {r : Running} {a : Nat} (h : isDestination r a = false)
    (s : State) : readByte (settleRaces cutShort r s).mem a = readByte s.mem a := by
  refine (readByte_settleRaces cutShort r s a).1 fun hraced => ?_
  cases h.symm.trans (racedBytes_isDestination hraced)

/-- The transfer of a pair leaves every byte that is no destination. -/
theorem readByte_transferPair_of_not_destination {t : Nat} {r : Running} {s u : State} (ht : t < pairTotal r)
    (h : transferPair t r s = .next u) {a : Nat} (ha : isDestination r a = false) : readByte u.mem a = readByte s.mem a := by
  have hne : a ≠ pairDst r t := by
    rintro rfl
    cases ha.symm.trans ((isDestination_iff r _).2 ⟨t, ht, rfl⟩)
  rcases transferPair_cases t r s with ⟨x, _, _, he⟩ | ⟨x, d, _, _, _, he⟩ | ⟨_, _, _, _, he⟩ <;> rw [he] at h <;> cases h
  · exact readByte_settleRaces_of_not_destination true ha (s.addDraws 2)
  · have hw := readByte_writeByte_other s.mem (engineRead (pairSrc r t) s) hne
    rcases completePair_cases t (engineRead (pairSrc r t) s) r s with ⟨_, hc⟩ | ⟨_, hc⟩ <;> rw [hc]
    · exact hw
    · exact (readByte_settleRaces_of_not_destination false (r := withPair r t) ha _).trans hw

/-- All but memory, the hidden state, the ended commands, STATUS, ERRADDR and the count of draws is as it was. -/
theorem engineFrame.eq_update {s u : State} (h : engineFrame s u) :
    u = { s with
      mem := u.mem, run := u.run, unseen := u.unseen, status := u.status, errAddr := u.errAddr, draws := u.draws } := by
  obtain ⟨m, r, l, st, e, n, rfl⟩ := h
  rfl

/-- Settles O27: the engine transfers a pair of the command, with the engine's frame. -/
theorem engineWritesOnlyDestinations : Obligations.EngineWritesOnlyDestinations := by
  intro s u r hi hr ha h
  have hok := inv_runningOk hi hr
  have hp := ((runningOk_iff _ r).1 hok).2.1
  rw [step_of_engine ha] at h
  have hframe := (engineStep_frame h).eq_update
  rw [engineStep_running (s := turnTaken s) hr hp] at h
  have hmem : ∀ a, isDestination r a = false → readByte u.mem a = readByte s.mem a := fun a =>
    readByte_transferPair_of_not_destination (pickPair_free hp _).2 h
  exact ⟨hmem, fun a hsrc => hmem a (isDestination_of_isSource (regionsApart_of_runningOk hok) hsrc), hframe⟩

/-- Settles O38: one pair alone writes the byte, and its source byte has held only the value it had at acceptance. -/
theorem withoutARaceTheFinalValueIsOne : Obligations.WithoutARaceTheFinalValueIsOne := by
  intro p r t hok hw ht v
  have hheld : ∀ a, heldValues r a = [readByte r.before a] := fun a => by simp [heldValues, hostValues, hw]
  have hown : hostValues r (pairDst r t) = [] := by simp [hostValues, hw]
  rw [finalValues, hown, List.append_nil, List.mem_flatMap]
  constructor
  · rintro ⟨x, hx, hv⟩
    obtain ⟨hxt, he⟩ := (mem_pairsWriting r _ x).1 hx
    rw [pairDst_injective (regionsApart_of_runningOk hok) hxt ht he, hheld] at hv
    exact List.mem_singleton.1 hv
  · rintro rfl
    exact ⟨t, (mem_pairsWriting r _ t).2 ⟨ht, rfl⟩, by simp [hheld]⟩

/-- The last pair of a command ends it. -/
theorem completePair_last {t : Nat} {r : Running} (hfree : t ∉ r.done) (hlast : r.done.length + 1 = pairTotal r) (v : Byte)
    (s : State) : completePair t v r s = endCommand (withPair r t)
      (((s.setMem (writeByte s.mem (pairDst r t) v)).setRun (some (withPair r t))).addDraws 1) := by
  have hlen : (withPair r t).done.length = pairTotal r := (length_addPair hfree).trans hlast
  rcases completePair_cases t v r s with ⟨hne, _⟩ | ⟨_, he⟩
  · exact absurd hlen hne
  · exact he

/-- What memory reads after the last pair of a command: a raced byte holds one of its final values, and any other is as the pair's write
leaves it. -/
theorem readByte_completePair_last {t : Nat} {r : Running} (hfree : t ∉ r.done) (hlast : r.done.length + 1 = pairTotal r)
    (v : Byte) (s : State) (a : Nat) :
    (a ∈ racedBytes r → readByte (completePair t v r s).mem a ∈ finalValues r a)
    ∧ (a ∉ racedBytes r → readByte (completePair t v r s).mem a = readByte (writeByte s.mem (pairDst r t) v) a) := by
  rw [completePair_last hfree hlast]
  obtain ⟨hother, hraced⟩ := readByte_settleRaces false (withPair r t)
    (((s.setMem (writeByte s.mem (pairDst r t) v)).setRun (some (withPair r t))).addDraws 1) a
  exact ⟨fun h => hraced h (settleValues_ne_nil false (r := withPair r t) (racedBytes_isDestination h)), hother⟩

/-- Settles O39: the last pair's byte is written, and then each raced byte is settled among its final values. -/
theorem racingWritesAreSettledAtTheEnd : Obligations.RacingWritesAreSettledAtTheEnd := by
  intro s r hi hr ha hlast t hread hwrite
  have hok := inv_runningOk hi hr
  have hp := ((runningOk_iff _ r).1 hok).2.1
  obtain ⟨hfree, ht⟩ := pickPair_free hp (turnTaken s)
  have hmem := readByte_completePair_last hfree hlast (engineRead (pairSrc r t) ((turnTaken s).addDraws 1))
    ((turnTaken s).addDraws 1)
  refine ⟨_, ?_, ?_, ?_, fun a => (hmem a).1, fun a hraced hne => ?_, fun hraced hcoh => ?_⟩
  · rw [step_of_engine ha, engineStep_running (s := turnTaken s) hr hp]
    exact transferPair_of_admitted (s := (turnTaken s).addDraws 1) hok ht hread hwrite
  · rw [completePair_last hfree hlast]
    rfl
  · rw [completePair_last hfree hlast]
    rfl
  · exact ((hmem a).2 hraced).trans (readByte_writeByte_other _ _ hne)
  · exact ((hmem _).2 hraced).trans ((readByte_writeByte_same _ _ _).trans (if_pos hcoh))

end Sys2Proof.Machine
end

section
/-! The host's memory accesses, one byte each, outside the register window (20_memory R50, R63, R67). -/

namespace Sys2Proof.Machine

open Sys2Proof Sys2Proof.Config

/-- A memory access outside the register window is carried out. -/
theorem memoryAccess_outside {a : Word} {s : State} (f : State → State) (ha : inRegion (window s.platform) a.toNat = false) :
    memoryAccess a s f = .next (f s) := by
  simp [memoryAccess, ha]

theorem step_of_memRead {s : State} {a : Word} (h : aboutTo (.memRead a) s)
    (ha : inRegion (window s.platform) a.toNat = false) : step s = .next (hostMemRead a.toNat (popped s)) := by
  rw [step_of_aboutTo h, hostStep_memRead, memoryAccess_outside _ (by exact ha)]

theorem step_of_memWrite {s : State} {a : Word} {v : Byte} (h : aboutTo (.memWrite a v) s)
    (ha : inRegion (window s.platform) a.toNat = false) : step s = .next (hostMemWrite a.toNat v (popped s)) := by
  rw [step_of_aboutTo h, hostStep_memWrite, memoryAccess_outside _ (by exact ha)]

theorem mem_owners_popped (s : State) (r : Running) : r ∈ owners (popped s) ↔ s.run = some r ∨ r ∈ s.unseen :=
  mem_owners (popped s) r

/-- On a coherent platform a byte that is no destination of an owner is read as memory holds it. -/
theorem step_of_memRead_plain {s : State} {a : Word} (h : aboutTo (.memRead a) s)
    (ha : inRegion (window s.platform) a.toNat = false) (hc : s.platform.memCoherent = true)
    (hout : ∀ r, s.run = some r ∨ r ∈ s.unseen → isDestination r a.toNat = false) :
    step s = .next { popped s with reply := some (.byte (readByte s.mem a.toNat)) } := by
  have hplain := (hostMemRead_of_coherent (a := a.toNat) (s := popped s) hc).1
  rw [step_of_memRead h ha, hplain fun r hr => hout r ((mem_owners_popped s r).1 hr)]
  rfl

/-- Settles O37: a read of an owner's destination byte draws among its value before the command and its final values, and any other
read is plain. -/
theorem racingReadDrawsOldOrFinal : Obligations.RacingReadDrawsOldOrFinal := by
  intro s a h hc ha _
  refine ⟨fun ⟨r, hr, hd⟩ => ?_, step_of_memRead_plain h ha hc⟩
  obtain ⟨v, hv, hread⟩ := (hostMemRead_of_coherent (s := popped s) hc).2 ⟨r, (mem_owners_popped s r).2 hr, hd⟩
  obtain ⟨q, hq, hqd, hval⟩ := (mem_racedReadValues _ _ v).1 hv
  exact ⟨v, q, (mem_owners_popped s q).1 hq, hqd, by rw [step_of_memRead h ha, hread]; rfl, hval⟩

/-- A host read where memory is not coherent is a draw. -/
theorem hostMemRead_of_not_coherent {s : State} (a : Nat) (hc : s.platform.memCoherent = false) :
    hostMemRead a s = (s.setReply (.byte (BitVec.ofNat 8 (drawAt s 0)))).addDraws 1 :=
  if_pos hc

/-- Settles O45: a draw where memory is not coherent, and otherwise the one byte that no owner's regions hold. -/
theorem hostMemoryAccessesArePlainWhileIdle : Obligations.HostMemoryAccessesArePlainWhileIdle := by
  intro s a ha _
  refine ⟨fun h hc => ?_, fun hout => ?_⟩
  · rw [step_of_memRead h ha, hostMemRead_of_not_coherent (s := popped s) _ hc]
    rfl
  have houtside : ∀ r, s.run = some r ∨ r ∈ s.unseen → isDestination r a.toNat = false ∧ isSource r a.toNat = false :=
    fun r hr => outside_regions (hout r hr)
  refine ⟨fun h hc => step_of_memRead_plain h ha hc fun r hr => (houtside r hr).1, fun v h => ?_⟩
  have hwrite : hostMemWrite a.toNat v (popped s) = (popped s).setMem (writeByte s.mem a.toNat v) :=
    hostMemWrite_plain v fun r hr => houtside r ((mem_owners_popped s r).1 hr)
  exact ⟨_, step_of_memWrite h ha, by rw [hwrite]; rfl, by rw [hwrite]; exact readByte_writeByte_same _ _ _,
    fun b hb => by rw [hwrite]; exact readByte_writeByte_other _ _ hb⟩

/-- While a command runs, a write outside the regions of the commands that have ended writes its byte and is noted by the running
command alone, if it falls in its regions. -/
theorem putByte_running {a : Nat} (v : Byte) {s : State} {r : Running} (hr : s.run = some r)
    (h : ∀ x ∈ s.unseen, isDestination x a = false ∧ isSource x a = false) :
    putByte a v s = (s.setMem (writeByte s.mem a v)).setRun (some (noteWrite a v r)) := by
  rw [putByte, map_noteWrite_of_outside v h, hr]
  rfl

/-- Settles O58: the byte is written, and the running command notes the write if it falls in its regions. -/
theorem hostWritesWhileACommandRuns : Obligations.HostWritesWhileACommandRuns := by
  intro s r a v h hr ha _ hout
  have hunseen : ∀ x ∈ s.unseen, isDestination x a.toNat = false ∧ isSource x a.toNat = false :=
    fun x hx => outside_regions (hout x hx)
  have hwrite : hostMemWrite a.toNat v (popped s)
      = ((popped s).setMem (writeByte s.mem a.toNat v)).setRun (some (noteWrite a.toNat v r)) :=
    (hostMemWrite_of_not_late (s := popped s) v hunseen).trans (putByte_running v hr hunseen)
  refine ⟨_, step_of_memWrite h ha, ?_, fun b hb => ?_, fun hoff => ?_, fun hin => ?_⟩ <;> rw [hwrite]
  · exact readByte_writeByte_same s.mem a.toNat v
  · exact readByte_writeByte_other s.mem v hb
  · obtain ⟨hd, hs⟩ := outside_regions hoff
    rw [noteWrite_of_outside v hd hs, ← hr]
    rfl
  · have hnote : noteWrite a.toNat v r = { r with hostWrites := (a.toNat, v) :: r.hostWrites } :=
      if_pos (by simpa using (destination_or_source_iff r a.toNat).2 hin)
    rw [hnote]
    rfl

end Sys2Proof.Machine
end

section
/-! A host that keeps its duties makes no race (20_memory R68, 70_reset_and_hazards R175, R176): every step but its memory writes
leaves the notes of the owners as they are, or takes owners away, or adds one with no note. -/

namespace Sys2Proof.Machine

open Sys2Proof Sys2Proof.Config

theorem noRace_iff (s : State) : noRace s = true ↔ ∀ r ∈ owners s, r.hostWrites = [] := by
  simp [noRace]

/-- Each owner in u has the notes of some owner in s, or none. -/
theorem noRace_of_owners {s u : State} (hs : noRace s = true)
    (h : ∀ q ∈ owners u, q.hostWrites = [] ∨ ∃ r ∈ owners s, q.hostWrites = r.hostWrites) : noRace u = true := by
  rw [noRace_iff] at hs ⊢
  intro q hq
  rcases h q hq with h0 | ⟨r, hr, he⟩
  · exact h0
  · exact he.trans (hs r hr)

/-- An update that keeps the hidden state and adds no ended command makes no race. -/
theorem noRace_of_run_eq {s u : State} (hs : noRace s = true) (hr : u.run = s.run) (hu : u.unseen ⊆ s.unseen) :
    noRace u = true := by
  refine noRace_of_owners hs fun q hq => .inr ⟨q, ?_, rfl⟩
  rw [mem_owners] at hq ⊢
  rw [hr] at hq
  exact hq.imp_right fun h => hu h

theorem noRace_of_no_owners {u : State} (hr : u.run = none) (hu : u.unseen = []) : noRace u = true := by
  simp [noRace, owners, hr, hu]

/-- A step that starts or goes on with a command with no note makes no race. -/
theorem noRace_of_run_unnoted {s u : State} {q : Running} (hs : noRace s = true) (hr : u.run = some q) (hq : q.hostWrites = [])
    (hu : u.unseen = s.unseen) : noRace u = true := by
  refine noRace_of_owners hs fun x hx => ?_
  rw [mem_owners, hr, hu] at hx
  rcases hx with hx | hx
  · cases hx
    exact .inl hq
  · exact .inr ⟨x, (mem_owners s x).2 (.inr hx), rfl⟩

/-- A command that ends with no note makes no race. -/
theorem noRace_of_ended {s u : State} {q : Running} (hs : noRace s = true) (hr : u.run = none) (hq : q.hostWrites = [])
    (hu : u.unseen = q :: s.unseen) : noRace u = true := by
  refine noRace_of_owners hs fun x hx => ?_
  rw [mem_owners, hr, hu] at hx
  rcases hx with hx | hx
  · cases hx
  · rcases List.mem_cons.1 hx with rfl | hx
    · exact .inl hq
    · exact .inr ⟨x, (mem_owners s x).2 (.inr hx), rfl⟩

theorem transferPair_noRace {t : Nat} {r : Running} {s u : State} (hs : noRace s = true) (hr : s.run = some r)
    (h : transferPair t r s = .next u) : noRace u = true := by
  have hnotes : r.hostWrites = [] := (noRace_iff s).1 hs r ((mem_owners s r).2 (.inl hr))
  rcases transferPair_cases t r s with ⟨a, _, _, he⟩ | ⟨a, d, _, _, _, he⟩ | ⟨_, _, _, _, he⟩ <;> rw [he] at h <;> cases h
  · exact noRace_of_ended (q := forget r) hs rfl hnotes (raiseBusError_unseen a d r s)
  · rcases completePair_cases t (engineRead (pairSrc r t) s) r s with ⟨_, hc⟩ | ⟨_, hc⟩ <;> rw [hc]
    · exact noRace_of_run_unnoted (q := withPair r t) hs rfl hnotes rfl
    · exact noRace_of_ended (q := forget (withPair r t)) hs rfl hnotes (endCommand_unseen _ _)

theorem engineStep_noRace {s u : State} (hi : s.Inv) (hs : noRace s = true) (h : engineStep s = .next u) :
    noRace u = true := by
  cases hr : s.run with
  | none =>
    rw [engineStep_idle hr] at h
    cases h
    exact hs
  | some r =>
    have hp := ((runningOk_iff _ r).1 (inv_runningOk hi hr)).2.1
    rw [engineStep_running hr hp] at h
    exact transferPair_noRace (s := s.addDraws 1) hs hr h

theorem startBuffer_noRace {op : BufferOp} {d : DType} {s u : State} (hs : noRace s = true)
    (h : startBuffer op d s = .next u) : noRace u = true := by
  rcases startBuffer_cases op d s with ⟨_, _, he⟩ | ⟨_, _, he⟩ | ⟨_, he⟩ | ⟨_, _, _, _, he⟩ <;> rw [he] at h <;> cases h
  · exact hs
  · exact hs
  · exact noRace_of_run_unnoted (q := latch op d s) hs rfl rfl rfl

/-- A CMD write makes no race: it is ignored, or ends in its step, or starts a command with no note. -/
theorem writeCmd_noRace {w : Word} {s u : State} (hs : noRace s = true) (h : writeCmd w s = .next u) : noRace u = true := by
  cases hb : busy s with
  | true =>
    rw [writeCmd_of_busy w hb] at h
    cases h
    exact hs
  | false =>
    rcases writeCmd_cases w s with ⟨c, _, he⟩ | ⟨i, _, he⟩ <;> rw [he] at h
    · rw [rejectWord_idle _ _ hb] at h
      cases h
      exact hs
    · rcases instr_cases i with hel | ⟨op, d, rfl⟩
      · rcases exec_element_cases hel s with ⟨_, he⟩ | ⟨_, p, v, he, _⟩ <;> cases h.symm.trans he <;> exact hs
      · rw [exec_bufferCommand, acceptWord_idle _ _ hb] at h
        exact startBuffer_noRace (s := s.setCmd (encode (bufferCommand op d))) hs h

theorem writeRegister_noRace {s : State} (hs : noRace s = true) (offset : BitVec 8) (v : Word) :
    noRace (writeRegister s offset v) = true := by
  obtain ⟨e, p, c, l, b, p0, p1, p2, p3, h, _⟩ := writeRegister_frame s offset v
  rw [h]
  exact hs

theorem hostRegRead_noRace {s : State} (hs : noRace s = true) (offset : BitVec 8) :
    noRace (hostRegRead offset s) = true := by
  rcases hostRegRead_cases offset s with ⟨_, h⟩ | ⟨_, _, h⟩ <;> rw [h]
  · exact hs
  · exact noRace_of_run_eq hs rfl (List.nil_subset _)

theorem pollStatus_noRace {s : State} (hs : noRace s = true) : noRace (pollStatus s) = true := by
  rcases pollStatus_cases s with ⟨_, h⟩ | ⟨_, h⟩ <;> rw [h]
  · exact noRace_of_run_eq hs rfl (List.nil_subset _)
  · exact hs

theorem hostMemRead_noRace {s : State} (hs : noRace s = true) (a : Nat) : noRace (hostMemRead a s) = true := by
  obtain ⟨v, n, h⟩ := hostMemRead_cases a s
  rw [h]
  exact hs

/-- The duty of 20_memory R68 that the statement turns on: a write into no owner's region is noted by none. -/
theorem hostMemWrite_noRace {s : State} (hs : noRace s = true) {a : Word} {v : Byte}
    (h : hostConforms s (.memWrite a v) = true) : noRace (hostMemWrite a.toNat v s) = true := by
  have hout : ∀ r ∈ owners s, isDestination r a.toNat = false ∧ isSource r a.toNat = false := by
    simpa [hostConforms] using h
  rw [hostMemWrite_plain v hout]
  exact hs

theorem assertReset_noRace (s : State) : noRace (assertReset s) = true := noRace_of_no_owners rfl rfl

theorem releaseReset_noRace {s : State} (hs : noRace s = true) : noRace (releaseReset s) = true := by
  rcases releaseReset_cases s with ⟨_, h⟩ | ⟨_, h⟩ <;> rw [h]
  · exact hs
  · exact noRace_of_no_owners rfl rfl

theorem hostStep_noRace {op : HostOp} {s u : State} (hs : noRace s = true) (hc : hostConforms s op = true)
    (h : hostStep op s = .next u) : noRace u = true := by
  rcases hostStep_next_cases h with
    ⟨offset, _, _, rfl⟩ | ⟨_, _, rfl⟩ | ⟨w, _, _, hw⟩ | ⟨offset, w, _, _, _, rfl⟩ | ⟨a, _, rfl⟩ | ⟨a, v, rfl, rfl⟩
      | ⟨_, rfl⟩ | ⟨_, rfl⟩
  · exact hostRegRead_noRace hs offset
  · exact pollStatus_noRace hs
  · exact writeCmd_noRace hs hw
  · exact writeRegister_noRace hs offset w
  · exact hostMemRead_noRace hs a.toNat
  · exact hostMemWrite_noRace hs hc
  · exact assertReset_noRace s
  · exact releaseReset_noRace hs

/-- Settles O40: the engine's notes are those of the command, and a conforming host's memory writes are noted by no owner. -/
theorem conformingHostMakesNoRace : Obligations.ConformingHostMakesNoRace := by
  intro s t hi hs hconf h
  rcases step_cases s with ⟨_, he⟩ | ⟨_, _, he⟩ | ⟨op, ho, he⟩ <;> rw [he] at h
  · exact engineStep_noRace (inv_turnTaken hi) hs h
  · cases h
    exact hs
  · have hc : hostConforms (popped s) op = hostConforms s op := by cases op <;> rfl
    exact hostStep_noRace (s := popped s) hs (hc.trans (hconf op ho)) h

end Sys2Proof.Machine
end

section
/-! The decoder and the encoder: the fields of a word as numbers, the checks on them in their order, and what a CMD write of a
command's word and of any other word does (30_encoding R71 to R78). -/

namespace Sys2Proof

/-! The fields as numbers (30_encoding R71). -/

@[simp] theorem fieldsOf_op_toNat (w : Word) : (fieldsOf w).op.toNat = w.toNat % 16 := by
  simp [fieldsOf]

@[simp] theorem fieldsOf_dt_toNat (w : Word) : (fieldsOf w).dt.toNat = w.toNat / 16 % 4 := by
  simp [fieldsOf, Nat.shiftRight_eq_div_pow]

@[simp] theorem fieldsOf_fld_toNat (w : Word) : (fieldsOf w).fld.toNat = w.toNat / 64 % 4 := by
  simp [fieldsOf, Nat.shiftRight_eq_div_pow]

/-- The reserved field reaches the top of the word. -/
@[simp] theorem fieldsOf_rsvd_toNat (w : Word) : (fieldsOf w).rsvd.toNat = w.toNat / 256 := by
  have hw : w.toNat / 256 < 2 ^ 24 := by omega
  simpa [fieldsOf, Nat.shiftRight_eq_div_pow] using hw

/-! The checks as conditions on those numbers (30_encoding R72 to R74). -/

theorem opOk_iff (w : Word) : (fieldsOf w).opOk = true ↔ 1 ≤ w.toNat % 16 ∧ w.toNat % 16 ≤ 5 := by
  simp only [Fields.opOk, Bool.or_eq_true, beq_iff_eq, ← BitVec.toNat_inj, fieldsOf_op_toNat, BitVec.toNat_ofNat]
  omega

theorem rsvdOk_iff (w : Word) :
    (fieldsOf w).rsvdOk = true ↔ w.toNat / 256 = 0 ∧ (w.toNat % 16 = 3 ∨ w.toNat / 64 % 4 = 0) := by
  simp [Fields.rsvdOk, ← BitVec.toNat_inj]

theorem dtOk_iff (w : Word) : (fieldsOf w).dtOk = true ↔ w.toNat / 16 % 4 = 1 ∨ w.toNat / 16 % 4 = 2 := by
  simp [Fields.dtOk, ← BitVec.toNat_inj]

theorem fldOk_iff (w : Word) : (fieldsOf w).fldOk = true ↔ w.toNat % 16 ≠ 3 ∨ w.toNat / 64 % 4 ≠ 3 := by
  simp [Fields.fldOk, ← BitVec.toNat_inj]

/-! Decoding and encoding (30_encoding R76, R78). -/

theorem decode_badOp {w : Word} (hop : (fieldsOf w).opOk = false) : decode w = .error .badOp := by
  simp [decode, hop]

theorem decode_rsvdBits {w : Word} (hop : (fieldsOf w).opOk = true) (hrsvd : (fieldsOf w).rsvdOk = false) :
    decode w = .error .rsvdBits := by
  simp [decode, hop, hrsvd]

theorem decode_badDtype {w : Word} (hop : (fieldsOf w).opOk = true) (hrsvd : (fieldsOf w).rsvdOk = true)
    (hdt : (fieldsOf w).dtOk = false) : decode w = .error .badDtype := by
  simp [decode, hop, hrsvd, hdt]

theorem decode_badField {w : Word} (hop : (fieldsOf w).opOk = true) (hrsvd : (fieldsOf w).rsvdOk = true)
    (hdt : (fieldsOf w).dtOk = true) (hfld : (fieldsOf w).fldOk = false) : decode w = .error .badField := by
  simp [decode, hop, hrsvd, hdt, hfld]

/-- A word with a command's fields decodes to it. -/
theorem decode_of_fields {w : Word} {i : Instr} (h : fieldsOf w = encodeFields i) : decode w = .ok i := by
  have hok := encodeFields_wellFormed i
  simp only [Fields.wellFormed, Bool.and_eq_true] at hok
  obtain ⟨⟨⟨hop, hrsvd⟩, hdt⟩, hfld⟩ := hok
  simp [decode, h, hop, hrsvd, hdt, hfld, commandOf_encodeFields]

/-- A word that passes every check has a command's fields, and decodes to it. -/
theorem decode_of_checks {w : Word} (hop : (fieldsOf w).opOk = true) (hrsvd : (fieldsOf w).rsvdOk = true)
    (hdt : (fieldsOf w).dtOk = true) (hfld : (fieldsOf w).fldOk = true) : ∃ i, decode w = .ok i := by
  obtain ⟨i, _, hf⟩ := commandOf_of_wellFormed (f := fieldsOf w) (by simp [Fields.wellFormed, hop, hrsvd, hdt, hfld])
  exact ⟨i, decode_of_fields hf⟩

theorem decode_encode (i : Instr) : decode (encode i) = .ok i := decode_of_fields (fieldsOf_wordOf _)

theorem decode_eq_ok_iff (w : Word) (i : Instr) : decode w = .ok i ↔ w = encode i :=
  ⟨Machine.eq_encode_of_decode, fun h => h ▸ decode_encode i⟩

end Sys2Proof

namespace Sys2Proof.Machine

open Sys2Proof Sys2Proof.Config

/-! CMD writes (10_state R24). -/

/-- A CMD write of a command's word is exec of that command. -/
theorem step_of_command {s : State} {w : Word} {i : Instr} (h : aboutTo (.regWrite 0 .word w) s) (hres : s.inReset = false)
    (hd : decode w = .ok i) : step s = exec i (popped s) := by
  rw [step_of_cmdWrite h hres, writeCmd, hd]

/-- A CMD write while idle of a word that decode rejects (60_exceptions R143). -/
theorem step_of_rejected {s : State} {w : Word} {c : Cause} (h : aboutTo (.regWrite 0 .word w) s) (hres : s.inReset = false)
    (hb : busy s = false) (hd : decode w = .error c) :
    step s = .next { popped s with cmd := w, status := statusInvalidInput c } := by
  rw [step_of_cmdWrite h hres, writeCmd, hd]
  exact rejectWord_idle (s := popped s) w c hb

/-- Settles O1: a command's word has the command's fields, and a word is its fields put together. -/
theorem commandWordsAreExact : Obligations.CommandWordsAreExact :=
  ⟨decode_eq_ok_iff, rfl, rfl, rfl, rfl, rfl, rfl, rfl, rfl, rfl, rfl, rfl, rfl, rfl, rfl⟩

/-- Settles O2: each check is a condition on the numbers, and a word that passes all four is a command's word. -/
theorem decodeReportsTheFirstCheck : Obligations.DecodeReportsTheFirstCheck := by
  intro w op dt fld rsvd
  have hop : 1 ≤ op ∧ op ≤ 5 → (fieldsOf w).opOk = true := (opOk_iff w).2
  have hrsvd : rsvd = 0 ∧ (op = 3 ∨ fld = 0) → (fieldsOf w).rsvdOk = true := (rsvdOk_iff w).2
  have hdt : dt = 1 ∨ dt = 2 → (fieldsOf w).dtOk = true := (dtOk_iff w).2
  have hfld : op ≠ 3 ∨ fld ≠ 3 → (fieldsOf w).fldOk = true := (fldOk_iff w).2
  refine ⟨fun h => decode_badOp ?_, fun h1 h2 => decode_rsvdBits (hop h1) ?_,
    fun h1 h2 h3 h4 => decode_badDtype (hop h1) (hrsvd ⟨h2, h3⟩) ?_,
    fun h1 h2 h3 h4 => decode_badField (hop (by omega)) (hrsvd ⟨h2, .inl h1⟩) (hdt h3) ?_, fun h1 h2 h3 h4 => ?_⟩
  · rw [Bool.eq_false_iff, ne_eq, opOk_iff]
    omega
  · rw [Bool.eq_false_iff, ne_eq, rsvdOk_iff]
    omega
  · rw [Bool.eq_false_iff, ne_eq, dtOk_iff]
    omega
  · rw [Bool.eq_false_iff, ne_eq, fldOk_iff]
    omega
  · obtain ⟨i, hd⟩ := decode_of_checks (hop h1) (hrsvd (by omega)) (hdt h3) (hfld (by omega))
    exact ⟨i, hd, (eq_encode_of_decode hd).symm, fun s h hres _ => step_of_command h hres hd⟩

/-- Settles O7: decode answers a command or a cause, and a command only for that command's word. -/
theorem otherWordsAreInvalid : Obligations.OtherWordsAreInvalid := by
  refine ⟨fun w hw => ?_, rfl⟩
  cases hd : decode w with
  | ok i => exact absurd (eq_encode_of_decode hd) (hw i)
  | error c => exact ⟨c, rfl, fun s h hres hb => step_of_rejected h hres hb hd⟩

/-- Settles O3: six words are encodings of commands, and each of the others fails its check. -/
theorem listedWordsDecode : Obligations.ListedWordsDecode :=
  ⟨decode_encode .split16, decode_encode .join32, decode_encode .fieldMant16, decode_encode .fieldExp32,
    decode_encode .forward32, decode_encode .inverse16, rfl, rfl, rfl, rfl, rfl⟩

/-- Settles O4: a 32-bit write at offset 0 is a CMD write, and its word is decoded. -/
theorem stepRunsTheDecodedCommand : Obligations.StepRunsTheDecodedCommand :=
  fun _ _ _ => step_of_command

end Sys2Proof.Machine
end

section
/-! The element codec: the words that SPLIT and JOIN make, and what an element command writes and leaves alone
(40_element_codec R100 to R107). -/

namespace Sys2Proof.Machine

/-! The words (40_element_codec R100, R102 to R105). -/

theorem planeByte_toNat (w : Word) (p : Nat) : (planeByte w p).toNat = w.toNat / 256 ^ p % 256 := by
  rw [planeByte, BitVec.extractLsb'_toNat, Nat.shiftRight_eq_div_pow, pow_mul]
  rfl

/-- The two low plane bytes put together are the low half of the word. -/
theorem planeBytes_toNat (w : Word) : (planeByte w 1 ++ planeByte w 0).toNat = w.toNat % 2 ^ 16 := by
  rw [toNat_append_add, planeByte_toNat, planeByte_toNat]
  omega

theorem splitWord16_toNat (x : Word) : (splitWord16 x).toNat = x.toNat % 2 ^ 16 := by
  rw [splitWord16, toNat_append_add, planeBytes_toNat]
  simp

theorem joinWord16_toNat (planes : Word) : (joinWord16 planes).toNat = planes.toNat % 2 ^ 16 := by
  rw [joinWord16, BitVec.toNat_setWidth_of_le (by decide), planeBytes_toNat]

theorem splitWord32_eq (x : Word) : splitWord32 x = x := by
  rw [← BitVec.toNat_inj]
  simp only [splitWord32, toNat_append_add, planeByte_toNat]
  omega

theorem joinWord32_eq (planes : Word) : joinWord32 planes = planes := splitWord32_eq planes

/-- A word is `zext_32` of another's low half when it is that number. -/
theorem eq_zextLowHalf {w x : Word} (h : w.toNat = x.toNat % 2 ^ 16) : w = (x.setWidth 16).setWidth 32 := by
  rw [← BitVec.toNat_inj, h, BitVec.toNat_setWidth_of_le (by decide), BitVec.toNat_setWidth]

theorem splitWord16_eq (x : Word) : splitWord16 x = (x.setWidth 16).setWidth 32 := eq_zextLowHalf (splitWord16_toNat x)

theorem joinWord16_eq (planes : Word) : joinWord16 planes = (planes.setWidth 16).setWidth 32 :=
  eq_zextLowHalf (joinWord16_toNat planes)

/-- `zext_32` of the low half, written as a number. -/
theorem zextLowHalf_eq_ofNat (x : Word) : (x.setWidth 16).setWidth 32 = BitVec.ofNat 32 (x.toNat % 2 ^ 16) := by
  rw [← BitVec.toNat_setWidth, BitVec.ofNat_toNat]

/-! The commands while idle (40_element_codec R101). -/

theorem exec_element_idle {i : Instr} (hi : isElementCommand i = true) {s : State} (hb : busy s = false) :
    exec i s = .next ((elementWrite i (s.setCmd (encode i))).setStatus statusDone) := by
  rw [exec_element hi, elementCommand_idle _ _ hb]

theorem exec_split16 {s : State} (hb : busy s = false) :
    exec .split16 s =
      .next { s with cmd := encode .split16, planes := (s.elem.setWidth 16).setWidth 32, status := statusDone } := by
  rw [exec_element_idle rfl hb, ← splitWord16_eq]
  rfl

theorem exec_split32 {s : State} (hb : busy s = false) :
    exec .split32 s = .next { s with cmd := encode .split32, planes := s.elem, status := statusDone } := by
  rw [exec_element_idle rfl hb, elementWrite, splitWord32_eq]
  rfl

theorem exec_join16 {s : State} (hb : busy s = false) :
    exec .join16 s =
      .next { s with cmd := encode .join16, result := (s.planes.setWidth 16).setWidth 32, status := statusDone } := by
  rw [exec_element_idle rfl hb, ← joinWord16_eq]
  rfl

theorem exec_join32 {s : State} (hb : busy s = false) :
    exec .join32 s = .next { s with cmd := encode .join32, result := s.planes, status := statusDone } := by
  rw [exec_element_idle rfl hb, elementWrite, joinWord32_eq]
  rfl

/-- Settles O10: the plane bytes put together are the element, its low half for dtype16. -/
theorem splitWritesThePlaneBytes : Obligations.SplitWritesThePlaneBytes := by
  refine ⟨decode_encode .split16, decode_encode .split32, fun s hb => ⟨?_, exec_split32 hb⟩⟩
  rw [exec_split16 hb, zextLowHalf_eq_ofNat]
  rfl

/-- Settles O11: the element joined from the plane bytes is PLANES, its low half for dtype16. -/
theorem joinRebuildsTheElement : Obligations.JoinRebuildsTheElement := by
  refine ⟨decode_encode .join16, decode_encode .join32, fun s hb => ⟨?_, exec_join32 hb⟩⟩
  rw [exec_join16 hb, zextLowHalf_eq_ofNat]
  rfl

/-- Settles O12: PLANES is the element after split32 and its low half, two bytes, after split16. -/
theorem planeIsTheByteAtItsOffset : Obligations.PlaneIsTheByteAtItsOffset := by
  intro s t p hb
  have hlow : exec .split16 s = .next t → t.planes.toNat = s.elem.toNat % 2 ^ 16 := by
    intro h
    cases (exec_split16 hb).symm.trans h
    rw [← splitWord16_toNat, splitWord16_eq]
  refine ⟨fun h hp => ?_, fun h => ?_, fun h _ => ?_⟩
  · rw [hlow h]
    interval_cases p <;> omega
  · rw [hlow h]
    omega
  · cases (exec_split32 hb).symm.trans h
    rfl

theorem registerWrite_elem (v : Word) (s : State) : registerWrite 0x10 v s = .next (s.setElem v) := rfl

/-- Settles O16: both directions hand the word on unchanged, for dtype16 its low half, of which the low half is itself. -/
theorem elementRoundTrip : Obligations.ElementRoundTrip := by
  intro s hb
  refine ⟨⟨_, _, exec_split16 hb, exec_join16 statusBusyBit_done, ?_⟩,
    ⟨_, _, exec_split32 hb, exec_join32 statusBusyBit_done, rfl⟩,
    ⟨_, _, _, exec_join16 hb, registerWrite_elem _ _, exec_split16 statusBusyBit_done, ?_⟩,
    ⟨_, _, _, exec_join32 hb, registerWrite_elem _ _, exec_split32 statusBusyBit_done, rfl⟩⟩
  · simp
  · simp

/-! What an element command does not read (40_element_codec R107). -/

/-- s with the memory and the buffer commands' operand registers of another state. -/
def State.withBuffersOf (s r : State) : State :=
  { s with
    mem := r.mem, count := r.count, len := r.len, ebuf := r.ebuf, pb0 := r.pb0, pb1 := r.pb1, pb2 := r.pb2,
    pb3 := r.pb3 }

theorem busy_withBuffersOf (s r : State) : busy (s.withBuffersOf r) = busy s := rfl
theorem setCmd_withBuffersOf (s r : State) (w : Word) :
    (s.withBuffersOf r).setCmd w = (s.setCmd w).withBuffersOf r := rfl
theorem setStatus_withBuffersOf (s r : State) (w : Word) :
    (s.withBuffersOf r).setStatus w = (s.setStatus w).withBuffersOf r := rfl

theorem elementWrite_withBuffersOf (i : Instr) (s r : State) :
    elementWrite i (s.withBuffersOf r) = (elementWrite i s).withBuffersOf r := by
  cases i <;> rfl

/-- An element command does the same over any memory and buffer operands, which it leaves as they are. -/
theorem exec_withBuffersOf {i : Instr} {s t : State} (hi : isElementCommand i = true) (h : exec i s = .next t) (r : State) :
    exec i (s.withBuffersOf r) = .next (t.withBuffersOf r) := by
  cases hb : busy s with
  | true =>
    cases (exec_of_busy i hb).symm.trans h
    exact exec_of_busy i ((busy_withBuffersOf s r).trans hb)
  | false =>
    cases (exec_element_idle hi hb).symm.trans h
    rw [exec_element_idle hi ((busy_withBuffersOf s r).trans hb), setCmd_withBuffersOf, elementWrite_withBuffersOf, setStatus_withBuffersOf]

/-- Settles O17: what a command writes is said once for all ten, and over other memory and operands it writes the same. -/
theorem elementCommandsStayInTheirRegisters : Obligations.ElementCommandsStayInTheirRegisters := by
  intro i s t hi h
  have hframe : t = { s with cmd := t.cmd, status := t.status, planes := t.planes, result := t.result }
      ∧ ((i = .split16 ∨ i = .split32) → t.result = s.result)
      ∧ (¬ (i = .split16 ∨ i = .split32) → t.planes = s.planes) := by
    rcases exec_element_cases hi s with ⟨_, he⟩ | ⟨_, p, v, he, hv, hp⟩ <;> cases he.symm.trans h
    · exact ⟨rfl, fun _ => rfl, fun _ => rfl⟩
    · exact ⟨rfl, hv, hp⟩
  obtain ⟨hsame, hresult, hplanes⟩ := hframe
  exact ⟨hsame, hresult, hplanes, fun m c l e p0 p1 p2 p3 => exec_withBuffersOf hi h
    { s with mem := m, count := c, len := l, ebuf := e, pb0 := p0, pb1 := p1, pb2 := p2, pb3 := p3 }⟩

end Sys2Proof.Machine
end

section
/-! The field extractor: what each field is as a number, and the three fields put side by side (41_field_extract R110 to R118). -/

namespace Sys2Proof.Machine

open Sys2Proof.Config

/-! The fields as numbers (41_field_extract R112 to R117). -/

/-- Bits `[lo+w-1:lo]` of a word, zero-extended. -/
theorem zextField_toNat (x : Word) (lo : Nat) {w : Nat} (hw : w ≤ 32) :
    ((x.extractLsb' lo w).setWidth 32).toNat = x.toNat / 2 ^ lo % 2 ^ w := by
  rw [BitVec.toNat_setWidth_of_le hw, BitVec.extractLsb'_toNat, Nat.shiftRight_eq_div_pow]

/-- The same for a field within the low half of the word, where a dtype16 element lies. -/
theorem zextField_toNat_lowHalf (x : Word) (lo : Nat) {w : Nat} (hw : lo + w ≤ 16) :
    ((x.extractLsb' lo w).setWidth 32).toNat = x.toNat % 2 ^ 16 / 2 ^ lo % 2 ^ w := by
  have hlow : x.toNat % 2 ^ 16 / 2 ^ lo = x.toNat / 2 ^ lo % 2 ^ (16 - lo) := by
    rw [← pow_mul_pow_sub 2 (show lo ≤ 16 by omega), Nat.mod_mul_right_div_self]
  rw [zextField_toNat x lo (by omega), hlow, Nat.mod_mod_of_dvd _ (pow_dvd_pow 2 (by omega))]

theorem sign32_toNat (x : Word) : (sign32 x).toNat = x.toNat / 2 ^ 31 := by
  rw [sign32, zextField_toNat x 31 (by decide)]
  omega

theorem exponent32_toNat (x : Word) : (exponent32 x).toNat = x.toNat / 2 ^ 23 % 2 ^ 8 :=
  zextField_toNat x 23 (by decide)

theorem mantissa32_toNat (x : Word) : (mantissa32 x).toNat = x.toNat % 2 ^ 23 := by
  rw [mantissa32, zextField_toNat x 0 (by decide), pow_zero, Nat.div_one]

/-- The width of the mantissa of a dtype16 format (41_field_extract R111). -/
def mantissaBits : F16Fmt → Nat
  | .binary16 => 10
  | .bfloat16 => 7

/-- The width of the exponent of a dtype16 format (41_field_extract R111). -/
def exponentBits : F16Fmt → Nat
  | .binary16 => 5
  | .bfloat16 => 8

theorem sign16_toNat (x : Word) : (sign16 x).toNat = x.toNat % 2 ^ 16 / 2 ^ 15 := by
  rw [sign16, zextField_toNat_lowHalf x 15 (by decide)]
  omega

theorem exponent16_toNat (f : F16Fmt) (x : Word) :
    (exponent16 f x).toNat = x.toNat % 2 ^ 16 / 2 ^ mantissaBits f % 2 ^ exponentBits f := by
  cases f with
  | binary16 => exact zextField_toNat_lowHalf x 10 (by decide)
  | bfloat16 => exact zextField_toNat_lowHalf x 7 (by decide)

theorem mantissa16_toNat (f : F16Fmt) (x : Word) :
    (mantissa16 f x).toNat = x.toNat % 2 ^ 16 % 2 ^ mantissaBits f := by
  rw [← Nat.div_one (x.toNat % 2 ^ 16)]
  cases f with
  | binary16 => exact zextField_toNat_lowHalf x 0 (by decide)
  | bfloat16 => exact zextField_toNat_lowHalf x 0 (by decide)

/-- A word written as its number. -/
theorem eq_ofNat_of_toNat_eq {v : Word} {n : Nat} (h : v.toNat = n) : v = BitVec.ofNat 32 n := by
  rw [← h, BitVec.ofNat_toNat, BitVec.setWidth_eq]

/-! The fields side by side (41_field_extract R118). -/

/-- A number is its top part, the e bits below it and the m bits below those, put side by side. -/
theorem three_fields_add (n m e : Nat) :
    n / 2 ^ (m + e) * 2 ^ (m + e) + n / 2 ^ m % 2 ^ e * 2 ^ m + n % 2 ^ m = n := by
  have hlow : n % 2 ^ (m + e) = n % 2 ^ m + 2 ^ m * (n / 2 ^ m % 2 ^ e) := by rw [pow_add, Nat.mod_mul]
  have hall : n / 2 ^ (m + e) * 2 ^ (m + e) + n % 2 ^ (m + e) = n := Nat.div_add_mod' n (2 ^ (m + e))
  rw [hlow, mul_comm (2 ^ m)] at hall
  omega

theorem fields32_add (x : Word) :
    (sign32 x).toNat * 2 ^ 31 + (exponent32 x).toNat * 2 ^ 23 + (mantissa32 x).toNat = x.toNat := by
  rw [sign32_toNat, exponent32_toNat, mantissa32_toNat]
  exact three_fields_add x.toNat 23 8

/-- In each dtype16 format the sign stands right above the exponent: their widths and the mantissa's make 16. -/
theorem mantissaBits_add_exponentBits (f : F16Fmt) : mantissaBits f + exponentBits f = 15 := by
  cases f <;> rfl

theorem fields16_add (f : F16Fmt) (x : Word) :
    (sign16 x).toNat * 2 ^ 15 + (exponent16 f x).toNat * 2 ^ mantissaBits f + (mantissa16 f x).toNat
      = x.toNat % 2 ^ 16 := by
  rw [sign16_toNat, exponent16_toNat, mantissa16_toNat, ← mantissaBits_add_exponentBits f]
  exact three_fields_add _ _ _

/-! The commands while idle (41_field_extract R110). -/

theorem exec_fieldSign16 {s : State} (hb : busy s = false) :
    exec .fieldSign16 s =
      .next { s with cmd := encode .fieldSign16, result := sign16 s.elem, status := statusDone } :=
  exec_element_idle rfl hb

theorem exec_fieldExp16 {s : State} (hb : busy s = false) :
    exec .fieldExp16 s =
      .next { s with
        cmd := encode .fieldExp16, result := exponent16 s.platform.f16Fmt s.elem, status := statusDone } :=
  exec_element_idle rfl hb

theorem exec_fieldMant16 {s : State} (hb : busy s = false) :
    exec .fieldMant16 s =
      .next { s with
        cmd := encode .fieldMant16, result := mantissa16 s.platform.f16Fmt s.elem, status := statusDone } :=
  exec_element_idle rfl hb

theorem exec_fieldSign32 {s : State} (hb : busy s = false) :
    exec .fieldSign32 s =
      .next { s with cmd := encode .fieldSign32, result := sign32 s.elem, status := statusDone } :=
  exec_element_idle rfl hb

theorem exec_fieldExp32 {s : State} (hb : busy s = false) :
    exec .fieldExp32 s =
      .next { s with cmd := encode .fieldExp32, result := exponent32 s.elem, status := statusDone } :=
  exec_element_idle rfl hb

theorem exec_fieldMant32 {s : State} (hb : busy s = false) :
    exec .fieldMant32 s =
      .next { s with cmd := encode .fieldMant32, result := mantissa32 s.elem, status := statusDone } :=
  exec_element_idle rfl hb

/-- Settles O15: each RESULT is its field, and the fields of a word side by side are the word. -/
theorem fieldsPartitionTheElement : Obligations.FieldsPartitionTheElement := by
  intro s hb
  refine ⟨⟨_, _, _, exec_fieldSign32 hb, exec_fieldExp32 hb, exec_fieldMant32 hb, fields32_add s.elem⟩,
    ⟨_, _, _, exec_fieldSign16 hb, exec_fieldExp16 hb, exec_fieldMant16 hb, ?_⟩⟩
  have hsum := fields16_add s.platform.f16Fmt s.elem
  cases hf : s.platform.f16Fmt <;> rw [hf] at hsum <;> exact hsum

/-- Settles O13: each RESULT is its field, and the field is that number in both formats. -/
theorem fieldsOfDtype16 : Obligations.FieldsOfDtype16 := by
  refine ⟨decode_encode .fieldSign16, decode_encode .fieldExp16, decode_encode .fieldMant16, fun s hb => ?_⟩
  rw [exec_fieldSign16 hb, exec_fieldExp16 hb, exec_fieldMant16 hb, eq_ofNat_of_toNat_eq (sign16_toNat _),
    eq_ofNat_of_toNat_eq (exponent16_toNat _ _), eq_ofNat_of_toNat_eq (mantissa16_toNat _ _)]
  cases s.platform.f16Fmt <;> exact ⟨rfl, rfl, rfl⟩

/-- Settles O14: each RESULT is its field, and the field is that number. -/
theorem fieldsOfDtype32 : Obligations.FieldsOfDtype32 := by
  refine ⟨decode_encode .fieldSign32, decode_encode .fieldExp32, decode_encode .fieldMant32, fun s hb => ?_⟩
  rw [exec_fieldSign32 hb, exec_fieldExp32 hb, exec_fieldMant32 hb, eq_ofNat_of_toNat_eq (sign32_toNat _),
    eq_ofNat_of_toNat_eq (exponent32_toNat _), eq_ofNat_of_toNat_eq (mantissa32_toNat _)]
  exact ⟨rfl, rfl, rfl⟩

end Sys2Proof.Machine
end

section
/-! A buffer command in an idle state: the operand checks that reject it, the command without elements, and the operands it latches
(42_transform_engine R120, R121, R127, R128). -/

namespace Sys2Proof.Machine

open Sys2Proof Sys2Proof.Config

/-- Settles O18: the interval test is a comparison of ends, and finds every shared address. -/
theorem intersectingRegionsShareAnAddress : Obligations.IntersectingRegionsShareAnAddress := by
  intro r q
  refine ⟨intersects_iff_shareAddress r q, ?_⟩
  rw [← intersects_iff_shareAddress]
  simp only [intersects, Bool.and_eq_true, decide_eq_true_eq, and_assoc]
  rfl

/-! The operand checks in their order (42_transform_engine R120). -/

theorem operandCheck_eq_lenMismatch (op : BufferOp) {d : DType} {s : State} (hlen : s.count.toNat * elemBytes d ≠ s.len.toNat) :
    operandCheck op d s = some .lenMismatch :=
  if_pos hlen

theorem operandCheck_eq_range (op : BufferOp) {d : DType} {s : State} (hlen : s.count.toNat * elemBytes d = s.len.toNat)
    (hfit : ¬ commandFits d s) : operandCheck op d s = some .range := by
  have hany : (commandRegions d s).any (fun r => decide (spaceSize < regionEnd r)) = true := by
    unfold commandFits at hfit
    push Not at hfit
    obtain ⟨q, hq, hlt⟩ := hfit
    exact List.any_eq_true.2 ⟨q, hq, decide_eq_true hlt⟩
  rw [operandCheck, if_neg (not_not_intro hlen), if_pos hany]

theorem operandCheck_eq_overlap {op : BufferOp} {d : DType} {s : State} (hlen : s.count.toNat * elemBytes d = s.len.toNat)
    (hfit : commandFits d s) (hapart : ¬ commandApart op d s) : operandCheck op d s = some .overlap := by
  have hany : ¬ (commandRegions d s).any (fun r => decide (spaceSize < regionEnd r)) = true := by
    rw [List.any_eq_true]
    rintro ⟨q, hq, hlt⟩
    exact Nat.not_lt.2 (hfit q hq) (of_decide_eq_true hlt)
  have hov : overlapForbidden op d s = true := by
    rwa [← overlapForbidden_eq_false, Bool.not_eq_false] at hapart
  rw [operandCheck, if_neg (not_not_intro hlen), if_neg hany, if_pos hov]

/-! What the CMD write of a buffer command does while idle. -/

theorem exec_buffer_idle (op : BufferOp) (d : DType) {s : State} (hb : busy s = false) :
    exec (bufferCommand op d) s = startBuffer op d (s.setCmd (encode (bufferCommand op d))) := by
  rw [exec_bufferCommand, acceptWord_idle _ _ hb]

theorem exec_buffer_rejected {op : BufferOp} {d : DType} {s : State} {c : Cause} (hb : busy s = false)
    (hc : operandCheck op d s = some c) :
    exec (bufferCommand op d) s = .next { s with cmd := encode (bufferCommand op d), status := statusInvalidInput c } := by
  rw [exec_buffer_idle op d hb]
  exact startBuffer_of_reject (by rwa [operandCheck_setCmd])

theorem exec_buffer_zero {op : BufferOp} {d : DType} {s : State} (hb : busy s = false) (hc : operandCheck op d s = none)
    (h0 : s.count = 0) :
    exec (bufferCommand op d) s = .next { s with cmd := encode (bufferCommand op d), status := statusDone } := by
  rw [exec_buffer_idle op d hb]
  exact startBuffer_of_zero (by rwa [operandCheck_setCmd]) h0

theorem exec_buffer_accepted {op : BufferOp} {d : DType} {s : State} (hb : busy s = false) (hc : operandCheck op d s = none)
    (h0 : s.count ≠ 0) (hplain : commandOnPlainMemory d s) :
    exec (bufferCommand op d) s = .next { s with
      cmd := encode (bufferCommand op d), status := statusBusy
      run := some (latch op d (s.setCmd (encode (bufferCommand op d)))) } := by
  rw [exec_buffer_idle op d hb]
  refine startBuffer_of_plain (by rwa [operandCheck_setCmd]) h0 (fun q hq => ?_) fun q hq v hv => ?_
  · exact (intersects_eq_false_iff _ _).2 (hplain q (commandRegions_setCmd d s _ ▸ hq)).1
  · exact (intersects_eq_false_iff _ _).2 ((hplain q (commandRegions_setCmd d s _ ▸ hq)).2 v hv)

/-- Settles O19: each check is asked after those before it, and the one that fires is the cause. -/
theorem operandChecksInOrder : Obligations.OperandChecksInOrder := by
  intro op d s hb n reject
  exact ⟨fun hlen => exec_buffer_rejected hb (operandCheck_eq_lenMismatch op hlen),
    fun hlen hfit => exec_buffer_rejected hb (operandCheck_eq_range op hlen hfit),
    fun hlen hfit hapart => exec_buffer_rejected hb (operandCheck_eq_overlap hlen hfit hapart)⟩

/-- The vectorized path is selected by CAP, VLEN and VMIN (42_transform_engine R127). -/
theorem selectPath_eq_vectorized_iff (s : State) :
    selectPath s = .vectorized
      ↔ s.cap = true ∧ 0 < s.platform.vlen.toNat ∧ s.platform.vminLessOne + 1 ≤ s.count.toNat := by
  simp [selectPath, and_assoc]

/-- Settles O20: the checks pass, no region is refused, and the operands are latched from the registers. -/
theorem acceptedCommandLatchesItsOperands : Obligations.AcceptedCommandLatchesItsOperands := by
  intro op d s hb hlen hpos hfit hapart hplain
  have hc := (operandCheck_eq_none_iff op d s).2 ⟨hlen, hfit, hapart⟩
  have h0 : s.count ≠ 0 := by
    rintro h
    simp [h] at hpos
  refine ⟨_, exec_buffer_accepted hb hc h0 hplain, rfl, rfl, rfl, rfl, rfl, rfl, rfl, ?_, selectPath_eq_vectorized_iff _⟩
  cases d <;> rfl

/-- Without elements every region of a command is empty. -/
theorem commandRegions_of_zero {d : DType} {s : State} (h0 : s.count = 0) (hlen : s.len = 0) {q : Region}
    (hq : q ∈ commandRegions d s) : q.len = 0 ∧ q.base < 2 ^ 32 := by
  rcases List.mem_cons.1 hq with rfl | hq
  · exact ⟨congrArg BitVec.toNat hlen, s.ebuf.isLt⟩
  · obtain ⟨b, _, rfl⟩ := List.mem_map.1 hq
    exact ⟨congrArg BitVec.toNat h0, b.isLt⟩

/-- Empty regions fit the space and share no address. -/
theorem operandCheck_of_zero (op : BufferOp) {d : DType} {s : State} (h0 : s.count = 0) (hlen : s.len = 0) :
    operandCheck op d s = none := by
  have hempty : ∀ q ∈ commandRegions d s, ∀ v, ¬ shareAddress q v := by
    rintro q hq v ⟨a, hlo, hhi, _⟩
    have := commandRegions_of_zero h0 hlen hq
    omega
  refine (operandCheck_eq_none_iff op d s).2 ⟨by simp [h0, hlen], fun q hq => ?_, ?_⟩
  · have := commandRegions_of_zero h0 hlen hq
    omega
  · cases op with
    | forward => exact List.pairwise_of_forall_mem_list fun q hq v _ => hempty q hq v
    | inverse => exact fun v _ => hempty _ (List.mem_cons_self ..) v

/-- Settles O21: the regions of a command without elements are empty, so that only its length is checked. -/
theorem countZeroEndsAtOnce : Obligations.CountZeroEndsAtOnce := by
  intro op d s hb h0
  refine ⟨fun hlen => exec_buffer_zero hb (operandCheck_of_zero op h0 hlen) h0, fun hlen => ?_⟩
  refine exec_buffer_rejected hb (operandCheck_eq_lenMismatch op fun h => hlen ?_)
  rw [h0] at h
  exact BitVec.eq_of_toNat_eq (h.symm.trans (Nat.zero_mul _))

end Sys2Proof.Machine
end

section
/-! The orders in which the engine may be led through a command's pairs, and that they end alike (42_transform_engine R126, R127). -/

namespace Sys2Proof.Machine

open Sys2Proof Sys2Proof.Config

/-! Runs through all pairs. -/

/-- A machine in order with a command running that no host write races with, on a coherent platform that admits all its accesses. -/
structure UnracedRun (s : State) (r : Running) : Prop where
  inv : s.Inv
  run : s.run = some r
  unraced : r.hostWrites = []
  coherent : s.platform.memCoherent = true
  admitted : allAdmitted s.platform r

theorem UnracedRun.ok {s : State} {r : Running} (h : UnracedRun s r) : runningOk s.platform r = true := inv_runningOk h.inv h.run

/-- A command with no pair moved, led through an order of all its pairs on a coherent platform, ends with every byte moved or with a bus
error. -/
theorem runPairs_fresh_cases {s : State} {r : Running} {order : List Nat} (hok : runningOk s.platform r = true)
    (hr : s.run = some r) (hd : r.done = []) (hw : r.hostWrites = []) (hc : s.platform.memCoherent = true)
    (hm : Memory.wf s.mem = true) (ho : order.Perm (List.range (pairTotal r))) :
    (∃ m, RunEnds order r s m)
    ∨ (¬ allAdmitted s.platform r ∧ ∃ u d, runPairs order s = .next u ∧ u.status = statusBusError d) := by
  have hlen : order.length = pairTotal r := ho.length_eq.trans List.length_range
  refine runPairs_cases order r s hok hr hw hc hm (ho.nodup_iff.2 List.nodup_range) (fun t ht => ?_) (by simp [hd, hlen]) ?_
  · exact ⟨List.mem_range.1 (ho.mem_iff.1 ht), by simp [hd]⟩
  · rintro rfl
    exact (pairTotal_pos hok).ne hlen

theorem UnracedRun.runEnds {s : State} {r : Running} {order : List Nat} (h : UnracedRun s r) (hd : r.done = [])
    (ho : order.Perm (List.range (pairTotal r))) : ∃ m, RunEnds order r s m := by
  have hcases := runPairs_fresh_cases h.ok h.run hd h.unraced h.coherent h.inv.1 ho
  exact hcases.resolve_right fun ⟨hn, _⟩ => hn h.admitted

/-- What memory holds at the end depends on which pairs are moved, not on their order. -/
theorem RunEnds.mem_unique {ts us : List Nat} {r : Running} {s : State} {m n : List Host.Cell} (h : RunEnds ts r s m)
    (g : RunEnds us r s n) (hmem : ∀ t, t ∈ ts ↔ t ∈ us) : m = n := by
  refine Memory.ext h.wf g.wf fun a => ?_
  by_cases ha : ∃ t ∈ ts, a = pairDst r t
  · obtain ⟨t, ht, rfl⟩ := ha
    rw [h.dst t ht, g.dst t ((hmem t).1 ht)]
  · push Not at ha
    rw [h.other a ha, g.other a fun t ht => ha t ((hmem t).2 ht)]

/-- Two orders of all pairs end in one state. -/
theorem UnracedRun.orders_agree {s : State} {r : Running} {o₁ o₂ : List Nat} (h : UnracedRun s r) (hd : r.done = [])
    (h₁ : o₁.Perm (List.range (pairTotal r))) (h₂ : o₂.Perm (List.range (pairTotal r))) :
    ∃ t, runPairs o₁ s = .next t ∧ runPairs o₂ s = .next t ∧ t.run = none ∧ t.status = 0x00000002 := by
  obtain ⟨m, hm⟩ := h.runEnds hd h₁
  obtain ⟨n, hn⟩ := h.runEnds hd h₂
  have hperm := h₁.trans h₂.symm
  obtain rfl := hm.mem_unique hn fun t => hperm.mem_iff
  exact ⟨_, hm.run, hperm.length_eq ▸ hn.run, rfl, rfl⟩

/-- Settles O29: the scalar path is an order of all pairs too, and what memory holds at the end does not depend on the order. -/
theorem everyOrderEndsTheSame : Obligations.EveryOrderEndsTheSame := by
  intro s r order hi hr hd hw hc ha ho
  exact UnracedRun.orders_agree ⟨hi, hr, hw, hc, ha⟩ hd ho (scalarFrom_perm r)

/-! The vectorized path (42_transform_engine R127). -/

theorem length_scalarFrom (r : Running) (first : Nat) :
    (scalarFrom r first).length = (r.count.toNat - first) * planeCount r.dt := by
  simp [scalarFrom, elementPairs, List.length_flatMap]

theorem length_chunkPairs (r : Running) (width c : Nat) : (chunkPairs r width c).length = width * planeCount r.dt := by
  simp [chunkPairs, List.length_flatMap, mul_comm]

theorem length_vectorizedOrder (r : Running) (width : Nat) : (vectorizedOrder r width).length = pairTotal r := by
  have hle := Nat.div_mul_le_self r.count.toNat width
  simp only [vectorizedOrder, List.length_append, List.length_flatMap, length_chunkPairs, List.map_const', List.sum_replicate,
    List.length_range, smul_eq_mul, length_scalarFrom]
  rw [← mul_assoc, ← add_mul, Nat.add_sub_cancel' hle, pairTotal]

/-- Every pair is in the chunk of its element, or in the remainder. -/
theorem mem_vectorizedOrder {r : Running} {width t : Nat} (hw : 0 < width) (ht : t < pairTotal r) :
    t ∈ vectorizedOrder r width := by
  have hi := pairElem_lt r ht
  rw [vectorizedOrder, List.mem_append]
  by_cases hrest : r.count.toNat / width * width ≤ pairElem r t
  · exact .inr ((mem_scalarFrom r _ t).2 ⟨hrest, hi⟩)
  · refine .inl (List.mem_flatMap.2 ⟨pairElem r t / width, ?_, (mem_chunkPairs r width _ t).2 ⟨?_, ?_⟩⟩)
    · exact List.mem_range.2 ((Nat.div_lt_iff_lt_mul hw).2 (Nat.lt_of_not_le hrest))
    · exact Nat.div_mul_le_self _ _
    · exact Nat.lt_div_mul_add hw

/-- The vectorized path is an order of all pairs. -/
theorem vectorizedOrder_perm (r : Running) {width : Nat} (hw : 0 < width) :
    (vectorizedOrder r width).Perm (List.range (pairTotal r)) := by
  have hsub := List.subperm_of_subset (List.nodup_range (n := pairTotal r)) fun t ht =>
    mem_vectorizedOrder hw (List.mem_range.1 ht)
  exact (hsub.perm_of_length_le (by rw [length_vectorizedOrder, List.length_range])).symm

/-- Settles O30: the chunks and the remainder are an order of all pairs, and so is the scalar path. -/
theorem vectorizedPathEqualsScalarPath : Obligations.VectorizedPathEqualsScalarPath := by
  intro s r width hi hr hd hw hc ha hpos
  exact UnracedRun.orders_agree ⟨hi, hr, hw, hc, ha⟩ hd (vectorizedOrder_perm r hpos) (scalarFrom_perm r)

end Sys2Proof.Machine
end

section
/-! The engine's own steps: the pair it picks, what it moves, and the end it reaches (42_transform_engine R126, R129 to R131). -/

namespace Sys2Proof.Machine

open Sys2Proof Sys2Proof.Config

/-! The pair it picks. -/

theorem progressOk_of_runningOk {p : Platform} {r : Running} (h : runningOk p r = true) : progressOk r = true :=
  let ⟨_, hp, _⟩ := (runningOk_iff p r).1 h
  hp

/-- Settles O24: a free pair is reached at the index that counts the free pairs before it. -/
theorem engineMayPickAnyFreePair : Obligations.EngineMayPickAnyFreePair := by
  intro s r hr hok
  have hp := progressOk_of_runningOk hok
  obtain ⟨hsorted, hbound, _⟩ := (progressOk_iff r).1 hp
  refine ⟨rfl, engineStep_running hr hp, fun j hj => ⟨freePair_notMem hsorted j, ?_⟩, fun t ht hfree => ?_⟩
  · have hle := freePair_le r.done j
    omega
  · exact ⟨t - countBelow r.done t, countBelow_bound hsorted hfree ht hbound, freePair_countBelow hsorted hfree⟩

/-! Pair (i, p) by its addresses (42_transform_engine R122 to R125). -/

/-- Settles O23: a pair's number gives its element and its plane back. -/
theorem pairAddressesOfEachCommand : Obligations.PairAddressesOfEachCommand := by
  intro r i p hp
  refine ⟨fun hop => ?_, fun hop => ?_⟩ <;>
    rw [pairSrc, pairDst, hop, pairElem_pairNumber r hp, pairPlane_pairNumber r hp] <;> exact ⟨rfl, rfl⟩

/-! The step that moves it. -/

/-- s as the engine leaves it when it has moved a byte for pair t, before the command may end: one draw picked the pair, one is the byte
a platform without coherence may read. -/
def pairMoved (s : State) (r : Running) (t : Nat) (v : Byte) : State :=
  { s with
    mem := writeByte s.mem (pairDst r t) v, run := some (withPair r t), draws := s.draws + 2, schedule := s.schedule.tail }

/-- The byte the engine's next step reads for pair t (20_memory R67). -/
def byteMoved (s : State) (r : Running) (t : Nat) : Byte :=
  if s.platform.memCoherent then readByte s.mem (pairSrc r t) else BitVec.ofNat 8 (Config.draw (s.draws + 1))

/-- An engine step whose two accesses are admitted moves the byte of the pair it has picked, and ends the command with the last pair. -/
theorem step_of_admitted_pair {s : State} {r : Running} (hok : runningOk s.platform r = true) (hr : s.run = some r)
    (ha : nextAgent s = .engine) (hread : portAdmits s.platform (pairSrc r (pickPair r (turnTaken s))) .read = true)
    (hwrite : portAdmits s.platform (pairDst r (pickPair r (turnTaken s))) .write = true) :
    let t := pickPair r (turnTaken s)
    (r.done.length + 1 < pairTotal r → step s = .next (pairMoved s r t (byteMoved s r t)))
    ∧ (r.done.length + 1 = pairTotal r →
        step s = .next (endCommand (withPair r t) (pairMoved s r t (byteMoved s r t)))) := by
  intro t
  have hp := progressOk_of_runningOk hok
  obtain ⟨hfree, ht⟩ := pickPair_free hp (turnTaken s)
  have hlen : (withPair r t).done.length = r.done.length + 1 := length_addPair hfree
  have hstep : step s = .next (completePair t (byteMoved s r t) r ((turnTaken s).addDraws 1)) := by
    rw [step_of_engine ha, engineStep_running (s := turnTaken s) hr hp]
    exact transferPair_of_admitted (s := (turnTaken s).addDraws 1) hok ht hread hwrite
  rw [hstep]
  have hmoved : ((((turnTaken s).addDraws 1).setMem (writeByte s.mem (pairDst r t) (byteMoved s r t))).setRun
      (some (withPair r t))).addDraws 1 = pairMoved s r t (byteMoved s r t) := by
    simp only [pairMoved, turnTaken, State.setMem, State.setRun, State.addDraws, Nat.add_assoc]
  rcases completePair_cases t (byteMoved s r t) r ((turnTaken s).addDraws 1) with ⟨hl, hc⟩ | ⟨hl, hc⟩ <;>
    rw [hc, State.addDraws_mem, turnTaken_mem, hmoved]
  · exact ⟨fun _ => rfl, fun hlast => absurd (hlen.trans hlast) hl⟩
  · exact ⟨fun hleft => absurd (hlen.symm.trans hl) hleft.ne, fun _ => rfl⟩

/-- At the end of a command too all but memory, the hidden state, the ended commands, STATUS and the count of draws is as it was. -/
theorem endCommand_pairMoved_eq_update (q r : Running) (s : State) (t : Nat) (v : Byte) :
    endCommand q (pairMoved s r t v) = { s with
      mem := (endCommand q (pairMoved s r t v)).mem, run := (endCommand q (pairMoved s r t v)).run
      unseen := (endCommand q (pairMoved s r t v)).unseen, status := (endCommand q (pairMoved s r t v)).status
      draws := (endCommand q (pairMoved s r t v)).draws, schedule := s.schedule.tail } := by
  obtain ⟨m, n, h⟩ := endCommand_frame q (pairMoved s r t v)
  rw [h]
  simp only [pairMoved, State.setMem, State.setRun, State.setUnseen, State.setStatus, State.addDraws]

/-- Settles O25: with pairs left the picked byte is written and no other, and with the last pair the raced bytes are settled besides. -/
theorem engineMovesThePickedPair : Obligations.EngineMovesThePickedPair := by
  intro s r hi hr ha t byteRead hread hwrite
  have hok := inv_runningOk hi hr
  have hp := progressOk_of_runningOk hok
  obtain ⟨hfree, _⟩ := pickPair_free hp (turnTaken s)
  obtain ⟨_, _, hroom⟩ := (progressOk_iff r).1 hp
  obtain ⟨hmore, hlast⟩ := step_of_admitted_pair hok hr ha hread hwrite
  have hother : ∀ a, a ≠ pairDst r t → readByte (pairMoved s r t byteRead).mem a = readByte s.mem a := fun a hne =>
    readByte_writeByte_other _ _ hne
  have hdst : readByte (pairMoved s r t byteRead).mem (pairDst r t) = byteRead := readByte_writeByte_same _ _ _
  by_cases hleft : r.done.length + 1 < pairTotal r
  · refine ⟨_, hmore hleft, rfl, fun _ => ⟨hdst, hother, rfl, rfl, _, rfl, mem_addPair _ _⟩, fun h => absurd h hleft.ne⟩
  · have hend : r.done.length + 1 = pairTotal r := by omega
    have hsettled : ∀ a, a ∉ racedBytes r →
        readByte (endCommand (withPair r t) (pairMoved s r t byteRead)).mem a = readByte (pairMoved s r t byteRead).mem a :=
      fun a => (readByte_settleRaces false (withPair r t) (pairMoved s r t byteRead) a).1
    refine ⟨_, hlast hend, endCommand_pairMoved_eq_update _ r s t _, fun h => absurd h hleft,
      fun _ => ⟨fun h => ?_, fun a h hne => ?_, ?_, rfl, rfl, ?_⟩⟩
    · exact (hsettled _ h).trans hdst
    · exact (hsettled a h).trans (hother a hne)
    · exact fun h => by simp [racedBytes, h]
    · rw [endCommand_unseen]
      rfl

/-! Step after step to the end (42_transform_engine R129 to R131). -/

/-- m is memory m₀ with the bytes of the pairs of P moved. -/
structure Moved (P : Nat → Prop) (r : Running) (m₀ m : List Host.Cell) : Prop where
  dst : ∀ t, P t → readByte m (pairDst r t) = readByte m₀ (pairSrc r t)
  other : ∀ a, (∀ t, P t → a ≠ pairDst r t) → readByte m a = readByte m₀ a

theorem Moved.congr {P Q : Nat → Prop} {r : Running} {m₀ m : List Host.Cell} (h : Moved P r m₀ m) (hPQ : ∀ t, P t ↔ Q t) :
    Moved Q r m₀ m :=
  ⟨fun t ht => h.dst t ((hPQ t).2 ht), fun a ha => h.other a fun t ht => ha t ((hPQ t).1 ht)⟩

/-- With no pair left nothing moves. -/
theorem Moved.of_none {P : Nat → Prop} (hP : ∀ t, ¬ P t) (r : Running) (m : List Host.Cell) : Moved P r m m :=
  ⟨fun t ht => absurd ht (hP t), fun _ _ => rfl⟩

/-- One pair moved, and then others: no later pair writes or reads the byte that the first wrote. -/
theorem Moved.after_first {P : Nat → Prop} {r : Running} {m₀ m : List Host.Cell} {t : Nat} (hapart : regionsApart r = true)
    (hP : ∀ x, P x → x < pairTotal r) (ht : t < pairTotal r)
    (h : Moved P r (writeByte m₀ (pairDst r t) (readByte m₀ (pairSrc r t))) m) : Moved (fun x => x = t ∨ P x) r m₀ m := by
  refine ⟨fun x hx => ?_, fun a ha => ?_⟩
  · by_cases hPx : P x
    · rw [h.dst x hPx, readByte_writeByte_other _ _ (pairSrc_ne_pairDst hapart (hP x hPx) ht)]
    · obtain rfl := hx.resolve_right hPx
      rw [h.other (pairDst r x) fun y hy he => hPx (pairDst_injective hapart ht (hP y hy) he ▸ hy), readByte_writeByte_same]
  · rw [h.other a fun y hy => ha y (.inr hy), readByte_writeByte_other _ _ (ha t (.inl rfl))]

/-- The pairs of a command that are not done. -/
def PairLeft (r : Running) (t : Nat) : Prop := t < pairTotal r ∧ t ∉ r.done

@[simp] theorem withPair_done (r : Running) (t : Nat) : (withPair r t).done = addPair r.done t := rfl
@[simp] theorem pairTotal_withPair (r : Running) (t : Nat) : pairTotal (withPair r t) = pairTotal r := rfl
@[simp] theorem forget_withPair (r : Running) (t : Nat) : forget (withPair r t) = forget r := rfl

theorem Moved.of_withPair {P : Nat → Prop} {r : Running} {t : Nat} {m₀ m : List Host.Cell} (h : Moved P (withPair r t) m₀ m) :
    Moved P r m₀ m := ⟨h.dst, h.other⟩

theorem pairLeft_iff_withPair {r : Running} {t : Nat} (ht : PairLeft r t) (x : Nat) :
    x = t ∨ PairLeft (withPair r t) x ↔ PairLeft r x := by
  rw [PairLeft, withPair_done, pairTotal_withPair, mem_addPair]
  by_cases hx : x = t
  · simp [hx, ht]
  · simp [hx, PairLeft]

/-- The last pair leaves none. -/
theorem not_pairLeft_withPair_last {r : Running} (hp : progressOk r = true) {t : Nat} (ht : PairLeft r t)
    (hlast : r.done.length + 1 = pairTotal r) (x : Nat) : ¬ PairLeft (withPair r t) x := by
  obtain ⟨hsorted, hbound, _⟩ := (progressOk_iff r).1 hp
  rw [PairLeft, withPair_done, pairTotal_withPair]
  rintro ⟨hx, hxf⟩
  have hall : ∀ y ∈ addPair r.done t, y < pairTotal r := fun y hy =>
    ((mem_addPair r.done t y).1 hy).elim (fun he => he ▸ ht.1) (hbound y)
  have hcount := countBelow_bound (addPair_pairwise hsorted t) hxf hx hall
  rw [length_addPair ht.2] at hcount
  omega

theorem steps_succ_of_next {s u : State} (n : Nat) (h : step s = .next u) : steps (n + 1) s = steps n u := by
  rw [steps, h]

/-- One step of an unraced command whose schedule gives the engine every turn. -/
theorem UnracedRun.step_moves {s : State} {r : Running} (h : UnracedRun s r) (hs : s.schedule = []) :
    ∃ t, PairLeft r t
      ∧ (r.done.length + 1 < pairTotal r →
          step s = .next (pairMoved s r t (readByte s.mem (pairSrc r t)))
          ∧ UnracedRun (pairMoved s r t (readByte s.mem (pairSrc r t))) (withPair r t))
      ∧ (r.done.length + 1 = pairTotal r →
          step s = .next (endCommand (withPair r t) (pairMoved s r t (readByte s.mem (pairSrc r t))))) := by
  have hp := progressOk_of_runningOk h.ok
  obtain ⟨hfree, ht⟩ := pickPair_free hp (turnTaken s)
  obtain ⟨hread, hwrite⟩ := h.admitted _ ht
  have ha : nextAgent s = .engine := by simp [nextAgent, hs, h.run]
  obtain ⟨hmore, hlast⟩ := step_of_admitted_pair h.ok h.run ha hread hwrite
  have hbyte : byteMoved s r (pickPair r (turnTaken s)) = readByte s.mem (pairSrc r (pickPair r (turnTaken s))) :=
    if_pos h.coherent
  rw [hbyte] at hmore hlast
  refine ⟨_, ⟨ht, hfree⟩, fun hleft => ⟨hmore hleft, ?_⟩, hlast⟩
  exact ⟨everyStepKeepsTheInvariant _ _ h.inv (hmore hleft), rfl, h.unraced, h.coherent, h.admitted⟩

/-- The engine, given every turn, ends an unraced command in one step for each pair left, with those pairs moved. -/
theorem UnracedRun.steps_to_end (n : Nat) : ∀ {s : State} {r : Running}, UnracedRun s r → s.schedule = [] →
    r.done.length + n = pairTotal r → ∃ m k, Moved (PairLeft r) r s.mem m
      ∧ steps n s = .next { s with mem := m, run := none, unseen := forget r :: s.unseen, status := statusDone, draws := k } := by
  induction n with
  | zero =>
    intro s r h _ hn
    have hp := progressOk_of_runningOk h.ok
    obtain ⟨_, _, hroom⟩ := (progressOk_iff r).1 hp
    exact absurd hn hroom.ne
  | succ n ih =>
    intro s r h hs hn
    have hapart := regionsApart_of_runningOk h.ok
    have hp := progressOk_of_runningOk h.ok
    obtain ⟨t, hleft, hmore, hlast⟩ := h.step_moves hs
    have hmoved : ∀ {m}, Moved (PairLeft (withPair r t)) r (writeByte s.mem (pairDst r t) (readByte s.mem (pairSrc r t))) m →
        Moved (PairLeft r) r s.mem m := fun hm =>
      (hm.after_first hapart (fun x hx => hx.1) hleft.1).congr (pairLeft_iff_withPair hleft)
    cases n with
    | zero =>
      refine ⟨_, s.draws + 2, hmoved (.of_none (not_pairLeft_withPair_last hp hleft hn) r _), ?_⟩
      rw [steps_succ_of_next 0 (hlast hn), endCommand_of_no_race (r := withPair r t) h.unraced, steps, forget_withPair]
      simp only [pairMoved, hs, State.setRun, State.setUnseen, State.setStatus, List.tail_nil]
    | succ n =>
      obtain ⟨hstep, hnext⟩ := hmore (by omega)
      obtain ⟨m, k, hm, hsteps⟩ := ih hnext (by simp [pairMoved, hs])
        (by rw [withPair_done, pairTotal_withPair, length_addPair hleft.2]; omega)
      refine ⟨m, k, hmoved hm.of_withPair, ?_⟩
      rw [steps_succ_of_next _ hstep, hsteps, forget_withPair]
      simp only [pairMoved, hs, List.tail_nil]

/-- Settles O28: from no pair done to all of them is one step each, and then the bytes of all pairs are moved. -/
theorem commandRunsToItsEnd : Obligations.CommandRunsToItsEnd := by
  intro s r hi hr hd hw hc ha hs
  have hrun : UnracedRun s r := ⟨hi, hr, hw, hc, ha⟩
  obtain ⟨m, k, hm, hsteps⟩ := hrun.steps_to_end (pairTotal r) hs (by simp [hd])
  refine ⟨_, hsteps, rfl, fun i p hi hp => ?_, fun a hout => hm.other a ?_⟩
  · have hdst := hm.dst (pairNumber r i p) ⟨pairNumber_lt r hi hp, by simp [hd]⟩
    obtain ⟨hforward, hinverse⟩ := pairAddressesOfEachCommand r i p hp
    refine ⟨fun hop => ?_, fun hop => ?_⟩
    · rwa [(hforward hop).1, (hforward hop).2] at hdst
    · rwa [(hinverse hop).1, (hinverse hop).2] at hdst
  · rintro t ⟨ht, _⟩ rfl
    cases hout.symm.trans ((isDestination_iff r _).2 ⟨t, ht, rfl⟩)

end Sys2Proof.Machine
end

section
/-! Nothing depends on L.path, CAP, VLEN, VMIN or cap_in (42_transform_engine R127): each operation does to a state with the path erased
what it does to the state, with the path erased. -/

namespace Sys2Proof.Machine

open Sys2Proof Sys2Proof.Config

/-! What is erased. -/

/-- r with L.path replaced by a fixed value. -/
def Running.erasePath (r : Running) : Running := { r with path := .scalar }

/-- An outcome with the path erased from its next state. -/
def eraseOutcome : Host.Outcome State Fault Refusal → Host.Outcome State Fault Refusal
  | .next s => .next (erasePath s)
  | .fault f => .fault f
  | .refused f => .refused f

@[simp] theorem eraseOutcome_next (s : State) : eraseOutcome (.next s) = .next (erasePath s) := rfl
@[simp] theorem eraseOutcome_fault (f : Fault) : eraseOutcome (.fault f) = .fault f := rfl
@[simp] theorem eraseOutcome_refused (f : Refusal) : eraseOutcome (.refused f) = .refused f := rfl
@[simp] theorem eraseOutcome_ite (c : Prop) [Decidable c] (o p : Host.Outcome State Fault Refusal) :
    eraseOutcome (if c then o else p) = if c then eraseOutcome o else eraseOutcome p := apply_ite eraseOutcome c o p

theorem sameButPath_iff (o p : Host.Outcome State Fault Refusal) : sameButPath o p ↔ eraseOutcome o = eraseOutcome p := by
  cases o <;> cases p <;> simp [sameButPath]

/-! Races. -/

theorem settleByte_erasePath (cutShort : Bool) (r : Running) (s : State) (d : Nat) :
    settleByte cutShort r.erasePath (erasePath s) d = erasePath (settleByte cutShort r s d) := by
  have h : ∀ t : State, settleByte cutShort r t d = match settleValues cutShort r d with
      | [] => t
      | c :: cs => (t.setMem (writeByte t.mem d (choose (drawAt t 0) c cs))).addDraws 1 := fun _ => rfl
  show settleByte cutShort r (erasePath s) d = _
  rw [h, h]
  cases settleValues cutShort r d <;> rfl

theorem settleRaces_erasePath (cutShort : Bool) (r : Running) (s : State) :
    settleRaces cutShort r.erasePath (erasePath s) = erasePath (settleRaces cutShort r s) :=
  List.foldl_hom erasePath (fun t d => settleByte_erasePath cutShort r t d)

theorem noteWrite_erasePath (a : Nat) (v : Byte) (r : Running) : noteWrite a v r.erasePath = (noteWrite a v r).erasePath := by
  unfold noteWrite
  rw [apply_ite Running.erasePath]
  rfl

theorem putByte_erasePath (a : Nat) (v : Byte) (s : State) : putByte a v (erasePath s) = erasePath (putByte a v s) := by
  have hrun : (s.run.map Running.erasePath).map (noteWrite a v) = (s.run.map (noteWrite a v)).map Running.erasePath := by
    cases s.run <;> simp [noteWrite_erasePath]
  exact congrArg (fun q => (((erasePath s).setMem (writeByte s.mem a v)).setRun q).setUnseen (s.unseen.map (noteWrite a v))) hrun

theorem hostMemWrite_erasePath (a : Nat) (v : Byte) (s : State) :
    hostMemWrite a v (erasePath s) = erasePath (hostMemWrite a v s) := by
  unfold hostMemWrite
  rw [putByte_erasePath]
  exact List.foldl_hom erasePath fun t d => congrArg (State.addDraws · 1) (putByte_erasePath d _ t)

theorem racedReadValues_erasePath (a : Nat) (s : State) : racedReadValues a (erasePath s) = racedReadValues a s := by
  unfold racedReadValues owners erasePath
  cases s.run <;> rfl

theorem hostMemRead_erasePath (a : Nat) (s : State) : hostMemRead a (erasePath s) = erasePath (hostMemRead a s) := by
  unfold hostMemRead
  rw [racedReadValues_erasePath, apply_ite erasePath]
  cases racedReadValues a s <;> rfl

/-! The engine. -/

theorem endCommand_erasePath (r : Running) (s : State) :
    endCommand r.erasePath (erasePath s) = erasePath (endCommand r s) := by
  unfold endCommand
  rw [settleRaces_erasePath]
  rfl

theorem raiseBusError_erasePath (a : Nat) (d : Dir) (r : Running) (s : State) :
    raiseBusError a d r.erasePath (erasePath s) = erasePath (raiseBusError a d r s) := by
  have h := settleRaces_erasePath true r (s.addDraws 2)
  unfold raiseBusError
  rw [show (erasePath s).addDraws 2 = erasePath (s.addDraws 2) from rfl, h]
  rfl

theorem completePair_erasePath (t : Nat) (v : Byte) (r : Running) (s : State) :
    completePair t v r.erasePath (erasePath s) = erasePath (completePair t v r s) := by
  unfold completePair
  dsimp only
  rw [apply_ite erasePath, ← endCommand_erasePath]
  rfl

theorem transferPair_erasePath (t : Nat) (r : Running) (s : State) :
    transferPair t r.erasePath (erasePath s) = eraseOutcome (transferPair t r s) := by
  unfold transferPair
  simp only [eraseOutcome_ite, eraseOutcome_next, eraseOutcome_fault, ← raiseBusError_erasePath, ← completePair_erasePath]
  rfl

theorem engineStep_of_running {s : State} {r : Running} (h : s.run = some r) :
    engineStep s = if pairTotal r ≤ r.done.length then .next (endCommand r s) else transferPair (pickPair r s) r (s.addDraws 1) := by
  simp [engineStep, h]

theorem engineStep_erasePath (s : State) : engineStep (erasePath s) = eraseOutcome (engineStep s) := by
  cases hr : s.run with
  | none =>
    rw [engineStep_idle hr, engineStep_idle (by simp [erasePath, hr])]
    rfl
  | some r =>
    have he : (erasePath s).run = some r.erasePath := by simp [erasePath, Running.erasePath, hr]
    rw [engineStep_of_running hr, engineStep_of_running he, eraseOutcome_ite, eraseOutcome_next, ← endCommand_erasePath,
      ← transferPair_erasePath]
    rfl

/-! CMD writes. -/

theorem acceptWord_erasePath {w : Word} {run : State → Host.Outcome State Fault Refusal}
    (h : ∀ t, run (erasePath t) = eraseOutcome (run t)) (s : State) :
    acceptWord w run (erasePath s) = eraseOutcome (acceptWord w run s) := by
  unfold acceptWord
  rw [eraseOutcome_ite, ← h]
  rfl

theorem elementWrite_erasePath (i : Instr) (s : State) : elementWrite i (erasePath s) = erasePath (elementWrite i s) := by
  cases i <;> rfl

theorem operandCheck_erasePath (op : BufferOp) (d : DType) (s : State) : operandCheck op d (erasePath s) = operandCheck op d s := by
  cases d <;> rfl

theorem commandRegions_erasePath (d : DType) (s : State) : commandRegions d (erasePath s) = commandRegions d s := by
  cases d <;> rfl

/-- With CAP erased the path selected is the one that erasing leaves. -/
theorem latch_erasePath (op : BufferOp) (d : DType) (s : State) : latch op d (erasePath s) = (latch op d s).erasePath := by
  cases d <;> rfl

theorem startBuffer_erasePath (op : BufferOp) (d : DType) (s : State) :
    startBuffer op d (erasePath s) = eraseOutcome (startBuffer op d s) := by
  unfold startBuffer
  rw [operandCheck_erasePath, commandRegions_erasePath, latch_erasePath]
  cases operandCheck op d s with
  | some c => rfl
  | none =>
    simp only [eraseOutcome_ite, eraseOutcome_next, eraseOutcome_refused]
    rfl

theorem exec_erasePath (i : Instr) (s : State) : exec i (erasePath s) = eraseOutcome (exec i s) := by
  rcases instr_cases i with hi | ⟨op, d, rfl⟩
  · rw [exec_element hi, exec_element hi]
    refine acceptWord_erasePath (fun t => ?_) s
    rw [elementWrite_erasePath]
    rfl
  · rw [exec_bufferCommand, exec_bufferCommand]
    exact acceptWord_erasePath (startBuffer_erasePath op d) s

theorem writeCmd_erasePath (w : Word) (s : State) : writeCmd w (erasePath s) = eraseOutcome (writeCmd w s) := by
  unfold writeCmd
  cases decode w with
  | error c => exact acceptWord_erasePath (fun _ => rfl) s
  | ok i => exact exec_erasePath i s

/-! The other operations of the host. -/

theorem writeRegister_erasePath (s : State) (offset : BitVec 8) (v : Word) :
    writeRegister (erasePath s) offset v = erasePath (writeRegister s offset v) := by
  unfold writeRegister
  split <;> rfl

theorem registerWrite_erasePath (offset : BitVec 8) (v : Word) (s : State) :
    registerWrite offset v (erasePath s) = eraseOutcome (registerWrite offset v s) := by
  unfold registerWrite
  rw [eraseOutcome_ite, eraseOutcome_next, writeCmd_erasePath, writeRegister_erasePath]

/-- Of the registers HWCFG alone shows what is erased. -/
theorem readRegister_erasePath (s : State) {offset : BitVec 8} (h : offset ≠ 0x08) :
    readRegister (erasePath s) offset = readRegister s offset := by
  unfold readRegister
  split
  case h_3 h8 => exact absurd (BitVec.eq_of_toNat_eq h8) h
  all_goals rfl

theorem hostRegRead_erasePath {offset : BitVec 8} (h : offset ≠ 0x08) (s : State) :
    hostRegRead offset (erasePath s) = erasePath (hostRegRead offset s) := by
  unfold hostRegRead
  rw [readRegister_erasePath s h, apply_ite erasePath]
  rfl

theorem pollStatus_erasePath (s : State) : pollStatus (erasePath s) = erasePath (pollStatus s) := by
  unfold pollStatus
  rw [hostRegRead_erasePath (by decide), apply_ite erasePath]
  rfl

theorem assertReset_erasePath (s : State) : assertReset (erasePath s) = erasePath (assertReset s) := by
  cases hr : s.run with
  | none => simp only [assertReset, erasePath, hr]; rfl
  | some r =>
    have he : (erasePath s).run = some r.erasePath := by simp [erasePath, Running.erasePath, hr]
    simp only [assertReset, hr, he, settleRaces_erasePath]
    rfl

theorem releaseReset_erasePath (s : State) : releaseReset (erasePath s) = erasePath (releaseReset s) := by
  unfold releaseReset
  rw [apply_ite erasePath]
  rfl

theorem windowAccess_erasePath {width : Width} {access : State → Host.Outcome State Fault Refusal} {s : State}
    (h : width = .word → access (erasePath s) = eraseOutcome (access s)) (offset : BitVec 8) :
    windowAccess offset width (erasePath s) access = eraseOutcome (windowAccess offset width s access) := by
  unfold windowAccess
  simp only [eraseOutcome_ite, eraseOutcome_refused]
  by_cases hw : width = .word
  · rw [← h hw]
    rfl
  · rw [if_pos hw, if_pos hw]
    rfl

theorem memoryAccess_erasePath {access : State → State} {s : State} (h : access (erasePath s) = erasePath (access s)) (a : Word) :
    memoryAccess a (erasePath s) access = eraseOutcome (memoryAccess a s access) := by
  unfold memoryAccess
  simp only [eraseOutcome_ite, eraseOutcome_next, eraseOutcome_refused, ← h]
  rfl

theorem hostStep_erasePath {op : HostOp} (hop : op ≠ .regRead 0x08 .word) (s : State) :
    hostStep op (erasePath s) = eraseOutcome (hostStep op s) := by
  cases op with
  | regRead offset width =>
    rw [hostStep_regRead, hostStep_regRead]
    refine windowAccess_erasePath (fun hw => ?_) offset
    rw [hostRegRead_erasePath (by rintro rfl; exact hop (by rw [hw])), eraseOutcome_next]
  | regWrite offset width v => exact windowAccess_erasePath (fun _ => registerWrite_erasePath offset v s) offset
  | wait =>
    rw [hostStep_wait, hostStep_wait]
    exact windowAccess_erasePath (fun _ => by rw [pollStatus_erasePath, eraseOutcome_next]) 0x04
  | memRead a => exact memoryAccess_erasePath (hostMemRead_erasePath a.toNat s) a
  | memWrite a v => exact memoryAccess_erasePath (hostMemWrite_erasePath a.toNat v s) a
  | assertReset => exact congrArg _ (assertReset_erasePath s)
  | releaseReset => exact congrArg _ (releaseReset_erasePath s)

/-! Steps. -/

theorem nextAgent_erasePath (s : State) : nextAgent (erasePath s) = nextAgent s := by
  unfold nextAgent erasePath
  cases s.run <;> rfl

theorem aboutTo_erasePath (op : HostOp) (s : State) : aboutTo op (erasePath s) ↔ aboutTo op s := by
  rw [aboutTo, nextAgent_erasePath]
  rfl

theorem step_of_idle_host {s : State} (ha : nextAgent s = .host) (hp : s.program = []) : step s = .next (turnTaken s) := by
  rcases step_cases s with ⟨he, _⟩ | ⟨_, _, hs⟩ | ⟨op, ho, _⟩
  · cases ha.symm.trans he
  · exact hs
  · simp [aboutTo, hp] at ho

/-- A step that does not read HWCFG does to a state with the path erased what it does to the state. -/
theorem step_erasePath {s : State} (h : ¬ aboutTo (.regRead 0x08 .word) s) : step (erasePath s) = eraseOutcome (step s) := by
  have hagent := nextAgent_erasePath s
  rcases step_cases s with ⟨ha, hs⟩ | ⟨ha, hp, hs⟩ | ⟨op, ho, hs⟩ <;> rw [hs]
  · rw [step_of_engine (hagent.trans ha)]
    exact engineStep_erasePath (turnTaken s)
  · exact step_of_idle_host (hagent.trans ha) hp
  · rw [step_of_aboutTo ((aboutTo_erasePath op s).2 ho)]
    exact hostStep_erasePath (fun hop => h (hop ▸ ho)) (popped s)

/-- Settles O31: both steps, with the path erased, are the step of the one state with the path erased. -/
theorem nothingDependsOnThePath : Obligations.NothingDependsOnThePath := by
  intro s t h hs
  have ht : ¬ aboutTo (.regRead 0x08 .word) t := by rwa [← aboutTo_erasePath, ← h, aboutTo_erasePath]
  rw [sameButPath_iff, ← step_erasePath hs, h, step_erasePath ht]

end Sys2Proof.Machine
end

section
/-! What a FORWARD or INVERSE that ends normally has done to memory, and what follows for two of them in a row and for the element
codec (42_transform_engine R132, R133). -/

namespace Sys2Proof.Machine

open Sys2Proof Sys2Proof.Config

/-! A command that ends normally. -/

/-- The command r of a direction and a dtype, accepted in s, has ended normally in u: every pair is moved, and the registers of operands
are as they were. -/
structure Transformed (op : BufferOp) (d : DType) (s u : State) (r : Running) : Prop where
  op : r.op = op
  dt : r.dt = d
  count : r.count = s.count
  ebuf : r.ebuf = s.ebuf
  pb : r.pb = planeBases d s
  run : u.run = none
  status : u.status = statusDone
  platform : u.platform = s.platform
  sameCount : u.count = s.count
  sameEbuf : u.ebuf = s.ebuf
  samePlanes : planeBases d u = planeBases d s
  wf : Memory.wf u.mem = true
  total : pairTotal r = s.len.toNat
  moved : ∀ t, t < pairTotal r → readByte u.mem (pairDst r t) = readByte s.mem (pairSrc r t)

theorem transformed_of_runPairs {op : BufferOp} {d : DType} {s v u : State} {r : Running} {order : List Nat}
    (hm : Memory.wf s.mem = true) (hrun : s.run = none) (hb : busy s = false) (hc : s.platform.memCoherent = true)
    (hexec : exec (bufferCommand op d) s = .next v) (hr : v.run = some r) (ho : order.Perm (List.range (pairTotal r)))
    (hpairs : runPairs order v = .next u) (hst : u.status = 0x00000002) : Transformed op d s u r := by
  obtain ⟨w, rfl, rfl, hok, hlen⟩ := exec_accepted hm hrun hb hexec hr
  rcases runPairs_fresh_cases (s := ((s.setCmd w).setRun _).setStatus statusBusy) hok rfl rfl rfl hc hm ho
    with ⟨m, hends⟩ | ⟨_, x, e, hx, hxst⟩
  · cases hpairs.symm.trans hends.run
    have hmoved := fun t ht => hends.dst t (ho.mem_iff.2 (List.mem_range.2 ht))
    refine ⟨rfl, rfl, rfl, rfl, ?_, rfl, rfl, rfl, rfl, rfl, ?_, hends.wf, hlen, hmoved⟩ <;> cases d <;> rfl
  · cases hpairs.symm.trans hx
    cases e <;> cases hst.symm.trans hxst

/-- An idle machine in order runs a command to a normal end. -/
theorem transformed_of_inv {op : BufferOp} {d : DType} {s v u : State} {r : Running} {order : List Nat}
    (hi : s.Inv) (hb : busy s = false) (hc : s.platform.memCoherent = true)
    (hexec : exec (bufferCommand op d) s = .next v) (hr : v.run = some r) (ho : order.Perm (List.range (pairTotal r)))
    (hpairs : runPairs order v = .next u) (hst : u.status = 0x00000002) : Transformed op d s u r :=
  transformed_of_runPairs hi.1 (inv_run_eq_none hi hb) hb hc hexec hr ho hpairs hst

theorem Transformed.not_busy {op : BufferOp} {d : DType} {s u : State} {r : Running} (h : Transformed op d s u r) :
    busy u = false := by
  rw [busy, h.status, statusBusyBit_done]

/-- The plane byte that FORWARD writes for byte p of element i. -/
theorem Transformed.forward_byte {d : DType} {s u : State} {r : Running} (h : Transformed .forward d s u r) {i p : Nat}
    (hi : i < s.count.toNat) (hp : p < planeCount d) :
    readByte u.mem ((r.pb.getD p 0).toNat + i) = readByte s.mem (s.ebuf.toNat + planeCount d * i + p) := by
  obtain rfl := h.dt
  obtain ⟨hsrc, hdst⟩ := (pairAddressesOfEachCommand r i p hp).1 h.op
  have hmoved := h.moved (pairNumber r i p) (pairNumber_lt r (h.count ▸ hi) hp)
  rwa [hsrc, hdst, h.ebuf] at hmoved

/-- Byte p of element i, as INVERSE writes it. -/
theorem Transformed.inverse_byte {d : DType} {s u : State} {r : Running} (h : Transformed .inverse d s u r) {i p : Nat}
    (hi : i < s.count.toNat) (hp : p < planeCount d) :
    readByte u.mem (s.ebuf.toNat + planeCount d * i + p) = readByte s.mem ((r.pb.getD p 0).toNat + i) := by
  obtain rfl := h.dt
  obtain ⟨hsrc, hdst⟩ := (pairAddressesOfEachCommand r i p hp).2 h.op
  have hmoved := h.moved (pairNumber r i p) (pairNumber_lt r (h.count ▸ hi) hp)
  rwa [hsrc, hdst, h.ebuf] at hmoved

/-! Two commands in a row (42_transform_engine R132). -/

/-- Settles O32: byte j of the buffer is byte p of element i for one pair (i, p), which FORWARD moves to a plane and INVERSE back. -/
theorem forwardThenInverseRestoresTheBuffer : Obligations.ForwardThenInverseRestoresTheBuffer := by
  intro d s s1 s2 s3 s4 r1 r3 o1 o2 e hi hb hc _ h1 hr1 ho1 hp1 hst1 h3 hr3 ho2 hp2 hst2 j hj
  have hf := transformed_of_inv hi hb hc h1 hr1 ho1 hp1 hst1
  have hg := transformed_of_runPairs (s := { s2 with ebuf := e }) hf.wf hf.run hf.not_busy (hf.platform ▸ hc) h3 hr3 ho2 hp2 hst2
  have hpb : r3.pb = r1.pb := by
    rw [hf.pb, ← hf.samePlanes, hg.pb]
    cases d <;> rfl
  have hlen : s.count.toNat * planeCount d = s.len.toNat := by rw [← hf.total, pairTotal, hf.count, hf.dt]
  have hj' : j / planeCount d < s.count.toNat := Nat.div_lt_of_lt_mul (by rwa [mul_comm, hlen])
  have hp := Nat.mod_lt j (planeCount_pos d)
  have hback := hg.inverse_byte (by rwa [hf.sameCount]) hp
  rwa [hpb, hf.forward_byte hj' hp, add_assoc, add_assoc, Nat.div_add_mod] at hback

/-- Settles O33: INVERSE moves byte i of plane p to byte p of element i, and FORWARD moves it to the new plane. -/
theorem inverseThenForwardRestoresThePlanes : Obligations.InverseThenForwardRestoresThePlanes := by
  intro d s s1 s2 s3 s4 r1 r3 o1 o2 q0 q1 q2 q3 hi hb hc _ h1 hr1 ho1 hp1 hst1 h3 hr3 ho2 hp2 hst2 i p hi' hp
  have hf := transformed_of_inv hi hb hc h1 hr1 ho1 hp1 hst1
  have hg := transformed_of_runPairs (s := { s2 with pb0 := q0, pb1 := q1, pb2 := q2, pb3 := q3 }) hf.wf hf.run hf.not_busy
    (hf.platform ▸ hc) h3 hr3 ho2 hp2 hst2
  have hback := hg.forward_byte (by rwa [hf.sameCount]) hp
  rwa [hf.sameEbuf, hf.inverse_byte hi' hp] at hback

/-! The element codec (42_transform_engine R133, 20_memory R52). -/

/-- The bytes at an address and after it, as digits (20_memory R52). -/
def bytesFrom (m : List Host.Cell) (a n : Nat) : List Nat := (List.range n).map fun j => (readByte m (a + j)).toNat

@[simp] theorem length_bytesFrom (m : List Host.Cell) (a n : Nat) : (bytesFrom m a n).length = n := by simp [bytesFrom]

@[simp] theorem getElem_bytesFrom (m : List Host.Cell) (a n j : Nat) (h : j < (bytesFrom m a n).length) :
    (bytesFrom m a n)[j] = (readByte m (a + j)).toNat := by simp [bytesFrom]

theorem lt_of_mem_bytesFrom {m : List Host.Cell} {a n x : Nat} (h : x ∈ bytesFrom m a n) : x < 256 := by
  obtain ⟨j, _, rfl⟩ := List.mem_map.1 h
  exact (readByte m (a + j)).isLt

/-- An element's value has its bytes as digits to the base 256. -/
theorem elemAt_eq_ofDigits (m : List Host.Cell) (base n i : Nat) :
    elemAt m base n i = Nat.ofDigits 256 (bytesFrom m (base + i * n) n) := by
  have hweights : (bytesFrom m (base + i * n) n).mapIdx (fun j b => b * 256 ^ j)
      = (List.range n).map fun j => (readByte m (base + i * n + j)).toNat * 2 ^ (8 * j) :=
    List.ext_getElem (by simp) (by simp [pow_mul])
  rw [Nat.ofDigits_eq_sum_mapIdx, hweights, List.sum_eq_foldr, List.foldr_map]
  rfl

theorem elemAt_lt (m : List Host.Cell) (base n i : Nat) : elemAt m base n i < 256 ^ n := by
  have h := Nat.ofDigits_lt_base_pow_length (b := 256) (by decide) fun x => lt_of_mem_bytesFrom (m := m) (a := base + i * n) (n := n)
  rwa [length_bytesFrom, ← elemAt_eq_ofDigits] at h

/-- Byte p of an element's value is its byte p in memory. -/
theorem elemAt_byte (m : List Host.Cell) (base i : Nat) {n p : Nat} (hp : p < n) :
    elemAt m base n i / 256 ^ p % 256 = (readByte m (base + i * n + p)).toNat := by
  rw [elemAt_eq_ofDigits, Nat.ofDigits_div_pow_eq_ofDigits_drop p (by decide) _ fun x => lt_of_mem_bytesFrom,
    List.drop_eq_getElem_cons (by simpa using hp), Nat.ofDigits_cons, Nat.add_mul_mod_self_left, getElem_bytesFrom]
  exact Nat.mod_eq_of_lt (readByte m _).isLt

theorem planeBytesAt_eq_ofDigits (m : List Host.Cell) (bases : List Word) (i : Nat) :
    planeBytesAt m bases i = Nat.ofDigits 256 (bases.map fun b => (readByte m (b.toNat + i)).toNat) := by
  rw [Nat.ofDigits_eq_foldr, List.foldr_map]
  rfl

/-- An element whose bytes are those of the planes has the value that the plane bytes pack to. -/
theorem elemAt_eq_planeBytesAt {m m₀ : List Host.Cell} {bases : List Word} {base i n : Nat} (hn : bases.length = n)
    (h : ∀ p, p < n → readByte m (base + i * n + p) = readByte m₀ ((bases.getD p 0).toNat + i)) :
    elemAt m base n i = planeBytesAt m₀ bases i := by
  rw [elemAt_eq_ofDigits, planeBytesAt_eq_ofDigits]
  refine congrArg _ (List.ext_getElem (by simp [hn]) fun p hp _ => ?_)
  rw [length_bytesFrom] at hp
  simp [h p hp, List.getElem?_eq_getElem (hn.symm ▸ hp)]

theorem elemAt_lt_word (m : List Host.Cell) (base : Nat) (d : DType) (i : Nat) : elemAt m base (elemBytes d) i < 2 ^ 32 :=
  (elemAt_lt m base _ i).trans_le (by cases d <;> decide)

/-- Settles O34: FORWARD writes the bytes of the element, and they are the digits of its value that SPLIT gives. -/
theorem forwardAgreesWithSplit : Obligations.ForwardAgreesWithSplit := by
  intro d s s1 s2 e1 e2 r order i p hi hb hc h1 hr ho hpairs hst hi' hp he1 he2
  have hf := transformed_of_inv hi hb hc h1 hr ho hpairs hst
  have hb1 : busy e1 = false := he1 ▸ hb
  have hsplit : e2.planes.toNat / 256 ^ p % 256 = e1.elem.toNat / 256 ^ p % 256 := by
    obtain ⟨h16, _, h32⟩ := planeIsTheByteAtItsOffset e1 e2 p hb1
    cases d
    · exact h16 he2 hp
    · exact h32 he2 hp
  have helem : e1.elem.toNat = elemAt s.mem s.ebuf.toNat (elemBytes d) i := by
    rw [he1]
    exact Nat.mod_eq_of_lt (elemAt_lt_word ..)
  rw [hf.forward_byte hi' hp, hsplit, helem, elemAt_byte (n := elemBytes d) _ _ _ hp, mul_comm i]
  rfl

/-- Settles O35: the bytes of the element are those of the planes, and the value they pack to goes through JOIN unchanged. -/
theorem inverseAgreesWithJoin : Obligations.InverseAgreesWithJoin := by
  intro d s s1 s2 e1 e2 r order i hi hb hc h1 hr ho hpairs hst hi' he1 he2
  have hf := transformed_of_inv hi hb hc h1 hr ho hpairs hst
  have hb1 : busy e1 = false := he1 ▸ hb
  have helem : elemAt s2.mem s.ebuf.toNat (elemBytes d) i = planeBytesAt s.mem r.pb i :=
    elemAt_eq_planeBytesAt (hf.pb ▸ length_planeBases d s) fun p hp => by
      rw [← hf.inverse_byte hi' hp, mul_comm i]
      rfl
  have hlt := elemAt_lt s2.mem s.ebuf.toNat (elemBytes d) i
  have hplanes : e1.planes.toNat = elemAt s2.mem s.ebuf.toNat (elemBytes d) i := by
    rw [helem, he1]
    exact Nat.mod_eq_of_lt (helem ▸ elemAt_lt_word ..)
  cases d with
  | dtype16 =>
    cases (exec_join16 hb1).symm.trans he2
    rw [← joinWord16_eq, joinWord16_toNat, hplanes]
    exact (Nat.mod_eq_of_lt hlt).symm
  | dtype32 =>
    cases (exec_join32 hb1).symm.trans he2
    exact hplanes.symm

end Sys2Proof.Machine
end

section
/-! InvalidInput, what waits for idle, and the bus error: the access it reports and what a command cut short leaves in memory
(60_exceptions R143, R146, R150, R157, 70_reset_and_hazards R171). -/

namespace Sys2Proof.Machine

open Sys2Proof Sys2Proof.Config

/-! InvalidInput and BUSY = 1 (60_exceptions R143, R150). -/

/-- The cause stands above the low byte of STATUS (60_exceptions R141, R143). -/
theorem statusInvalidInput_eq_ofNat (c : Cause) : statusInvalidInput c = BitVec.ofNat 32 (0x12 + 256 * (causeCode c).toNat) := by
  cases c <;> decide

/-- Settles O6: a rejected word and a failed operand check both end in STATUS, whose cause is shifted into its place. -/
theorem invalidInputChangesOnlyCmdAndStatus : Obligations.InvalidInputChangesOnlyCmdAndStatus := by
  unfold Obligations.InvalidInputChangesOnlyCmdAndStatus
  intro code
  have hcode : ∀ c, code c = (causeCode c).toNat := fun c => by cases c <;> rfl
  refine ⟨fun s w c h hres hb hd => ?_, fun s op d c hb hc => ?_⟩ <;> rw [hcode, ← statusInvalidInput_eq_ofNat]
  · exact step_of_rejected h hres hb hd
  · exact exec_buffer_rejected hb hc

/-- Settles O8: every command is accepted through one test of BUSY. -/
theorem commandsWaitForIdle : Obligations.CommandsWaitForIdle := fun i _ hb => exec_of_busy i hb

/-! Idle turns and `wait` (60_exceptions R157, 30_encoding R79). -/

theorem step_of_wait {s : State} (h : aboutTo .wait s) (hres : s.inReset = false) : step s = .next (pollStatus (popped s)) := by
  rw [step_of_aboutTo h, hostStep_wait, windowAccess_of_ok (s := popped s) _ hres (by decide)]

/-- Putting the operation back that was taken from the program leaves only the turn taken. -/
theorem popped_setProgram_of_aboutTo {op : HostOp} {s : State} (h : aboutTo op s) :
    (popped s).setProgram (op :: (popped s).program) = turnTaken s := by
  have hprogram : op :: s.program.tail = s.program := List.cons_head?_tail h.2
  simp only [popped, State.setProgram, turnTaken, hprogram]

/-- Settles O9: an idle turn only takes the turn, and `wait` is taken from the program and put back exactly while BUSY = 1. -/
theorem idleAndWaitingKeepTheRegisters : Obligations.IdleAndWaitingKeepTheRegisters := by
  refine ⟨fun s => step_of_idle_host, fun s ha hr => ?_, fun s h hres hb => ?_, fun s h hres hb => ?_⟩
  · rw [step_of_engine ha, engineStep_idle (s := turnTaken s) hr]
  · rw [step_of_wait h hres]
    rcases pollStatus_cases (popped s) with ⟨hidle, _⟩ | ⟨_, he⟩
    · cases hb.symm.trans hidle
    · rw [he, ← popped_setProgram_of_aboutTo h]
      rfl
  · rw [step_of_wait h hres]
    rcases pollStatus_cases (popped s) with ⟨_, he⟩ | ⟨hbusy, _⟩
    · rw [he]
      rfl
    · cases hb.symm.trans hbusy

/-! The access a bus error reports (60_exceptions R146 (b)). -/

/-- An access of one of the command's pairs that the port refuses. -/
def RefusedAccess (p : Platform) (r : Running) (x : Nat × Dir) : Prop :=
  portAdmits p x.1 x.2 = false
    ∧ ∃ t, t < pairTotal r ∧ ((x.2 = .read ∧ x.1 = pairSrc r t) ∨ (x.2 = .write ∧ x.1 = pairDst r t))

theorem refusedAccess_iff (p : Platform) (r : Running) (x : Nat × Dir) :
    RefusedAccess p r x
      ↔ ∃ t d, t < pairTotal r ∧ portAdmits p (pairAccess r t d) d = false ∧ x = (pairAccess r t d, d) := by
  constructor
  · obtain ⟨a, d⟩ := x
    rintro ⟨hp, t, ht, ⟨rfl, rfl⟩ | ⟨rfl, rfl⟩⟩
    · exact ⟨t, .read, ht, hp, rfl⟩
    · exact ⟨t, .write, ht, hp, rfl⟩
  · rintro ⟨t, d, ht, hp, rfl⟩
    refine ⟨hp, t, ht, ?_⟩
    cases d
    · exact .inl ⟨rfl, rfl⟩
    · exact .inr ⟨rfl, rfl⟩

/-- Free values that name a refused access of a pair have it reported. -/
theorem reportedAccess_of_drawn {p : Platform} {r : Running} {t m : Nat} (ht : t < pairTotal r)
    (h : portAdmits p (pairAccess r t (drawnDir m)) (drawnDir m) = false) (found : Nat × Dir) :
    reportedAccess p r t m found = (pairAccess r t (drawnDir m), drawnDir m) := by
  unfold reportedAccess
  dsimp only
  rw [Nat.mod_eq_of_lt ht, if_pos ⟨ht, h⟩]

/-- Settles O56: the report is the access found or one the free values name, and they can name any pair and either direction. -/
theorem busErrorMayReportAnyRefusedAccess : Obligations.BusErrorMayReportAnyRefusedAccess := by
  intro p r found
  show RefusedAccess p r found → (∀ n m, RefusedAccess p r (reportedAccess p r n m found))
    ∧ ∀ x, RefusedAccess p r x → ∃ n m, reportedAccess p r n m found = x
  intro hfound
  refine ⟨fun n m => ?_, fun x hx => ?_⟩
  · rcases reportedAccess_cases p r n m found with he | he
    · rwa [he]
    · exact (refusedAccess_iff p r _).2 he
  · obtain ⟨t, d, ht, hp, rfl⟩ := (refusedAccess_iff p r x).1 hx
    obtain ⟨m, rfl⟩ := drawnDir_surjective d
    exact ⟨t, m, reportedAccess_of_drawn ht hp found⟩

/-! The step that raises a bus error (60_exceptions R146, 42_transform_engine R126). -/

/-- The port refuses a pair's access in this direction; its read is asked first. -/
def PairRefused (p : Platform) (r : Running) (t : Nat) : Dir → Prop
  | .read => portAdmits p (pairSrc r t) .read = false
  | .write => portAdmits p (pairSrc r t) .read = true ∧ portAdmits p (pairDst r t) .write = false

theorem exists_pairRefused {p : Platform} {r : Running} {t : Nat}
    (h : portAdmits p (pairSrc r t) .read = false ∨ portAdmits p (pairDst r t) .write = false) : ∃ d, PairRefused p r t d := by
  cases hread : portAdmits p (pairSrc r t) .read with
  | false => exact ⟨.read, hread⟩
  | true => exact ⟨.write, hread, h.resolve_left (by simp [hread])⟩

theorem transferPair_of_refused {r : Running} {t : Nat} {d : Dir} {s : State} (ho : operandsOk s.platform r = true)
    (ht : t < pairTotal r) (h : PairRefused s.platform r t d) :
    transferPair t r s = .next (raiseBusError (pairAccess r t d) d r s) := by
  obtain ⟨hsrc, hdst⟩ := pair_lt_space ho ht
  unfold transferPair
  rw [if_neg (Nat.not_le.2 hsrc)]
  cases d with
  | read => exact if_pos h
  | write =>
    obtain ⟨hread, hwrite⟩ := h
    rw [if_neg (by simp [hread]), if_neg (Nat.not_le.2 hdst), if_pos hwrite]
    rfl

/-- An engine step whose picked pair the port refuses raises the bus error; one draw has picked the pair. -/
theorem step_of_refused_pair {s : State} {r : Running} {d : Dir} (hi : s.Inv) (hr : s.run = some r) (ha : nextAgent s = .engine)
    (h : PairRefused s.platform r (pickPair r (turnTaken s)) d) :
    step s = .next (raiseBusError (pairAccess r (pickPair r (turnTaken s)) d) d r ((turnTaken s).addDraws 1)) := by
  obtain ⟨ho, hp, _⟩ := (runningOk_iff _ r).1 (inv_runningOk hi hr)
  rw [step_of_engine ha, engineStep_running (s := turnTaken s) hr hp]
  exact transferPair_of_refused (s := (turnTaken s).addDraws 1) ho (pickPair_free hp _).2 h

/-- A bus error as one update, its report's direction read off STATUS. -/
theorem raiseBusError_eq_update (a : Nat) (d : Dir) (r : Running) (s : State) :
    raiseBusError a d r s = { s with
      errAddr := BitVec.ofNat 32 (reportIn s r a d).1
      status := match (reportIn s r a d).2 with
        | .read => 0x00000122
        | .write => 0x00000222
      run := none, unseen := forget r :: s.unseen, mem := (raiseBusError a d r s).mem
      draws := (raiseBusError a d r s).draws } := by
  obtain ⟨m, n, h⟩ := raiseBusError_frame a d r s
  rw [h]
  cases (reportIn s r a d).2 <;> rfl

/-- Settles O26: the refused access is the bus error's, which changes memory and takes draws beyond its own only by settling races. -/
theorem refusedAccessIsABusError : Obligations.RefusedAccessIsABusError := by
  intro s r hi hr ha t busError
  have key : ∀ d, PairRefused s.platform r t d → busError (pairAccess r t d, d) := fun d h => by
    refine ⟨_, step_of_refused_pair hi hr ha h, raiseBusError_eq_update _ d r _, fun hw => ?_⟩
    rw [raiseBusError_of_no_race hw]
    exact ⟨rfl, rfl⟩
  exact ⟨key .read, fun hread hwrite => key .write ⟨hread, hwrite⟩⟩

/-! Commands cut short (60_exceptions R146 (a), 70_reset_and_hazards R171). -/

/-- What memory reads after the races of a command cut short are settled: a raced byte holds its old value or a final one. -/
theorem readByte_settleRaces_cutShort (r : Running) (s : State) (a : Nat) :
    (a ∈ racedBytes r → readByte (settleRaces true r s).mem a = readByte r.before a
      ∨ readByte (settleRaces true r s).mem a ∈ finalValues r a)
    ∧ (a ∉ racedBytes r → readByte (settleRaces true r s).mem a = readByte s.mem a) := by
  obtain ⟨hother, hraced⟩ := readByte_settleRaces true r s a
  exact ⟨fun h => List.mem_cons.1 (hraced h (settleValues_ne_nil true (racedBytes_isDestination h))), hother⟩

theorem raiseBusError_mem (a : Nat) (d : Dir) (r : Running) (s : State) :
    (raiseBusError a d r s).mem = (settleRaces true r (s.addDraws 2)).mem := rfl

theorem assertReset_mem {s : State} {r : Running} (hr : s.run = some r) :
    (assertReset s).mem = (settleRaces true r s).mem := by
  simp [assertReset, hr, resetRegisters]

/-- Settles O57: a reset and a bus error settle the races of the command they cut short, and write nothing else to memory. -/
theorem racesCutShortLeaveOldOrFinal : Obligations.RacesCutShortLeaveOldOrFinal := by
  intro s r hi hr settled t
  have hsettled : ∀ {u v : State}, u.run = none → u.mem = (settleRaces true r v).mem → v.mem = s.mem → settled u := by
    intro u v hrun hu hv
    have hmem := readByte_settleRaces_cutShort r v
    rw [← hu, hv] at hmem
    exact ⟨hrun, fun a => (hmem a).1, fun a => (hmem a).2⟩
  refine ⟨fun h => ?_, fun ha hrefused => ?_⟩
  · exact ⟨_, step_of_aboutTo h, hsettled (assertReset_run _) (assertReset_mem (s := popped s) hr) rfl⟩
  · obtain ⟨d, hd⟩ := exists_pairRefused hrefused
    exact ⟨_, step_of_refused_pair hi hr ha hd, hsettled (raiseBusError_run ..) (raiseBusError_mem ..) rfl⟩

end Sys2Proof.Machine
end

section
/-! Reset (70_reset_and_hazards R170 to R172). -/

namespace Sys2Proof.Machine

open Sys2Proof Sys2Proof.Config

/-- Without a race an assertion of reset settles nothing. -/
theorem assertReset_mem_of_noRace {s : State} (h : noRace s = true) : (assertReset s).mem = s.mem := by
  cases hr : s.run with
  | none => simp [assertReset, hr, resetRegisters]
  | some r =>
    have hnotes : r.hostWrites = [] := (noRace_iff s).1 h r ((mem_owners s r).2 (.inl hr))
    rw [assertReset_mem hr, settleRaces_of_no_race true hnotes]

/-- While reset is asserted no command runs. -/
theorem inv_run_eq_none_of_inReset {s : State} (hi : s.Inv) (hres : s.inReset = true) : s.run = none := by
  cases hr : s.run with
  | none => rfl
  | some r => cases hres.symm.trans (inv_not_inReset hi hr)

/-- Settles O47: the hidden state is discarded with nothing to settle, and under reset the engine has no command to move. -/
theorem resetAbandonsTheCommand : Obligations.ResetAbandonsTheCommand := by
  refine ⟨fun s h hn => ⟨_, step_of_aboutTo h, assertReset_run _, assertReset_mem_of_noRace (s := popped s) hn⟩,
    fun s hi hres ha => ?_⟩
  rw [step_of_engine ha, engineStep_idle (inv_run_eq_none_of_inReset (inv_turnTaken hi) hres)]

/-! CAP (70_reset_and_hazards R172). -/

theorem capAtReset_iff (p : Platform) : capAtReset p = true ↔ p.capIn = true ∧ 0 < p.vlen.toNat := by
  simp [capAtReset]

/-- No operation of the host but an assertion and a release of reset writes CAP. -/
theorem hostStep_keeps_cap {op : HostOp} {s u : State} (hassert : op ≠ .assertReset) (hrelease : op ≠ .releaseReset)
    (h : hostStep op s = .next u) : u.cap = s.cap := by
  rcases hostStep_next_cases h with
    ⟨offset, _, _, rfl⟩ | ⟨_, _, rfl⟩ | ⟨w, _, _, hw⟩ | ⟨offset, w, _, _, _, rfl⟩ | ⟨a, _, rfl⟩ | ⟨a, v, _, rfl⟩
      | ⟨hop, _⟩ | ⟨hop, _⟩
  · rcases hostRegRead_cases offset s with ⟨_, he⟩ | ⟨_, _, he⟩ <;> simp [he]
  · rcases pollStatus_cases s with ⟨_, he⟩ | ⟨_, he⟩ <;> simp [he]
  · exact (writeCmd_frame hw).1.2.1
  · obtain ⟨e, p, c, l, b, p0, p1, p2, p3, he, _⟩ := writeRegister_frame s offset w
    simp [he]
  · obtain ⟨v, n, he⟩ := hostMemRead_cases a.toNat s
    simp [he]
  · exact (hostMemWrite_frame a.toNat v s).fields.1.2.1
  · exact absurd hop hassert
  · exact absurd hop hrelease

/-- Settles O48: a release of reset latches CAP, and the engine, an idle turn and every other operation of the host leave it. -/
theorem capIsLatchedAtReset : Obligations.CapIsLatchedAtReset := by
  refine ⟨capAtReset_iff _, fun s h hres => ?_, fun s t hassert hrelease h => ?_⟩
  · rcases releaseReset_cases (popped s) with ⟨hn, _⟩ | ⟨_, he⟩
    · cases hres.symm.trans hn
    · exact ⟨_, step_of_aboutTo h, he ▸ capAtReset_iff s.platform⟩
  · rcases step_cases s with ⟨_, hs⟩ | ⟨_, _, hs⟩ | ⟨op, ho, hs⟩ <;> rw [hs] at h
    · exact (engineStep_frame h).fields.1.2.1
    · cases h
      rfl
    · exact hostStep_keeps_cap (s := popped s) (fun hop => hassert (hop ▸ ho)) (fun hop => hrelease (hop ▸ ho)) h

end Sys2Proof.Machine
end

section
/-! A host write after a command's end (70_reset_and_hazards R176, 20_memory R63 (b), (c)). -/

namespace Sys2Proof.Machine

open Sys2Proof Sys2Proof.Config

/-- The destination bytes a write of a byte races with, by the command's pairs. -/
theorem mem_racedBy (r : Running) (a b : Nat) : b ∈ racedBy r a ↔
    (isDestination r a = true ∧ b = a) ∨ (isDestination r a = false ∧ ∃ t, t < pairTotal r ∧ pairSrc r t = a ∧ b = pairDst r t) := by
  unfold racedBy
  cases isDestination r a with
  | true => simp
  | false => simp [mem_pairsReading, and_assoc, eq_comm]

/-- More notes are all that changes of a command: the old ones stay, and each new one is one of P. -/
theorem notesTo.hostWrites {P : Host.Cell → Prop} {r q : Running} (h : notesTo P r q) :
    q = { r with hostWrites := q.hostWrites } ∧ (∀ c ∈ r.hostWrites, c ∈ q.hostWrites)
      ∧ ∀ c ∈ q.hostWrites, c ∈ r.hostWrites ∨ P c := by
  obtain ⟨l, rfl, hl⟩ := h
  exact ⟨rfl, fun c hc => List.mem_append_right l hc,
    fun c hc => (List.mem_append.1 hc).symm.imp_right fun hc => (hl c hc).1⟩

theorem writeFrame.eq_update {P : Host.Cell → Prop} {s u : State} (h : writeFrame P s u) :
    u = { s with mem := u.mem, run := u.run, unseen := u.unseen, draws := u.draws } := by
  obtain ⟨m, n, f, _, rfl⟩ := h
  rfl

/-- The commands that own their regions note a host write alike: the value written, if it falls in their regions, and beside it only
the new values of the bytes it races with after a command's end. -/
theorem hostMemWrite_notes (a : Nat) (v : Byte) (s : State) : ∃ f : Running → Running,
    (hostMemWrite a v s).run = s.run.map f ∧ (hostMemWrite a v s).unseen = s.unseen.map f
      ∧ ∀ r, notesTo (fun c => c = (a, v)
            ∨ ((∃ q ∈ s.unseen, c.1 ∈ racedBy q a) ∧ c.2 = readByte (hostMemWrite a v s).mem c.1)) r (f r)
        ∧ (isDestination r a = true ∨ isSource r a = true → (a, v) ∈ (f r).hostWrites) := by
  obtain ⟨m, n, g, hg, he⟩ := (hostMemWrite_settles a v s).2.2
  refine ⟨g ∘ noteWrite a v, by simp [he, putByte], by simp [he, putByte], fun r => ⟨?_, fun hin => ?_⟩⟩
  · exact ((noteWrite_notesTo a v r).mono fun _ hc => .inl hc).trans
      ((hg _).mono fun c hc => .inr ⟨(mem_lateBytes a v s c.1).1 hc.1, hc.2⟩)
  · exact (hg _).hostWrites.2.1 _ (mem_noteWrite v hin)

/-- Settles O59: the write is noted by every owner, and each byte it races with is settled by a draw at once. -/
theorem hostWritesAfterTheEndStillRace : Obligations.HostWritesAfterTheEndStillRace := by
  intro s a v h ha _ raced
  have hraced : ∀ r b, raced r b ↔ b ∈ racedBy r a.toNat := fun r b => (mem_racedBy r a.toNat b).symm
  obtain ⟨f, hrun, hunseen, hf⟩ := hostMemWrite_notes a.toNat v (popped s)
  simp only [hraced]
  refine ⟨_, step_of_memWrite h ha, (hostMemWrite_frame a.toNat v (popped s)).eq_update, fun b hb => ?_, fun b hb => ?_,
    f, hrun, hunseen, fun r => ?_⟩
  · exact (readByte_hostMemWrite a.toNat v (popped s) b).1 hb
  · obtain ⟨r, hr, hbr⟩ := hb
    rcases (readByte_hostMemWrite a.toNat v (popped s) b).2 ⟨r, hr, hbr⟩ with hkept | ⟨q, hq, hbq, hval⟩
    · exact ⟨r, hr, hbr, .inl hkept⟩
    · exact ⟨q, hq, hbq, .inr hval⟩
  · obtain ⟨hnotes, hnoted⟩ := hf r
    obtain ⟨hsame, hold, hnew⟩ := hnotes.hostWrites
    exact ⟨hsame, hold, hnew, hnoted⟩

end Sys2Proof.Machine
end

section
/-! How long a command owns its regions (70_reset_and_hazards R176, 20_memory R64). -/

namespace Sys2Proof.Machine

open Sys2Proof Sys2Proof.Config

/-- q is the command r, running or ended, with the same regions and memory at acceptance, and no fewer notes of host writes. -/
def StillOwns (r q : Running) : Prop :=
  q.op = r.op ∧ q.dt = r.dt ∧ q.count = r.count ∧ q.ebuf = r.ebuf ∧ q.pb = r.pb ∧ q.before = r.before
    ∧ ∀ c ∈ r.hostWrites, c ∈ q.hostWrites

theorem StillOwns.refl (r : Running) : StillOwns r r := ⟨rfl, rfl, rfl, rfl, rfl, rfl, fun _ hc => hc⟩

theorem stillOwns_withPair (r : Running) (t : Nat) : StillOwns r (withPair r t) := StillOwns.refl r

theorem StillOwns.forget {r q : Running} (h : StillOwns r q) : StillOwns r (forget q) := h

theorem notesTo.stillOwns {P : Host.Cell → Prop} {r q : Running} (h : notesTo P r q) : StillOwns r q := by
  have hold := h.hostWrites.2.1
  obtain ⟨l, rfl, _⟩ := h
  exact ⟨rfl, rfl, rfl, rfl, rfl, rfl, hold⟩

/-- Every command that owned its regions in s owns them in u. -/
def OwnersKept (s u : State) : Prop := ∀ r ∈ owners s, ∃ q ∈ owners u, StillOwns r q

theorem OwnersKept.refl (s : State) : OwnersKept s s := fun r hr => ⟨r, hr, StillOwns.refl r⟩

/-- The running command goes on or ends, and the commands that have ended stay. -/
theorem ownersKept_of_run {s u : State} (hrun : ∀ r, s.run = some r → ∃ q, (u.run = some q ∨ q ∈ u.unseen) ∧ StillOwns r q)
    (hunseen : s.unseen ⊆ u.unseen) : OwnersKept s u := by
  intro r hr
  rcases (mem_owners s r).1 hr with hr | hr
  · obtain ⟨q, hq, hown⟩ := hrun r hr
    exact ⟨q, (mem_owners u q).2 hq, hown⟩
  · exact ⟨r, (mem_owners u r).2 (.inr (hunseen hr)), StillOwns.refl r⟩

/-- A command that ends is still an owner. -/
theorem ownersKept_of_ended {s u : State} {r q : Running} (hr : s.run = some r) (hq : StillOwns r q)
    (hu : u.unseen = q :: s.unseen) : OwnersKept s u := by
  refine ownersKept_of_run (fun x hx => ⟨q, .inr (by simp [hu]), ?_⟩) (by simp [hu])
  cases hr.symm.trans hx
  exact hq

theorem transferPair_ownersKept {t : Nat} {r : Running} {s u : State} (hr : s.run = some r)
    (h : transferPair t r s = .next u) : OwnersKept s u := by
  rcases transferPair_cases t r s with ⟨a, _, _, he⟩ | ⟨a, d, _, _, _, he⟩ | ⟨_, _, _, _, he⟩ <;> rw [he] at h <;> cases h
  · exact ownersKept_of_ended hr (StillOwns.refl r).forget (raiseBusError_unseen a d r s)
  · rcases completePair_cases t (engineRead (pairSrc r t) s) r s with ⟨_, hc⟩ | ⟨_, hc⟩ <;> rw [hc]
    · refine ownersKept_of_run (fun x hx => ⟨withPair r t, .inl rfl, ?_⟩) (List.Subset.refl _)
      cases hr.symm.trans hx
      exact stillOwns_withPair r t
    · exact ownersKept_of_ended hr (stillOwns_withPair r t).forget (endCommand_unseen _ _)

theorem engineStep_ownersKept {s u : State} (hi : s.Inv) (h : engineStep s = .next u) : OwnersKept s u := by
  cases hr : s.run with
  | none =>
    rw [engineStep_idle hr] at h
    cases h
    exact OwnersKept.refl s
  | some r =>
    have hp := ((runningOk_iff _ r).1 (inv_runningOk hi hr)).2.1
    rw [engineStep_running hr hp] at h
    exact transferPair_ownersKept (s := s.addDraws 1) hr h

theorem startBuffer_unseen {op : BufferOp} {d : DType} {s u : State} (h : startBuffer op d s = .next u) :
    u.unseen = s.unseen := by
  rcases startBuffer_cases op d s with ⟨_, _, he⟩ | ⟨_, _, he⟩ | ⟨_, he⟩ | ⟨_, _, _, _, he⟩ <;> rw [he] at h <;> cases h <;> rfl

/-- A CMD write shows the host no command's end. -/
theorem writeCmd_unseen {w : Word} {s u : State} (hb : busy s = false) (h : writeCmd w s = .next u) :
    u.unseen = s.unseen := by
  rcases writeCmd_cases w s with ⟨c, _, he⟩ | ⟨i, _, he⟩ <;> rw [he] at h
  · rw [rejectWord_idle _ _ hb] at h
    cases h
    rfl
  · rcases instr_cases i with hel | ⟨op, d, rfl⟩
    · rcases exec_element_cases hel s with ⟨_, he⟩ | ⟨_, p, v, he, _⟩ <;> cases h.symm.trans he <;> rfl
    · rw [exec_bufferCommand, acceptWord_idle _ _ hb] at h
      exact startBuffer_unseen (s := s.setCmd (encode (bufferCommand op d))) h

/-- A CMD write is ignored while a command runs, and otherwise leaves the commands that have ended as they are. -/
theorem writeCmd_ownersKept {w : Word} {s u : State} (hi : s.Inv) (h : writeCmd w s = .next u) : OwnersKept s u := by
  cases hb : busy s with
  | true =>
    rw [writeCmd_of_busy w hb] at h
    cases h
    exact OwnersKept.refl s
  | false =>
    have hnone := inv_run_eq_none hi hb
    exact ownersKept_of_run (fun r hr => by cases hnone.symm.trans hr) (by rw [writeCmd_unseen hb h]; exact List.Subset.refl _)

theorem writeRegister_ownersKept (s : State) (offset : BitVec 8) (v : Word) : OwnersKept s (writeRegister s offset v) := by
  obtain ⟨e, p, c, l, b, p0, p1, p2, p3, h, _⟩ := writeRegister_frame s offset v
  rw [h]
  exact OwnersKept.refl s

theorem hostRegRead_ownersKept {s : State} {offset : BitVec 8} (h : ¬ (offset = 0x04 ∧ busy s = false)) :
    OwnersKept s (hostRegRead offset s) := by
  rcases hostRegRead_cases offset s with ⟨_, he⟩ | ⟨ho, hb, _⟩
  · rw [he]
    exact OwnersKept.refl s
  · exact absurd ⟨ho, hb⟩ h

theorem pollStatus_ownersKept {s : State} (hb : busy s = true) : OwnersKept s (pollStatus s) := by
  rcases pollStatus_cases s with ⟨hn, _⟩ | ⟨_, he⟩
  · cases hb.symm.trans hn
  · rw [he]
    exact OwnersKept.refl s

theorem hostMemRead_ownersKept (a : Nat) (s : State) : OwnersKept s (hostMemRead a s) := by
  obtain ⟨v, n, h⟩ := hostMemRead_cases a s
  rw [h]
  exact OwnersKept.refl s

theorem hostMemWrite_ownersKept (a : Nat) (v : Byte) (s : State) : OwnersKept s (hostMemWrite a v s) := by
  obtain ⟨f, hrun, hunseen, hf⟩ := hostMemWrite_notes a v s
  intro r hr
  refine ⟨f r, ?_, (hf r).1.stillOwns⟩
  rw [mem_owners] at hr ⊢
  rw [hrun, hunseen]
  exact hr.imp (fun h => by rw [h]; rfl) (List.mem_map_of_mem (f := f))

/-- An operation of the host that reads STATUS with BUSY = 0. -/
def ShowsTheEnd (op : HostOp) (s : State) : Prop := (op = .regRead 0x04 .word ∨ op = .wait) ∧ busy s = false

/-- An operation of the host that resets the registers. -/
def Resets (op : HostOp) (s : State) : Prop := op = .assertReset ∨ (op = .releaseReset ∧ s.inReset = true)

theorem hostStep_ownersKept {op : HostOp} {s u : State} (hi : s.Inv) (hseen : ¬ ShowsTheEnd op s) (hreset : ¬ Resets op s)
    (h : hostStep op s = .next u) : OwnersKept s u := by
  rcases hostStep_next_cases h with
    ⟨offset, rfl, _, rfl⟩ | ⟨rfl, _, rfl⟩ | ⟨w, _, _, hw⟩ | ⟨offset, w, _, _, _, rfl⟩ | ⟨a, _, rfl⟩ | ⟨a, v, _, rfl⟩
      | ⟨rfl, _⟩ | ⟨rfl, rfl⟩
  · exact hostRegRead_ownersKept fun ⟨ho, hb⟩ => hseen ⟨.inl (by rw [ho]), hb⟩
  · exact pollStatus_ownersKept (by simpa [ShowsTheEnd] using hseen)
  · exact writeCmd_ownersKept hi hw
  · exact writeRegister_ownersKept s offset w
  · exact hostMemRead_ownersKept a.toNat s
  · exact hostMemWrite_ownersKept a.toNat v s
  · exact absurd (.inl rfl) hreset
  · rcases releaseReset_cases s with ⟨_, he⟩ | ⟨hres, _⟩
    · rw [he]
      exact OwnersKept.refl s
    · exact absurd (.inr ⟨rfl, hres⟩) hreset

theorem owners_eq_nil {s : State} (hr : s.run = none) (hu : s.unseen = []) : owners s = [] := by
  simp [owners, hr, hu]

/-- A read of STATUS with BUSY = 0, by `rd` or `wait`, gives the host the regions of the commands that have ended. -/
theorem hostStep_of_showsTheEnd {op : HostOp} {s u : State} (hseen : ShowsTheEnd op s) (h : hostStep op s = .next u) :
    u = (s.setReply (.word s.status)).setUnseen [] := by
  obtain ⟨rfl | rfl, hb⟩ := hseen
  · rcases windowAccess_cases 0x04 .word s (fun t => .next (hostRegRead 0x04 t)) with ⟨_, he⟩ | ⟨_, _, _, he⟩ <;>
      cases h.symm.trans he
    exact if_pos ⟨rfl, hb⟩
  · rcases windowAccess_cases 0x04 .word s (fun t => .next (pollStatus t)) with ⟨_, he⟩ | ⟨_, _, _, he⟩ <;>
      cases h.symm.trans he
    rcases pollStatus_cases s with ⟨_, he⟩ | ⟨hbusy, _⟩
    · exact he
    · cases hb.symm.trans hbusy

/-- After it no command owns a region: none runs, and those that have ended are seen to have. -/
theorem hostStep_owners_of_showsTheEnd {op : HostOp} {s u : State} (hi : s.Inv) (hseen : ShowsTheEnd op s)
    (h : hostStep op s = .next u) : owners u = [] := by
  rw [hostStep_of_showsTheEnd hseen h]
  exact owners_eq_nil (inv_run_eq_none (s := s) hi hseen.2) rfl

theorem hostStep_owners_of_resets {op : HostOp} {s u : State} (hreset : Resets op s) (h : hostStep op s = .next u) :
    owners u = [] := by
  obtain rfl | ⟨rfl, hres⟩ := hreset <;> cases h
  · exact owners_eq_nil rfl rfl
  · rcases releaseReset_cases s with ⟨hn, _⟩ | ⟨_, he⟩
    · cases hres.symm.trans hn
    · rw [he]
      exact owners_eq_nil rfl rfl

/-- Settles O60: the engine's end of a command leaves it an owner, and of the host's operations only a read of STATUS with BUSY = 0 and
a reset take owners away. -/
theorem ownershipEndsAtTheStatusRead : Obligations.OwnershipEndsAtTheStatusRead := by
  intro s t hi h seen reset
  show (seen → owners t = []) ∧ (reset → owners t = []) ∧ (¬ seen → ¬ reset → OwnersKept s t)
  refine ⟨fun hseen => ?_, fun hreset => ?_, fun hseen hreset => ?_⟩
  · obtain ⟨ho | ho, hb⟩ := hseen <;> rw [step_of_aboutTo ho] at h
    · exact hostStep_owners_of_showsTheEnd (inv_popped hi) ⟨.inl rfl, hb⟩ h
    · exact hostStep_owners_of_showsTheEnd (inv_popped hi) ⟨.inr rfl, hb⟩ h
  · obtain ho | ⟨ho, hres⟩ := hreset <;> rw [step_of_aboutTo ho] at h
    · exact hostStep_owners_of_resets (.inl rfl) h
    · exact hostStep_owners_of_resets (s := popped s) (.inr ⟨rfl, hres⟩) h
  · rcases step_cases s with ⟨_, hs⟩ | ⟨_, _, hs⟩ | ⟨op, ho, hs⟩ <;> rw [hs] at h
    · exact engineStep_ownersKept (s := turnTaken s) (inv_turnTaken hi) h
    · cases h
      exact OwnersKept.refl s
    · have habout : ∀ {o}, op = o → aboutTo o s := fun e => e ▸ ho
      have hnotShown : ¬ ShowsTheEnd op (popped s) := fun ⟨hop, hb⟩ => hseen ⟨hop.imp habout habout, hb⟩
      have hnotReset : ¬ Resets op (popped s) := fun hop => hreset (hop.imp habout (And.imp_left habout))
      exact hostStep_ownersKept (s := popped s) (inv_popped hi) hnotShown hnotReset h

end Sys2Proof.Machine
end
